-- ==== Sys2Proof/Word.lean ====
section
/-!
DEFINITION. The word type of the datapath and the two counting functions every area size is written with.
Every value is unsigned and bit 0 is the least significant (00_scope.md R13).
-/

namespace Sys2Proof

/-- A 64-bit cell of the datapath and the buffers; at `W` = 32 the engine uses its low 32 bits and keeps the rest 0
(10_state.md R41, decision D29). -/
abbrev Word := BitVec 64

/-- `ceil(a / b)` on naturals (00_scope.md R14). -/
def ceilDiv (a b : Nat) : Nat := (a + b - 1) / b

/-- `n` is a power of two; 1 counts (45_system.md R212, K4). -/
def isPowerOfTwo (n : Nat) : Bool := n != 0 && 2 ^ n.log2 == n

end Sys2Proof
end

