-- ==== Sys2Proof/Syntax.lean ====
section
/-!
DEFINITION. The twelve commands of 30_encoding.md R71, one constructor per row of spec/opcode_table.json. Operands that
travel in `ARG0` and `ARG1` are no part of the command word (R70).
-/

namespace Sys2Proof

/-- The 2-bit tag of a page word, with the spec's names (30_encoding.md R74). -/
inductive Tag where
  /-- the word is 0 and no exact match -/
  | ZERO
  /-- the word equals the candidate entry's value -/
  | EXACT
  /-- high bits equal the candidate's, values differ -/
  | PARTIAL
  /-- none of the above -/
  | MISS
deriving DecidableEq, Repr

/-- A decoded command. -/
inductive Instr where
  /-- `NOP` (45_system.md R210) -/
  | nop
  /-- `CONFIGURE` (45_system.md R211) -/
  | configure
  /-- `DINIT` (41_dictionary.md R134) -/
  | dinit
  /-- `DLOOKUP` (41_dictionary.md R135) -/
  | dlookup
  /-- `DPROMOTE` (41_dictionary.md R136) -/
  | dpromote
  /-- `DSETVAL` (41_dictionary.md R137) -/
  | dsetval
  /-- `PACKW k`, `k` bits per value (40_bit_packer.md R107) -/
  | packw (k : Nat)
  /-- `UNPACKW k` (40_bit_packer.md R108) -/
  | unpackw (k : Nat)
  /-- `CLASSIFY` (42_word_classifier.md R156) -/
  | classify
  /-- `RECON t` (44_layout_decoder.md R195) -/
  | recon (t : Tag)
  /-- `COMPRESS` (43_layout_encoder.md R177) -/
  | compress
  /-- `DECOMPRESS` (44_layout_decoder.md R194) -/
  | decompress
deriving DecidableEq, Repr

end Sys2Proof
end

