-- ==== Sys2Proof/WellFormed.lean ====
section
/-!
DEFINITION. Which terms of `Instr` are commands: `K` of `PACKW` and `UNPACKW` lies in 1 to 16 (30_encoding.md R70, R72).
-/

namespace Sys2Proof

/-- `K` is a legal number of bits per value (30_encoding.md R70). -/
def legalK (k : Nat) : Bool := 1 ≤ k && k ≤ 16

/-- The instruction's fields are in the ranges of 30_encoding.md R72. -/
def Instr.wf : Instr → Bool
  | .nop => true
  | .configure => true
  | .dinit => true
  | .dlookup => true
  | .dpromote => true
  | .dsetval => true
  | .packw k => legalK k
  | .unpackw k => legalK k
  | .classify => true
  | .recon _ => true
  | .compress => true
  | .decompress => true

/-- `Instr.wf` as a proposition. -/
abbrev Instr.WellFormed (i : Instr) : Prop := i.wf = true

end Sys2Proof
end

