-- ==== Sys2Proof/Decode.lean ====
section
/-!
DEFINITION. The command word `CMD32` (30_encoding.md R70 to R74): its fields, the total decoder in the order of R72, and
the encoder. A command word is 32 bits written to `CMD`; no memory is fetched from (20_memory.md R61).
-/

namespace Sys2Proof

/-- The numeric code of a tag (30_encoding.md R74). -/
def tagCode : Tag → Nat
  | .ZERO => 0
  | .EXACT => 1
  | .PARTIAL => 2
  | .MISS => 3

/-- The tag of a 2-bit code; every code is a tag (30_encoding.md R74). -/
def tagOfCode (n : Nat) : Tag :=
  match n % 4 with
  | 0 => .ZERO
  | 1 => .EXACT
  | 2 => .PARTIAL
  | _ => .MISS

/-- Why a word is no command: the failing test of 30_encoding.md R72. Each ends the command with `BadCommand`. -/
inductive DecodeError where
  /-- a reserved bit, 31:18 or 15:13, is not 0 -/
  | reservedBits
  /-- `OPC` is none of the twelve -/
  | unknownOpc
  /-- `PACKW` or `UNPACKW` with `K` = 0 or `K` > 16 -/
  | badK
  /-- `K` not 0 in another command -/
  | strayK
  /-- `TAG` not 0 outside `RECON` -/
  | strayTag
deriving DecidableEq, Repr

/-- The operation codes of 30_encoding.md R71. -/
inductive Opc where
  | nop
  | configure
  | dinit
  | dlookup
  | dpromote
  | dsetval
  | packw
  | unpackw
  | classify
  | recon
  | compress
  | decompress
deriving DecidableEq, Repr

/-- The number of an operation code (30_encoding.md R71). -/
def opcCode : Opc → BitVec 8
  | .nop => 0x00
  | .configure => 0x01
  | .dinit => 0x02
  | .dlookup => 0x10
  | .dpromote => 0x11
  | .dsetval => 0x12
  | .packw => 0x20
  | .unpackw => 0x21
  | .classify => 0x30
  | .recon => 0x31
  | .compress => 0x40
  | .decompress => 0x41

/-- The twelve rows of 30_encoding.md R71, read from number to operation; every other number is reserved (R73). -/
def opcOf (n : Nat) : Option Opc :=
  if n = 0x00 then some .nop
  else if n = 0x01 then some .configure
  else if n = 0x02 then some .dinit
  else if n = 0x10 then some .dlookup
  else if n = 0x11 then some .dpromote
  else if n = 0x12 then some .dsetval
  else if n = 0x20 then some .packw
  else if n = 0x21 then some .unpackw
  else if n = 0x30 then some .classify
  else if n = 0x31 then some .recon
  else if n = 0x40 then some .compress
  else if n = 0x41 then some .decompress
  else none

/-- Bits `lo + len - 1` down to `lo` of a command word, as a natural (00_scope.md R13). -/
def cmdField (c : BitVec 32) (lo len : Nat) : Nat := c.toNat / 2 ^ lo % 2 ^ len

/-- The command named by an operation code with its two fields; the other commands carry neither. -/
def instrOf (o : Opc) (k tag : Nat) : Instr :=
  match o with
  | .nop => .nop
  | .configure => .configure
  | .dinit => .dinit
  | .dlookup => .dlookup
  | .dpromote => .dpromote
  | .dsetval => .dsetval
  | .packw => .packw k
  | .unpackw => .unpackw k
  | .classify => .classify
  | .recon => .recon (tagOfCode tag)
  | .compress => .compress
  | .decompress => .decompress

/-- The test of 30_encoding.md R72 on the field `K`, by operation. -/
def checkK (o : Opc) (k : Nat) : Option DecodeError :=
  if o = .packw ∨ o = .unpackw then
    if legalK k then none else some .badK
  else if k ≠ 0 then some .strayK else none

/-- The test of 30_encoding.md R72 on the field `TAG`, by operation. -/
def checkTag (o : Opc) (tag : Nat) : Option DecodeError :=
  if o ≠ .recon ∧ tag ≠ 0 then some .strayTag else none

/-- Decoding a command word, total, the tests in the order of 30_encoding.md R72. -/
def decode (c : BitVec 32) : Except DecodeError Instr :=
  if cmdField c 18 14 ≠ 0 ∨ cmdField c 13 3 ≠ 0 then .error .reservedBits
  else
    match opcOf (cmdField c 0 8) with
    | none => .error .unknownOpc
    | some o =>
      match checkK o (cmdField c 8 5) with
      | some e => .error e
      | none =>
        match checkTag o (cmdField c 16 2) with
        | some e => .error e
        | none => .ok (instrOf o (cmdField c 8 5) (cmdField c 16 2))

/-- The format `CMD32` of 30_encoding.md R70: reserved, `TAG`, reserved, `K`, `OPC`, most significant first. -/
def cmd32 (o : Opc) (k : BitVec 5) (tag : BitVec 2) : BitVec 32 :=
  0#14 ++ tag ++ 0#3 ++ k ++ opcCode o

/-- The command word of an instruction (30_encoding.md R70, R71, R89). -/
def encode : Instr → BitVec 32
  | .nop => cmd32 .nop 0 0
  | .configure => cmd32 .configure 0 0
  | .dinit => cmd32 .dinit 0 0
  | .dlookup => cmd32 .dlookup 0 0
  | .dpromote => cmd32 .dpromote 0 0
  | .dsetval => cmd32 .dsetval 0 0
  | .packw k => cmd32 .packw (BitVec.ofNat 5 k) 0
  | .unpackw k => cmd32 .unpackw (BitVec.ofNat 5 k) 0
  | .classify => cmd32 .classify 0 0
  | .recon t => cmd32 .recon 0 (BitVec.ofNat 2 (tagCode t))
  | .compress => cmd32 .compress 0 0
  | .decompress => cmd32 .decompress 0 0

/-- What the decoder reads from a table word of `nbits` bits, the bits above `nbits` being 0. A word of `PACKW` or
`UNPACKW` with `K` = 0 is illegal (R72), so none (DEDUCED, log 20). -/
def decodeTableWord (nbits w : Nat) : Option Instr :=
  match decode (BitVec.ofNat 32 (w % 2 ^ nbits)) with
  | .ok i => some i
  | .error _ => none

end Sys2Proof
end

