-- ==== Sys2Proof/Config.lean ====
section
/-!
DEFINITION. The configuration record of a codec instance, the parameters fixed when the hardware is built, and the
values the spec leaves open: opaque constants without a body, so that no proof can see what they are.
-/

namespace Sys2Proof

/-- `W`, the word width (00_scope.md R9: 32 or 64). -/
inductive Width where
  | w32
  | w64
deriving DecidableEq, Repr

/-- The number of bits of a Word. -/
def Width.bits : Width → Nat
  | .w32 => 32
  | .w64 => 64

/-- `ORG`, the dictionary organization (00_scope.md R9, 10_state.md R21). -/
inductive Org where
  /-- direct-mapped (41_dictionary.md R129) -/
  | dm
  /-- fully-associative, linear-scan (R130) -/
  | fal
  /-- fully-associative, hashed (R131) -/
  | fah
  /-- set-associative (R132) -/
  | sa
deriving DecidableEq, Repr

/-- `cfg`, the record `(W, L, ORG, S, M, STRIDE, N)` of one codec instance (00_scope.md R9, 10_state.md R22). -/
structure Cfg where
  /-- word width -/
  W : Width
  /-- number of low bits, 4 to 16 -/
  L : Nat
  /-- dictionary organization -/
  org : Org
  /-- entries per set -/
  S : Nat
  /-- number of sets -/
  M : Nat
  /-- interleaving factor of the stride order -/
  stride : Nat
  /-- words per page -/
  N : Nat
deriving DecidableEq, Repr

/-- The parameters of 00_scope.md R11: fixed when the hardware is built, arguments of the model and not state
(10_state.md R40). -/
structure Params where
  /-- `MAX_PAGE_WORDS`, capacity of the page buffer and of each stream -/
  maxPageWords : Nat
  /-- `MAX_CBUF_WORDS`, capacity of the compressed buffer -/
  maxCbufWords : Nat
  /-- `hash`, from the high bits of a word to a set number; it may depend on `cfg` (41_dictionary.md R122) -/
  hash : Cfg → Nat → Nat
  /-- `NUM_ENGINES`, the number of independent copies of the block -/
  numEngines : Nat

/-- The constraints of 00_scope.md R11 on the build parameters. -/
structure Params.Legal (p : Params) : Prop where
  pageLow : 6 ≤ p.maxPageWords
  pageHigh : p.maxPageWords ≤ 32768
  cbufLow : p.maxPageWords + ceilDiv p.maxPageWords 16 + 5 ≤ p.maxCbufWords
  cbufHigh : p.maxCbufWords ≤ 65536
  hashInRange : ∀ c h, 0 < c.M → p.hash c h < c.M
  engines : 1 ≤ p.numEngines

/-- Names one family of free values: which engine, how many resets it has had, how many free dictionaries it has drawn.
The model's own, not the spec's (DESIGN CHOICE, log 16). -/
structure FreeKey where
  engine : Nat
  epoch : Nat
  draw : Nat
deriving DecidableEq, Repr

/-- What cell `i` of `PAGE` holds in an engine after its reset number `epoch`, until something writes it: any value
(10_state.md R43, 93_implementation_defined.md U6; DESIGN CHOICE, log 5). Arguments: engine, epoch, `i`. -/
opaque Config.powerOnPage : Nat → Nat → Nat → Word

/-- The same for cell `i` of `CBUF` (DESIGN CHOICE, log 5). -/
opaque Config.powerOnCbuf : Nat → Nat → Nat → Word

/-- What entry `e` of `VAL` holds after a macro command: any value (10_state.md R33, U4; DESIGN CHOICE, log 4). -/
opaque Config.freeVal : FreeKey → Nat → Word

/-- What `REC[s]` holds after a macro command: any value (10_state.md R33, U4; DESIGN CHOICE, log 4). -/
opaque Config.freeRecency : FreeKey → Nat → List Nat

end Sys2Proof
end

