-- ==== Sys2Proof/Machine/State.lean ====
section
/-!
DEFINITION. The state of one engine (10_state.md R20) with the host beside it, as plain data; the reasons a step can
stop; and the state right after reset (10_state.md R43, 70_reset_and_hazards.md R250).
-/

namespace Sys2Proof.Machine

/-- The result codes of `STATUS.RESULT` (10_state.md R23, 60_exceptions.md R226). -/
inductive ResultCode where
  /-- code 0 -/
  | ok
  /-- code 1, raised by `CONFIGURE` only (R227) -/
  | invalidConfiguration
  /-- code 2, raised by `COMPRESS` and `DECOMPRESS` (R228) -/
  | bufferTooSmall
  /-- code 3, raised by `DECOMPRESS` only (R230) -/
  | malformedInput
  /-- code 4, misuse of the command interface (R232) -/
  | badCommand
deriving DecidableEq, Repr

/-- The fields of `STATUS` (10_state.md R23); reserved bits have no storage and read 0. -/
structure Status where
  /-- bit 0: `cfg` holds a validated configuration -/
  cfgValid : Bool
  /-- bit 1: `VAL` and `REC` hold a usable dictionary (R33) -/
  dictValid : Bool
  /-- bit 2: a command runs; 0 between commands -/
  busy : Bool
  /-- bits 7:4: result code of the last command -/
  result : ResultCode
deriving DecidableEq, Repr

/-- The seven staging registers, 32 bits each, any value (10_state.md R21). -/
structure Staging where
  /-- `CFG_WORD_WIDTH` -/
  wordWidth : BitVec 32
  /-- `CFG_LOW_BITS` -/
  lowBits : BitVec 32
  /-- `CFG_ORG` -/
  org : BitVec 32
  /-- `CFG_SET_SIZE` -/
  setSize : BitVec 32
  /-- `CFG_NUM_SETS` -/
  numSets : BitVec 32
  /-- `CFG_STRIDE` -/
  stride : BitVec 32
  /-- `CFG_PAGE_WORDS` -/
  pageWords : BitVec 32
deriving DecidableEq, Repr

/-- The dictionary: `VAL`, one Word per entry (10_state.md R29), and `REC`, the ways of each set, most recently used
first (R30). -/
structure Dict where
  val : List Word
  recency : List (List Nat)
deriving DecidableEq, Repr

/-- A word-addressed buffer: the cells written since reset, as (word index, 64-bit cell) pairs (10_state.md R34, R35,
R41). The smallest addressable unit is one cell (20_memory.md R51; DEDUCED, log 6). -/
abbrev Mem := List (Nat × Word)

/-- The canonical form of a buffer: indices strictly rising. A listed cell has been written; an unlisted one has no
entry to compare with, so no entry is redundant (DESIGN CHOICE, log 5). -/
abbrev Mem.wf (m : Mem) : Prop := m.Pairwise (fun x y => x.1 < y.1)

/-- What exists only inside a macro command (10_state.md R36, R37): the four streams and the sequencer position. While
`COMPRESS` runs the streams grow; while `DECOMPRESS` runs `idx`, `low` and `full` hold the items still to be read. -/
structure MacroRun where
  /-- `SEQ`: page words already processed -/
  seq : Nat
  /-- `TAGS`, by page position; `none` is an undefined slot -/
  tags : List (Option Tag)
  /-- `IDX`, entry references, processing order -/
  idx : List Nat
  /-- `LOW`, low parts, processing order -/
  low : List Nat
  /-- `FULL`, full words, processing order -/
  full : List Word
deriving DecidableEq, Repr

/-- One move of the host between commands (45_system.md R213, 20_memory.md R60, 70_reset_and_hazards.md R250). -/
inductive HostAction where
  /-- `WR reg, v`: write `value` to the register at `index`; a write to `CMD` executes a command -/
  | wr (index value : Nat)
  /-- `RD reg`: read the register at `index` -/
  | rd (index : Nat)
  /-- the one reset, applied from outside -/
  | rst
deriving DecidableEq, Repr

/-- The host beside the block (00_scope.md R12); the model's own (DESIGN CHOICE, log 1). -/
structure HostSide where
  /-- the moves still to come, the next one first -/
  pending : List HostAction
  /-- the values read so far, oldest first -/
  reads : List Word
deriving DecidableEq, Repr

/-- Everything the block holds (10_state.md R20), the host beside it, and the counters that select free values. -/
structure State where
  /-- `STATUS` -/
  status : Status
  /-- the active configuration (R22) -/
  cfg : Cfg
  /-- `CFG_*` (R21) -/
  stage : Staging
  /-- `ARG0` (R25) -/
  arg0 : BitVec 64
  /-- `ARG1` (R25) -/
  arg1 : BitVec 32
  /-- `RES0` (R26) -/
  res0 : BitVec 64
  /-- `RES1` (R26) -/
  res1 : BitVec 32
  /-- `RES_TAG` (R26) -/
  resTag : BitVec 32
  /-- `CBUF_LEN` (R27) -/
  cbufLen : BitVec 32
  /-- `LANE[0..63]` (R28) -/
  lanes : Vector (BitVec 16) 64
  /-- `VAL` and `REC` (R29, R30) -/
  dict : Dict
  /-- `PAGE` (R34) -/
  page : Mem
  /-- `CBUF` (R35) -/
  cbuf : Mem
  /-- streams and `SEQ` of a macro command in progress (R36, R37); `none` between commands (DEDUCED, log 7) -/
  macroRun : Option MacroRun
  /-- the host and its pending moves (R12) -/
  host : HostSide
  /-- which free values Config's opaque constants give; the model's own (DESIGN CHOICE, log 16) -/
  free : FreeKey
deriving DecidableEq, Repr

/-- Reasons a step stops inside the engine. The spec has none ("no stuck state and no hang", 00_scope.md R17); both are
unreachable from a state with a legal configuration, and both are safe. -/
inductive Fault where
  /-- Raised by `COMPRESS` and `DECOMPRESS` if a slot of `TAGS` or of the output page were read before it was written;
  42_word_classifier.md R158 says every slot is written exactly once. Safe. -/
  | undefinedSlot
  /-- Raised by `DECOMPRESS` if the replay ran out of stream items; 44_layout_decoder.md R191 says it never does. Safe. -/
  | streamUnderrun
deriving DecidableEq, Repr

/-- Reasons the model gives a step no meaning. -/
inductive Refusal where
  /-- Raised by an arm of `exec` whose instruction has no meaning yet; no arm does. Safe. -/
  | notModelled (mnemonic : String)
  /-- Raised by `step` when the host would act while a command runs (70_reset_and_hazards.md R255, U8, U18): "What the
  hardware would return is not specified". A command is atomic, so no run reaches it. Safe. -/
  | hostAccessDuringCommand
  /-- Raised by `COMPRESS` if it called `pack` outside its domain (40_bit_packer.md R109, U1: `refuse`);
  43_layout_encoder.md R172 says it never does. Safe. -/
  | packOutsideDomain
deriving DecidableEq, Repr

/-- The outcome of a command or a step. -/
abbrev Result := Host.Outcome State Fault Refusal

/-- The machine right after reset (10_state.md R43, 70_reset_and_hazards.md R250). The spec gives no value to `cfg`,
`VAL` and `REC`, which nothing can observe until `CONFIGURE` writes them; these are a DESIGN CHOICE, log 3. -/
def State.reset : State where
  status := { cfgValid := false, dictValid := false, busy := false, result := .ok }
  cfg := { W := .w64, L := 10, org := .dm, S := 1, M := 16, stride := 1, N := 512 }
  stage :=
    { wordWidth := 64, lowBits := 10, org := 0, setSize := 1, numSets := 16, stride := 1, pageWords := 512 }
  arg0 := 0
  arg1 := 0
  res0 := 0
  res1 := 0
  resTag := 0
  cbufLen := 0
  lanes := Vector.replicate 64 0
  dict := { val := List.replicate 16 1, recency := List.replicate 16 [0] }
  page := []
  cbuf := []
  macroRun := none
  host := { pending := [], reads := [] }
  free := { engine := 0, epoch := 0, draw := 0 }

end Sys2Proof.Machine
end

