-- ==== Sys2Proof/Machine/Ops.lean ====
section
/-!
DEFINITION. The named operations over the state: one update per field, the two buffers, the one way a command ends
(60_exceptions.md R231), the discarded dictionary of a macro command, and the default build.
-/

namespace Sys2Proof.Machine

/-! ### One update per field -/

def State.setStatus (s : State) (v : Status) : State := { s with status := v }
def State.setCfg (s : State) (v : Cfg) : State := { s with cfg := v }
def State.setStage (s : State) (v : Staging) : State := { s with stage := v }
def State.setArg0 (s : State) (v : BitVec 64) : State := { s with arg0 := v }
def State.setArg1 (s : State) (v : BitVec 32) : State := { s with arg1 := v }
def State.setRes0 (s : State) (v : BitVec 64) : State := { s with res0 := v }
def State.setRes1 (s : State) (v : BitVec 32) : State := { s with res1 := v }
def State.setResTag (s : State) (v : BitVec 32) : State := { s with resTag := v }
def State.setCbufLen (s : State) (v : BitVec 32) : State := { s with cbufLen := v }
def State.setLanes (s : State) (v : Vector (BitVec 16) 64) : State := { s with lanes := v }
def State.setDict (s : State) (v : Dict) : State := { s with dict := v }
def State.setPage (s : State) (v : Mem) : State := { s with page := v }
def State.setCbuf (s : State) (v : Mem) : State := { s with cbuf := v }
def State.setMacroRun (s : State) (v : Option MacroRun) : State := { s with macroRun := v }
def State.setHost (s : State) (v : HostSide) : State := { s with host := v }
def State.setFree (s : State) (v : FreeKey) : State := { s with free := v }

/-! ### The default build (00_scope.md R11; DESIGN CHOICE, log 2) -/

/-- The default of the parameter `hash`: `h mod M` (41_dictionary.md R122). -/
def hashDefault (c : Cfg) (h : Nat) : Nat := h % c.M

/-- The build with every parameter at its default (00_scope.md R11). The commands of `exec` run on this build; each is
an instance of an operation that takes any build, and Machine/Builds.lean has the machine of every other build. -/
def build : Params := { maxPageWords := 1024, maxCbufWords := 2048, hash := hashDefault, numEngines := 1 }

/-! ### Buffers -/

/-- The cell listed at index `a`, if it has been written since reset. -/
def memGet : Mem → Nat → Option Word
  | [], _ => none
  | (b, v) :: m, a => if a = b then some v else memGet m a

/-- Write one cell, keeping the indices strictly rising. -/
def memSet : Mem → Nat → Word → Mem
  | [], a, v => [(a, v)]
  | (b, u) :: m, a, v =>
    if a < b then (a, v) :: (b, u) :: m
    else if a = b then (a, v) :: m
    else (b, u) :: memSet m a v

/-- Write consecutive cells from index `a` on. -/
def memSetFrom : Mem → Nat → List Word → Mem
  | m, _, [] => m
  | m, a, v :: vs => memSetFrom (memSet m a v) (a + 1) vs

/-- The 64 bits of cell `PAGE[i]` as the host reads them; a cell not written since reset holds any value
(10_state.md R41, R43; DESIGN CHOICE, log 5). -/
def pageCell (s : State) (i : Nat) : Word :=
  (memGet s.page i).getD (Config.powerOnPage s.free.engine s.free.epoch i)

/-- The 64 bits of cell `CBUF[i]` (10_state.md R41, R43; DESIGN CHOICE, log 5). -/
def cbufCell (s : State) (i : Nat) : Word :=
  (memGet s.cbuf i).getD (Config.powerOnCbuf s.free.engine s.free.epoch i)

/-! ### How a command ends -/

/-- The end of every command: `STATUS.RESULT` takes the code, `BUSY` drops, nothing else changes (60_exceptions.md R231,
10_state.md R23). With a code other than `ok` this is the whole of what an error does. -/
def endWith (code : ResultCode) (s : State) : State :=
  s.setStatus { s.status with busy := false, result := code }

/-- End with an error (60_exceptions.md R231): no handler, nothing saved, the host finds the code in `STATUS`. -/
def raiseError (code : ResultCode) (s : State) : Result := .next (endWith code s)

/-- End with `OK` after the state changes the command's rule lists (00_scope.md R17). -/
def finishOk (s : State) : Result := .next (endWith .ok s)

/-- Set or clear `STATUS.CFG_VALID`. -/
def setCfgValid (b : Bool) (s : State) : State := s.setStatus { s.status with cfgValid := b }

/-- Set or clear `STATUS.DICT_VALID`. -/
def setDictValid (b : Bool) (s : State) : State := s.setStatus { s.status with dictValid := b }

/-! ### The dictionary a macro command leaves -/

/-- `VAL` and `REC` with contents nobody specified: `CAP` words and `M` lists of free values (10_state.md R33, U4). -/
def freeDict (key : FreeKey) (c : Cfg) : Dict where
  val := (List.range (c.S * c.M)).map (Config.freeVal key)
  recency := (List.range c.M).map (Config.freeRecency key)

/-- The end of a macro command's transient state: the call's dictionary is discarded, so `VAL` and `REC` hold free
values and `DICT_VALID` is 0; the streams and `SEQ` no longer exist (10_state.md R33, R36, R37; DESIGN CHOICE, log 4). -/
def discardRun (s : State) : State :=
  ((setDictValid false (s.setDict (freeDict s.free s.cfg))).setMacroRun none).setFree
    { s.free with draw := s.free.draw + 1 }

end Sys2Proof.Machine
end

