-- ==== Sys2Proof/Machine/Operands.lean ====
section
/-!
DEFINITION. The quantities derived from `cfg` (00_scope.md R10), the fields of a word and of an entry reference
(30_encoding.md R75, R76), and the operand forms of the commands (10_state.md R25, R28; decision D26).
-/

namespace Sys2Proof.Machine

/-- `CAP = S * M`, the number of entries (00_scope.md R10). -/
def cap (c : Cfg) : Nat := c.S * c.M

/-- `IB = log2(CAP)`, the number of index bits (00_scope.md R10). -/
def indexBits (c : Cfg) : Nat := (cap c).log2

/-- `WB = W / 8`, bytes per word (00_scope.md R10). -/
def wordBytes (c : Cfg) : Nat := c.W.bits / 8

/-- `reps(k) = floor(W / k)`, values per packed word (40_bit_packer.md R100). -/
def reps (c : Cfg) (k : Nat) : Nat := c.W.bits / k

/-- `T(n) = ceil(2n / W)`, words of the tags area (00_scope.md R10). -/
def tagWords (c : Cfg) (n : Nat) : Nat := ceilDiv (2 * n) c.W.bits

/-- `v[n-1:0]`, zero-extended (00_scope.md R13). -/
def lowPart (n : Nat) (v : Word) : Word := (v.setWidth n).setWidth 64

/-- `v[W-1:0]`: what an engine read takes of a cell and what an engine write stores in one (10_state.md R41). -/
def truncW (c : Cfg) (v : Word) : Word := lowPart c.W.bits v

/-- `hb(w) = w >> L`, the high bits of a `W`-bit word (30_encoding.md R75). -/
def hb (c : Cfg) (w : Word) : Word := w >>> c.L

/-- `lb(w) = w & LMASK`, the low bits (30_encoding.md R75). -/
def lb (c : Cfg) (w : Word) : Word := w &&& BitVec.ofNat 64 (2 ^ c.L - 1)

/-- `(h << L) | l`, a word from its parts (30_encoding.md R75). -/
def joinParts (c : Cfg) (h l : Word) : Word := (h <<< c.L) ||| l

/-- `set(e) = floor(e / S)` (30_encoding.md R76). -/
def setOfEntry (c : Cfg) (e : Nat) : Nat := e / c.S

/-- `way(e) = e mod S` (30_encoding.md R76). -/
def wayOfEntry (c : Cfg) (e : Nat) : Nat := e % c.S

/-- The slot `e = s * S + y` of way `y` of set `s` (10_state.md R31). -/
def entryOf (c : Cfg) (s y : Nat) : Nat := s * c.S + y

/-- The Word operand `ARG0[W-1:0]` (10_state.md R25). -/
def argWord (s : State) : Word := truncW s.cfg s.arg0

/-- The entry reference in `ARG1` (10_state.md R25). -/
def argEntry (s : State) : Nat := s.arg1.toNat

/-- `LANE[j]` for `j` below 64; no command names another lane (10_state.md R28). -/
def lane (s : State) (j : Nat) : BitVec 16 := if h : j < 64 then s.lanes[j] else 0

/-- `MemRead(PAGE, i)`: one whole `W`-bit word (00_scope.md R16, 10_state.md R41). -/
def pageRead (s : State) (i : Nat) : Word := truncW s.cfg (pageCell s i)

/-- `MemRead(CBUF, i)` (00_scope.md R16, 10_state.md R41). -/
def cbufRead (s : State) (i : Nat) : Word := truncW s.cfg (cbufCell s i)

/-- `MemWrite(PAGE, i, vs[i])` for every `i` below the length of `vs`, each zero-extended from `W` bits. -/
def pageStore (s : State) (vs : List Word) : State :=
  s.setPage (memSetFrom s.page 0 (vs.map (truncW s.cfg)))

/-- `MemWrite(CBUF, i, vs[i])` for every `i` below the length of `vs`, each zero-extended from `W` bits. -/
def cbufStore (s : State) (vs : List Word) : State :=
  s.setCbuf (memSetFrom s.cbuf 0 (vs.map (truncW s.cfg)))

end Sys2Proof.Machine
end

