-- ==== Sys2Proof/Machine/Flags.lean ====
section
/-!
DEFINITION. The block has no arithmetic flags; its status bits are those of `STATUS` and the nearest thing to a condition
code is `RES_TAG` (10_state.md R38). Here: the 32-bit view of `STATUS`, the code of a result, the value of `RES_TAG`, and
the tests a command makes on status bits and operands before anything else (60_exceptions.md R229, steps 2 to 4).
-/

namespace Sys2Proof.Machine

/-- The number of a result code (60_exceptions.md R226). -/
def resultCode : ResultCode → BitVec 4
  | .ok => 0
  | .invalidConfiguration => 1
  | .bufferTooSmall => 2
  | .malformedInput => 3
  | .badCommand => 4

/-- `STATUS` as the host reads it: reserved, `RESULT`, reserved, `BUSY`, `DICT_VALID`, `CFG_VALID` (10_state.md R23). -/
def statusWord (st : Status) : BitVec 32 :=
  0#24 ++ resultCode st.result ++ 0#1 ++ BitVec.ofBool st.busy ++ BitVec.ofBool st.dictValid ++ BitVec.ofBool st.cfgValid

/-- The value `CLASSIFY` gives `RES_TAG`: the code in bits 1:0, the rest 0 (10_state.md R26, 30_encoding.md R74). -/
def tagWord (t : Tag) : BitVec 32 := BitVec.ofNat 32 (tagCode t)

/-- Step 2 of 60_exceptions.md R229: `BadCommand` unless `CFG_VALID` = 1. -/
def needCfg (s : State) (k : Result) : Result :=
  if s.status.cfgValid then k else raiseError .badCommand s

/-- Steps 2 and 3 of 60_exceptions.md R229: `BadCommand` unless `CFG_VALID` = 1 and `DICT_VALID` = 1. -/
def needDict (s : State) (k : Result) : Result :=
  needCfg s (if s.status.dictValid then k else raiseError .badCommand s)

/-- Step 4 of 60_exceptions.md R229: `BadCommand` unless `ARG1 < CAP`. -/
def needEntry (s : State) (k : Result) : Result :=
  if argEntry s < cap s.cfg then k else raiseError .badCommand s

/-- Step 4 of 60_exceptions.md R229: `BadCommand` unless `CBUF_LEN <= MAX_CBUF_WORDS`. -/
def needCbufLen (p : Params) (s : State) (k : Result) : Result :=
  if s.cbufLen.toNat ≤ p.maxCbufWords then k else raiseError .badCommand s

end Sys2Proof.Machine
end

