-- ==== Sys2Proof/Machine/Packer.lean ====
section
/-!
DEFINITION. The bit packer/unpacker, BPU (40_bit_packer.md): packed words, the sequence functions `pack`, `unpack`, `pad`,
and the commands `PACKW` and `UNPACKW`.
-/

namespace Sys2Proof.Machine

/-- Lane `j` of the list at bits `j*k` and up, by shift and OR (40_bit_packer.md R101, 30_encoding.md R77). -/
def packLanes (k : Nat) : List Nat → Nat
  | [] => 0
  | v :: vs => v ||| (packLanes k vs <<< k)

/-- `pack_word(k, g)`, for `g` of `reps(k)` values below `2^k` (40_bit_packer.md R101). -/
def packWord (k : Nat) (g : List Nat) : Word := BitVec.ofNat 64 (packLanes k g)

/-- Element `j` of `unpack_word(k, x)`: shift and mask (40_bit_packer.md R102). -/
def unpackLane (k : Nat) (x : Word) (j : Nat) : Nat := (x.toNat >>> (j * k)) &&& (2 ^ k - 1)

/-- `unpack_word(k, x)`: `reps(k)` values in the order they were packed (40_bit_packer.md R102). -/
def unpackWord (c : Cfg) (k : Nat) (x : Word) : List Nat := (List.range (reps c k)).map (unpackLane k x)

/-- The domain of `pack`: a whole number of groups, every value in `k` bits (40_bit_packer.md R103, R109). -/
def packDomain (c : Cfg) (k : Nat) (v : List Nat) : Bool :=
  v.length % reps c k == 0 && v.all (· < 2 ^ k)

/-- `pack(k, v)`, a partial function: outside its domain it has no value (40_bit_packer.md R103, R109, U1). -/
def pack (c : Cfg) (k : Nat) (v : List Nat) : Option (List Word) :=
  if packDomain c k v then
    some ((List.range (v.length / reps c k)).map fun r => packWord k ((v.drop (r * reps c k)).take (reps c k)))
  else none

/-- `unpack(k, xs)`, total (40_bit_packer.md R104). -/
def unpack (c : Cfg) (k : Nat) (xs : List Word) : List Nat := xs.flatMap (unpackWord c k)

/-- `pad(k, v)`: the fewest zeros that make the length a multiple of `reps(k)` (40_bit_packer.md R105). -/
def pad (c : Cfg) (k : Nat) (v : List Nat) : List Nat :=
  v ++ List.replicate ((reps c k - v.length % reps c k) % reps c k) 0

/-- The group `PACKW` packs: each lane truncated to `k` bits (40_bit_packer.md R107, decision D26). -/
def laneGroup (s : State) (k : Nat) : List Nat :=
  (List.range (reps s.cfg k)).map fun j => (lane s j).toNat % 2 ^ k

/-- The lanes after `UNPACKW`: the first `reps(k)` rewritten, the others kept (40_bit_packer.md R108). -/
def lanesUnpacked (s : State) (k : Nat) : Vector (BitVec 16) 64 :=
  Vector.ofFn fun j =>
    if j.val < reps s.cfg k then BitVec.ofNat 16 (unpackLane k (argWord s) j.val) else s.lanes[j]

/-- `PACKW k` (40_bit_packer.md R107). A `K` outside 1 to 16 is `BadCommand` here as it is in the decoder (DEDUCED,
log 14). -/
def execPackw (k : Nat) (s : State) : Result :=
  if legalK k then needCfg s (finishOk (s.setRes0 (packWord k (laneGroup s k)))) else raiseError .badCommand s

/-- `UNPACKW k` (40_bit_packer.md R108). A `K` outside 1 to 16 is `BadCommand` here as it is in the decoder (DEDUCED,
log 14). -/
def execUnpackw (k : Nat) (s : State) : Result :=
  if legalK k then needCfg s (finishOk (s.setLanes (lanesUnpacked s k))) else raiseError .badCommand s

end Sys2Proof.Machine
end

