-- ==== Sys2Proof/Machine/Dictionary.lean ====
section
/-!
DEFINITION. The dictionary unit, DLE (41_dictionary.md): the contract `lookup`, `promote`, `set_value` with `victim` and
`fresh`, the same for all four organizations, and the commands `DINIT`, `DLOOKUP`, `DPROMOTE`, `DSETVAL`.
-/

namespace Sys2Proof.Machine

/-- `set_of(w)` (41_dictionary.md R121). -/
def setOf (p : Params) (c : Cfg) (w : Word) : Nat :=
  match c.org with
  | .fal => 0
  | .fah => 0
  | .dm => p.hash c (hb c w).toNat
  | .sa => p.hash c (hb c w).toNat

/-- `fresh(cfg)`: every value the sentinel 1, way 0 most recent (41_dictionary.md R123). -/
def fresh (c : Cfg) : Dict where
  val := List.replicate (cap c) 1
  recency := List.replicate c.M (List.range c.S)

/-- `VAL[e]`; every reference of a legal state names an entry (DEDUCED, log 12). -/
def valAt (d : Dict) (e : Nat) : Word := d.val.getD e 0

/-- `REC[s]`; every set number of a legal state names a set (DEDUCED, log 12). -/
def recencyOf (d : Dict) (s : Nat) : List Nat := d.recency.getD s []

/-- The slots of set `s`, most recently used first. -/
def slotsOf (c : Cfg) (d : Dict) (s : Nat) : List Nat := (recencyOf d s).map (entryOf c s)

/-- The slot `s * S + REC[s][S-1]`, the least recently used of set `s`. -/
def oldestOf (c : Cfg) (d : Dict) (s : Nat) : Nat := entryOf c s ((recencyOf d s).getLastD 0)

/-- `victim(w)` (41_dictionary.md R125). -/
def victim (p : Params) (c : Cfg) (d : Dict) (w : Word) : Nat := oldestOf c d (setOf p c w)

/-- The first slot, most recently used first, whose value has the high bits `h`. -/
def scan (c : Cfg) (d : Dict) (h : Word) : List Nat → Option Nat
  | [] => none
  | e :: es => if hb c (valAt d e) = h then some e else scan c d h es

/-- The entry `lookup(w)` returns: the first high-bits match of the set, or its least recently used entry
(41_dictionary.md R124). -/
def candidate (p : Params) (c : Cfg) (d : Dict) (w : Word) : Nat :=
  match scan c d (hb c w) (slotsOf c d (setOf p c w)) with
  | some e => e
  | none => victim p c d w

/-- `lookup(w)`: the candidate and its value; reads only (41_dictionary.md R124). -/
def lookup (p : Params) (c : Cfg) (d : Dict) (w : Word) : Nat × Word :=
  (candidate p c d w, valAt d (candidate p c d w))

/-- The way moved to the front, the others in their order. -/
def toFront (y : Nat) (l : List Nat) : List Nat := y :: l.filter (· ≠ y)

/-- `promote(e)` (41_dictionary.md R126). -/
def promote (c : Cfg) (d : Dict) (e : Nat) : Dict :=
  let s := setOfEntry c e
  { d with recency := d.recency.set s (toFront (wayOfEntry c e) (recencyOf d s)) }

/-- `set_value(e, v)`: recency untouched (41_dictionary.md R127). -/
def setValue (d : Dict) (e : Nat) (v : Word) : Dict := { d with val := d.val.set e v }

/-- The hash index of `FAH`: the most recently used entry with high bits `h`, if any. It is a function of `VAL` and
`REC` and no state of its own (41_dictionary.md R138, 10_state.md R39; DEDUCED, log 21). -/
def hashIndex (c : Cfg) (d : Dict) (h : Word) : Option Nat :=
  ((recencyOf d 0).find? fun y => hb c (valAt d (entryOf c 0 y)) = h).map (entryOf c 0)

/-- `lookup` through the hash index, as `FAH` does it (41_dictionary.md R131, R138). -/
def indexedCandidate (p : Params) (c : Cfg) (d : Dict) (w : Word) : Nat :=
  (hashIndex c d (hb c w)).getD (victim p c d w)

/-- `DINIT` (41_dictionary.md R134). -/
def execDinit (s : State) : Result :=
  needCfg s (finishOk (setDictValid true (s.setDict (fresh s.cfg))))

/-- `DLOOKUP` on a build `p` (41_dictionary.md R135). -/
def dlookupOn (p : Params) (s : State) : Result :=
  needDict s
    (let r := lookup p s.cfg s.dict (argWord s)
     finishOk ((s.setRes1 (BitVec.ofNat 32 r.1)).setRes0 r.2))

/-- `DLOOKUP` (41_dictionary.md R135). -/
def execDlookup (s : State) : Result := dlookupOn build s

/-- `DPROMOTE` (41_dictionary.md R136). -/
def execDpromote (s : State) : Result :=
  needDict s (needEntry s (finishOk (s.setDict (promote s.cfg s.dict (argEntry s)))))

/-- `DSETVAL` (41_dictionary.md R137). -/
def execDsetval (s : State) : Result :=
  needDict s (needEntry s (finishOk (s.setDict (setValue s.dict (argEntry s) (argWord s)))))

end Sys2Proof.Machine
end

