-- ==== Sys2Proof/Machine/Classifier.lean ====
section
/-!
DEFINITION. The word classifier, WCL (42_word_classifier.md): the per-word step `classify`, the command `CLASSIFY`, the
stride order and the page loop `model_page`.
-/

namespace Sys2Proof.Machine

/-- What `classify` returns: the tag with the items it emits (42_word_classifier.md R150). -/
inductive Emitted where
  | ZERO
  | EXACT (idx : Nat)
  | PARTIAL (idx low : Nat)
  | MISS (full : Word)
deriving DecidableEq, Repr

/-- The tag of what was emitted. -/
def emittedTag : Emitted → Tag
  | .ZERO => .ZERO
  | .EXACT _ => .EXACT
  | .PARTIAL _ _ => .PARTIAL
  | .MISS _ => .MISS

/-- The entry reference emitted, for the stream `IDX`. -/
def emittedIdx : Emitted → List Nat
  | .ZERO => []
  | .EXACT e => [e]
  | .PARTIAL e _ => [e]
  | .MISS _ => []

/-- The low part emitted, for the stream `LOW`. -/
def emittedLow : Emitted → List Nat
  | .ZERO => []
  | .EXACT _ => []
  | .PARTIAL _ l => [l]
  | .MISS _ => []

/-- The full word emitted, for the stream `FULL`. -/
def emittedFull : Emitted → List Word
  | .ZERO => []
  | .EXACT _ => []
  | .PARTIAL _ _ => []
  | .MISS w => [w]

/-- Overwrite an entry and promote it, as PARTIAL and MISS do (42_word_classifier.md R153, R154). -/
def install (c : Cfg) (d : Dict) (e : Nat) (w : Word) : Dict := promote c (setValue d e w) e

/-- `classify(w)`: the four tests in the order EXACT, ZERO, PARTIAL, MISS against the one candidate of `lookup`
(42_word_classifier.md R150, 90_conflicts.md C3). -/
def classify (p : Params) (c : Cfg) (d : Dict) (w : Word) : Emitted × Dict :=
  let e := (lookup p c d w).1
  let v := (lookup p c d w).2
  if v = w then (.EXACT e, promote c d e)
  else if w = 0 then (.ZERO, d)
  else if hb c v = hb c w then (.PARTIAL e (lb c w).toNat, install c d e w)
  else (.MISS w, install c d e w)

/-- The value `CLASSIFY` leaves in `RES0` (42_word_classifier.md R156). -/
def classifyRes0 (c : Cfg) (w : Word) : Tag → Word
  | .ZERO => 0
  | .EXACT => w
  | .PARTIAL => lb c w
  | .MISS => w

/-- `CLASSIFY` on a build `p`; `RES1` is the candidate before any update, for every tag (42_word_classifier.md R156). -/
def classifyOn (p : Params) (s : State) : Result :=
  needDict s
    (let w := argWord s
     let r := classify p s.cfg s.dict w
     let t := emittedTag r.1
     finishOk
       ((((s.setDict r.2).setResTag (tagWord t)).setRes1 (BitVec.ofNat 32 (candidate p s.cfg s.dict w))).setRes0
         (classifyRes0 s.cfg w t)))

/-- `CLASSIFY` (42_word_classifier.md R156). -/
def execClassify (s : State) : Result := classifyOn build s

/-- The page positions of residue class `r`: `r, r + stride, ...` below `n` (42_word_classifier.md R157). -/
def residueClass (n stride r : Nat) : List Nat :=
  (List.range (ceilDiv (n - r) stride)).map fun j => r + j * stride

/-- `order(n, stride)` (42_word_classifier.md R157). Residue classes from `n` up hold no position and are not visited
(DEDUCED, log 13). -/
def order (n stride : Nat) : List Nat := (List.range (min stride n)).flatMap (residueClass n stride)

/-- The streams at the start of a macro command: `TAGS` as `n` undefined slots, the others empty, `SEQ` 0
(10_state.md R36, R37). -/
def emptyRun (n : Nat) : MacroRun where
  seq := 0
  tags := List.replicate n none
  idx := []
  low := []
  full := []

/-- The dictionary and the streams a page loop carries. -/
structure ModelRun where
  dict : Dict
  run : MacroRun
deriving DecidableEq, Repr

/-- One pass of the loop of 42_word_classifier.md R158 at page position `i`. -/
def modelStep (p : Params) (c : Cfg) (page : List Word) (i : Nat) (m : ModelRun) : ModelRun :=
  let r := classify p c m.dict (page.getD i 0)
  { dict := r.2
    run :=
      { seq := m.run.seq + 1
        tags := m.run.tags.set i (some (emittedTag r.1))
        idx := m.run.idx ++ emittedIdx r.1
        low := m.run.low ++ emittedLow r.1
        full := m.run.full ++ emittedFull r.1 } }

/-- `while SEQ < n`, one word after another in the order `ord` (42_word_classifier.md R158, R159); the first argument
bounds the passes (00_scope.md R18). -/
def modelLoop (p : Params) (c : Cfg) (page : List Word) (ord : List Nat) : Nat → ModelRun → ModelRun
  | 0, m => m
  | fuel + 1, m =>
    match ord[m.run.seq]? with
    | none => m
    | some i => modelLoop p c page ord fuel (modelStep p c page i m)

/-- `model_page(P)` on its own fresh dictionary (42_word_classifier.md R158, 10_state.md R33). -/
def modelPage (p : Params) (c : Cfg) (page : List Word) : ModelRun :=
  modelLoop p c page (order page.length c.stride) page.length
    { dict := fresh c, run := emptyRun page.length }

end Sys2Proof.Machine
end

