-- ==== Sys2Proof/Machine/Encoder.lean ====
section
/-!
DEFINITION. The encoding half of the layout engine, CBL (43_layout_encoder.md): the layout function `encode`, the worst
case `WC`, and the command `COMPRESS`.
-/

namespace Sys2Proof.Machine

/-- The slots of a stream or page when every one has been written; otherwise none (42_word_classifier.md R158). -/
def definedSlots {α : Type} : List (Option α) → Option (List α)
  | [] => some []
  | none :: _ => none
  | some a :: l => (definedSlots l).map (a :: ·)

/-- A packed area: padded, then packed (43_layout_encoder.md R170). -/
def packedArea (c : Cfg) (k : Nat) (v : List Nat) : Option (List Word) := pack c k (pad c k v)

/-- The buffer from its areas: header, tags, full words, indices, low bits (43_layout_encoder.md R170). -/
def assembleBuffer (n : Nat) (ta fa ia la : List Word) : List Word :=
  let h1 := 4 + ta.length + fa.length
  let h2 := h1 + ia.length
  let h3 := h2 + la.length
  [BitVec.ofNat 64 n, BitVec.ofNat 64 h1, BitVec.ofNat 64 h2, BitVec.ofNat 64 h3] ++ ta ++ fa ++ ia ++ la

/-- `encode(n, TAGS, IDX, LOW, FULL)` (43_layout_encoder.md R170); none only outside the domain of `pack`. -/
def encodeBuffer (c : Cfg) (n : Nat) (tags : List Tag) (idx low : List Nat) (full : List Word) : Option (List Word) :=
  match packedArea c 2 (tags.map tagCode), packedArea c (indexBits c) idx, packedArea c c.L low with
  | some ta, some ia, some la => some (assembleBuffer n ta full ia la)
  | _, _, _ => none

/-- `WC(n) = n + ceil(2n / W) + 5`, the worst-case size in words (43_layout_encoder.md R174). -/
def worstCase (c : Cfg) (n : Nat) : Nat := n + tagWords c n + 5

/-- `PAGE[0 .. N-1]` as `COMPRESS` reads it (43_layout_encoder.md R177). -/
def pageWordsOf (s : State) : List Word := (List.range s.cfg.N).map (pageRead s)

/-- The commit of `COMPRESS`: the buffer, its length, the discarded dictionary (43_layout_encoder.md R177). -/
def commitCompress (s : State) (b : List Word) : State :=
  discardRun ((cbufStore s b).setRes1 (BitVec.ofNat 32 b.length))

/-- `COMPRESS` on a build `p` (43_layout_encoder.md R176, R177): check, model, encode, commit. -/
def compressOn (p : Params) (s : State) : Result :=
  needCfg s
    (needCbufLen p s
      (if s.cbufLen.toNat < worstCase s.cfg s.cfg.N then raiseError .bufferTooSmall s
       else
        let r := (modelPage p s.cfg (pageWordsOf s)).run
        match definedSlots r.tags with
        | none => .fault .undefinedSlot
        | some tags =>
          match encodeBuffer s.cfg s.cfg.N tags r.idx r.low r.full with
          | none => .refused .packOutsideDomain
          | some b => finishOk (commitCompress s b)))

/-- `COMPRESS` (43_layout_encoder.md R177). -/
def execCompress (s : State) : Result := compressOn build s

end Sys2Proof.Machine
end

