-- ==== Sys2Proof/Machine/Decoder.lean ====
section
/-!
DEFINITION. The decoding half of the layout engine, CBL (44_layout_decoder.md): `parse` with its tests V1 to V7, the
reconstruction step `recon`, the replay loop, and the commands `DECOMPRESS` and `RECON`.
-/

namespace Sys2Proof.Machine

/-- What `parse` returns (44_layout_decoder.md R190). -/
structure Parsed where
  n : Nat
  tags : List Tag
  idx : List Nat
  low : List Nat
  full : List Word
deriving DecidableEq, Repr

/-- `B[a .. b)` (00_scope.md R15). -/
def slice (b : List Word) (lo hi : Nat) : List Word := (b.drop lo).take (hi - lo)

/-- Header word `i` as a natural (44_layout_decoder.md R190). -/
def headerField (b : List Word) (i : Nat) : Nat := (b.getD i 0).toNat

/-- The tags of the first `n` lanes of the tags area (44_layout_decoder.md R190, 30_encoding.md R81). -/
def tagsOfArea (c : Cfg) (n : Nat) (area : List Word) : List Tag := ((unpack c 2 area).take n).map tagOfCode

/-- Tests V5 to V7 of 44_layout_decoder.md R190 and the three streams, given the offsets and the tags. -/
def parseAreas (c : Cfg) (b : List Word) (n h1 h2 h3 : Nat) (tags : List Tag) : Except ResultCode Parsed :=
  let areas := 4 + tagWords c n
  let m := tags.count .MISS
  let q := tags.count .EXACT + tags.count .PARTIAL
  let r := tags.count .PARTIAL
  if h1 - areas ≠ m then .error .malformedInput
  else if h2 - h1 ≠ ceilDiv q (reps c (indexBits c)) then .error .malformedInput
  else if h3 - h2 ≠ ceilDiv r (reps c c.L) then .error .malformedInput
  else
    .ok
      { n := n
        tags := tags
        idx := (unpack c (indexBits c) (slice b h1 h2)).take q
        low := (unpack c c.L (slice b h2 h3)).take r
        full := slice b areas h1 }

/-- `parse(B, len)`: the tests V1 to V7 in order, header words as unbounded naturals (44_layout_decoder.md R190). -/
def parse (p : Params) (c : Cfg) (b : List Word) (len : Nat) : Except ResultCode Parsed :=
  let n := headerField b 0
  let h1 := headerField b 1
  let h2 := headerField b 2
  let h3 := headerField b 3
  let areas := 4 + tagWords c n
  if len < 4 then .error .malformedInput
  else if len < areas then .error .malformedInput
  else if p.maxPageWords < n then .error .bufferTooSmall
  else if ¬ (areas ≤ h1 ∧ h1 ≤ h2 ∧ h2 ≤ h3 ∧ h3 ≤ len) then .error .malformedInput
  else parseAreas c b n h1 h2 h3 (tagsOfArea c n (slice b 4 areas))

/-- The word a `PARTIAL` rebuilds: the entry's high bits with the recorded low bits (44_layout_decoder.md R192). -/
def rebuilt (c : Cfg) (d : Dict) (idx : Nat) (x : Word) : Word := joinParts c (hb c (valAt d idx)) (lb c x)

/-- `recon(tag, idx, d)`: the reconstructed word and the dictionary after it (44_layout_decoder.md R192). -/
def recon (p : Params) (c : Cfg) (d : Dict) (t : Tag) (idx : Nat) (x : Word) : Word × Dict :=
  match t with
  | .ZERO => (0, d)
  | .EXACT => (valAt d idx, promote c d idx)
  | .PARTIAL => (rebuilt c d idx x, install c d idx (rebuilt c d idx x))
  | .MISS => (truncW c x, install c d (victim p c d (truncW c x)) (truncW c x))

/-- The dictionary, the streams still to be read and the page written so far, as the replay loop carries them. -/
structure ReplayRun where
  dict : Dict
  run : MacroRun
  out : List (Option Word)
deriving DecidableEq, Repr

/-- Write the reconstructed word at page position `i` and move on, with the streams left after this step. -/
def replayPut (r : ReplayRun) (i : Nat) (w : Word × Dict) (idx low : List Nat) (full : List Word) : ReplayRun :=
  { dict := w.2
    run := { r.run with seq := r.run.seq + 1, idx := idx, low := low, full := full }
    out := r.out.set i (some w.1) }

/-- One pass of the loop of 44_layout_decoder.md R193 at page position `i`, the next items taken from the streams; none
if a stream has no item left, which R191 excludes. -/
def replayStep (p : Params) (c : Cfg) (i : Nat) (r : ReplayRun) : Option ReplayRun :=
  match (r.run.tags[i]?).join, r.run.idx, r.run.low, r.run.full with
  | some .ZERO, is, ls, fs => some (replayPut r i (recon p c r.dict .ZERO 0 0) is ls fs)
  | some .EXACT, e :: is, ls, fs => some (replayPut r i (recon p c r.dict .EXACT e 0) is ls fs)
  | some .PARTIAL, e :: is, l :: ls, fs =>
    some (replayPut r i (recon p c r.dict .PARTIAL e (BitVec.ofNat 64 l)) is ls fs)
  | some .MISS, is, ls, w :: fs => some (replayPut r i (recon p c r.dict .MISS 0 w) is ls fs)
  | _, _, _, _ => none

/-- `while SEQ < n` in the order `ord` (44_layout_decoder.md R193); the first argument bounds the passes. -/
def replayLoop (p : Params) (c : Cfg) (ord : List Nat) : Nat → ReplayRun → Option ReplayRun
  | 0, r => some r
  | fuel + 1, r =>
    match ord[r.run.seq]? with
    | none => some r
    | some i =>
      match replayStep p c i r with
      | none => none
      | some r' => replayLoop p c ord fuel r'

/-- `replay(n, TAGS, IDX, LOW, FULL)` on its own fresh dictionary (44_layout_decoder.md R193). -/
def replay (p : Params) (c : Cfg) (x : Parsed) : Option ReplayRun :=
  replayLoop p c (order x.n c.stride) x.n
    { dict := fresh c
      run := { seq := 0, tags := x.tags.map some, idx := x.idx, low := x.low, full := x.full }
      out := List.replicate x.n none }

/-- `CBUF[0 .. CBUF_LEN-1]` as `DECOMPRESS` reads it (44_layout_decoder.md R194). -/
def cbufWordsOf (s : State) : List Word := (List.range s.cbufLen.toNat).map (cbufRead s)

/-- The commit of `DECOMPRESS`: the page, its length, the discarded dictionary (44_layout_decoder.md R194). -/
def commitDecompress (s : State) (n : Nat) (out : List Word) : State :=
  discardRun ((pageStore s out).setRes1 (BitVec.ofNat 32 n))

/-- `DECOMPRESS` on a build `p` (44_layout_decoder.md R194). -/
def decompressOn (p : Params) (s : State) : Result :=
  needCfg s
    (needCbufLen p s
      (match parse p s.cfg (cbufWordsOf s) s.cbufLen.toNat with
       | .error code => raiseError code s
       | .ok x =>
        match replay p s.cfg x with
        | none => .fault .streamUnderrun
        | some r =>
          match definedSlots r.out with
          | none => .fault .undefinedSlot
          | some out => finishOk (commitDecompress s x.n out)))

/-- `DECOMPRESS` (44_layout_decoder.md R194). -/
def execDecompress (s : State) : Result := decompressOn build s

/-- The entry `RECON` touches, before the update (44_layout_decoder.md R195). -/
def reconEntry (p : Params) (c : Cfg) (d : Dict) (t : Tag) (idx : Nat) (x : Word) : Nat :=
  match t with
  | .ZERO => 0
  | .EXACT => idx
  | .PARTIAL => idx
  | .MISS => victim p c d (truncW c x)

/-- `RECON t` checks `ARG1` for `EXACT` and `PARTIAL` only (44_layout_decoder.md R195). -/
def needReconEntry (t : Tag) (s : State) (k : Result) : Result :=
  match t with
  | .ZERO => k
  | .EXACT => needEntry s k
  | .PARTIAL => needEntry s k
  | .MISS => k

/-- `RECON t` on a build `p` (44_layout_decoder.md R195). -/
def reconOn (p : Params) (t : Tag) (s : State) : Result :=
  needDict s
    (needReconEntry t s
      (let r := recon p s.cfg s.dict t (argEntry s) s.arg0
       finishOk
         (((s.setDict r.2).setRes1
           (BitVec.ofNat 32 (reconEntry p s.cfg s.dict t (argEntry s) s.arg0))).setRes0 r.1)))

/-- `RECON t` (44_layout_decoder.md R195). -/
def execRecon (t : Tag) (s : State) : Result := reconOn build t s

end Sys2Proof.Machine
end

