-- ==== Sys2Proof/Machine/SystemUnit.lean ====
section
/-!
DEFINITION. The system commands `NOP` and `CONFIGURE` (45_system.md) and the validity tests K1 to K7.
-/

namespace Sys2Proof.Machine

/-- The width a staging value proposes; only 32 and 64 are legal (45_system.md R212, K1). -/
def widthOf (n : Nat) : Option Width :=
  if n = 32 then some .w32 else if n = 64 then some .w64 else none

/-- The organization a staging value proposes; 4 and above are illegal (10_state.md R21, 45_system.md R212, K3). -/
def orgOf (n : Nat) : Option Org :=
  if n = 0 then some .dm
  else if n = 1 then some .fal
  else if n = 2 then some .fah
  else if n = 3 then some .sa
  else none

/-- K4: `S` and `M` powers of two, capacity 2 to 65536 (45_system.md R212). -/
def legalGeometry (s m : Nat) : Bool :=
  isPowerOfTwo s && isPowerOfTwo m && 2 ≤ s * m && s * m ≤ 65536

/-- K5: the geometry fits the organization (45_system.md R212). -/
def geometryFits (o : Org) (s m : Nat) : Bool :=
  match o with
  | .dm => s == 1
  | .fal => m == 1
  | .fah => m == 1
  | .sa => true

/-- Tests K2 and K4 to K7 of 45_system.md R212 on a record; K1 and K3 hold of every record. -/
def cfgLegal (p : Params) (c : Cfg) : Bool :=
  4 ≤ c.L && c.L ≤ 16 && legalGeometry c.S c.M && geometryFits c.org c.S c.M && 1 ≤ c.stride &&
    1 ≤ c.N && c.N ≤ p.maxPageWords

/-- `valid(CFG_*)`: the configuration the staging registers propose, if it passes K1 to K7 (45_system.md R212). -/
def proposedCfg (p : Params) (g : Staging) : Option Cfg :=
  match widthOf g.wordWidth.toNat, orgOf g.org.toNat with
  | some w, some o =>
    let c : Cfg :=
      { W := w, L := g.lowBits.toNat, org := o, S := g.setSize.toNat, M := g.numSets.toNat
        stride := g.stride.toNat, N := g.pageWords.toNat }
    if cfgLegal p c then some c else none
  | _, _ => none

/-- `NOP` (45_system.md R210). -/
def execNop (s : State) : Result := finishOk s

/-- `CONFIGURE` on a build `p` (45_system.md R211): a new instance with a fresh dictionary, or none at all. -/
def configureOn (p : Params) (s : State) : Result :=
  match proposedCfg p s.stage with
  | some c => finishOk (setDictValid true (setCfgValid true ((s.setCfg c).setDict (fresh c))))
  | none => raiseError .invalidConfiguration (setDictValid false (setCfgValid false s))

/-- `CONFIGURE` (45_system.md R211). -/
def execConfigure (s : State) : Result := configureOn build s

end Sys2Proof.Machine
end

