-- ==== Sys2Proof/Machine/Dispatch.lean ====
section
/-!
DEFINITION. `exec`: one arm per command, each one call of its meaning.
-/

namespace Sys2Proof.Machine

def exec (i : Instr) (s : State) : Host.Outcome State Fault Refusal :=
  match i with
  | .nop => Sys2Proof.Machine.execNop s
  | .configure => Sys2Proof.Machine.execConfigure s
  | .dinit => Sys2Proof.Machine.execDinit s
  | .dlookup => Sys2Proof.Machine.execDlookup s
  | .dpromote => Sys2Proof.Machine.execDpromote s
  | .dsetval => Sys2Proof.Machine.execDsetval s
  | .packw k => Sys2Proof.Machine.execPackw k s
  | .unpackw k => Sys2Proof.Machine.execUnpackw k s
  | .classify => Sys2Proof.Machine.execClassify s
  | .recon t => Sys2Proof.Machine.execRecon t s
  | .compress => Sys2Proof.Machine.execCompress s
  | .decompress => Sys2Proof.Machine.execDecompress s

end Sys2Proof.Machine
end

