-- ==== Sys2Proof/Machine/HostPort.lean ====
section
/-!
DEFINITION. The register space of the host (10_state.md R41) and its accesses, which are no commands (45_system.md R213).
The write to `CMD`, which is one, is in Machine/Command.lean.
-/

namespace Sys2Proof.Machine

/-- The registers of the map of 10_state.md R41. -/
inductive Reg where
  | CMD
  | STATUS
  | ARG0
  | ARG1
  | RES0
  | RES1
  | RES_TAG
  | CBUF_LEN
  | CFG_WORD_WIDTH
  | CFG_LOW_BITS
  | CFG_ORG
  | CFG_SET_SIZE
  | CFG_NUM_SETS
  | CFG_STRIDE
  | CFG_PAGE_WORDS
  | LANE (j : Fin 64)
  | PAGE (i : Nat)
  | CBUF (i : Nat)
deriving DecidableEq, Repr

/-- The indices of 10_state.md R41 below 0x00100. -/
def fixedRegAt (a : Nat) : Option Reg :=
  match a with
  | 0x00 => some .CMD
  | 0x01 => some .STATUS
  | 0x02 => some .ARG0
  | 0x03 => some .ARG1
  | 0x04 => some .RES0
  | 0x05 => some .RES1
  | 0x06 => some .RES_TAG
  | 0x07 => some .CBUF_LEN
  | 0x10 => some .CFG_WORD_WIDTH
  | 0x11 => some .CFG_LOW_BITS
  | 0x12 => some .CFG_ORG
  | 0x13 => some .CFG_SET_SIZE
  | 0x14 => some .CFG_NUM_SETS
  | 0x15 => some .CFG_STRIDE
  | 0x16 => some .CFG_PAGE_WORDS
  | _ => none

/-- The register at an index, if the map lists it; `PAGE` and `CBUF` up to their capacities (10_state.md R41). -/
def regAt (p : Params) (a : Nat) : Option Reg :=
  if a < 0x100 then fixedRegAt a
  else if h : a - 0x100 < 64 then some (.LANE ⟨a - 0x100, h⟩)
  else if 0x10000 ≤ a ∧ a - 0x10000 < p.maxPageWords then some (.PAGE (a - 0x10000))
  else if 0x20000 ≤ a ∧ a - 0x20000 < p.maxCbufWords then some (.CBUF (a - 0x20000))
  else none

/-- What a host read of a register gives, zero-extended to 64 bits; `CMD` reads 0 (10_state.md R24, R41). -/
def regRead (s : State) : Reg → Word
  | .CMD => 0
  | .STATUS => (statusWord s.status).setWidth 64
  | .ARG0 => s.arg0
  | .ARG1 => s.arg1.setWidth 64
  | .RES0 => s.res0
  | .RES1 => s.res1.setWidth 64
  | .RES_TAG => s.resTag.setWidth 64
  | .CBUF_LEN => s.cbufLen.setWidth 64
  | .CFG_WORD_WIDTH => s.stage.wordWidth.setWidth 64
  | .CFG_LOW_BITS => s.stage.lowBits.setWidth 64
  | .CFG_ORG => s.stage.org.setWidth 64
  | .CFG_SET_SIZE => s.stage.setSize.setWidth 64
  | .CFG_NUM_SETS => s.stage.numSets.setWidth 64
  | .CFG_STRIDE => s.stage.stride.setWidth 64
  | .CFG_PAGE_WORDS => s.stage.pageWords.setWidth 64
  | .LANE j => s.lanes[j].setWidth 64
  | .PAGE i => pageCell s i
  | .CBUF i => cbufCell s i

/-- A host write of `v` to a register: the low bits that fit, the rest zero-filled; read-only registers ignore it
(10_state.md R21, R23, R26, R41). `CMD` holds nothing. -/
def regWrite (s : State) (v : Nat) : Reg → State
  | .CMD => s
  | .STATUS => s
  | .ARG0 => s.setArg0 (BitVec.ofNat 64 v)
  | .ARG1 => s.setArg1 (BitVec.ofNat 32 v)
  | .RES0 => s
  | .RES1 => s
  | .RES_TAG => s
  | .CBUF_LEN => s.setCbufLen (BitVec.ofNat 32 v)
  | .CFG_WORD_WIDTH => s.setStage { s.stage with wordWidth := BitVec.ofNat 32 v }
  | .CFG_LOW_BITS => s.setStage { s.stage with lowBits := BitVec.ofNat 32 v }
  | .CFG_ORG => s.setStage { s.stage with org := BitVec.ofNat 32 v }
  | .CFG_SET_SIZE => s.setStage { s.stage with setSize := BitVec.ofNat 32 v }
  | .CFG_NUM_SETS => s.setStage { s.stage with numSets := BitVec.ofNat 32 v }
  | .CFG_STRIDE => s.setStage { s.stage with stride := BitVec.ofNat 32 v }
  | .CFG_PAGE_WORDS => s.setStage { s.stage with pageWords := BitVec.ofNat 32 v }
  | .LANE j => s.setLanes (s.lanes.set j (BitVec.ofNat 16 v))
  | .PAGE i => s.setPage (memSet s.page i (BitVec.ofNat 64 v))
  | .CBUF i => s.setCbuf (memSet s.cbuf i (BitVec.ofNat 64 v))

/-- `RD` at an index; an index not listed reads 0 (10_state.md R41). -/
def hostReadOn (p : Params) (s : State) (a : Nat) : Word :=
  match regAt p a with
  | none => 0
  | some r => regRead s r

/-- `WR` at an index other than `CMD`'s; an index not listed ignores it (10_state.md R41). -/
def hostWriteOn (p : Params) (s : State) (a v : Nat) : State :=
  match regAt p a with
  | none => s
  | some r => regWrite s v r

/-- The move `RD reg`: the value joins those the host has read and the block is unchanged (R55, R213; DESIGN CHOICE,
log 20). -/
def hostRead (p : Params) (a : Nat) (s : State) : State :=
  s.setHost { s.host with reads := s.host.reads ++ [hostReadOn p s a] }

/-- Reset: one transition from any state to that of 10_state.md R43, with `PAGE` and `CBUF` at new arbitrary contents; the
host is no part of the block (70_reset_and_hazards.md R250, R251; DEDUCED, log 15). -/
def applyReset (s : State) : State :=
  (State.reset.setHost s.host).setFree { s.free with epoch := s.free.epoch + 1 }

/-- No command is running (10_state.md R23, R36). -/
def isIdle (s : State) : Bool := !s.status.busy && s.macroRun.isNone

/-- The host has made its next move. -/
def dropAction (s : State) : State := s.setHost { s.host with pending := s.host.pending.tail }

/-- Put a move in front of the host's pending ones. -/
def pushAction (a : HostAction) (s : State) : State := s.setHost { s.host with pending := a :: s.host.pending }

/-- No command in progress: what a state must be for the host to move (DESIGN CHOICE, log 1). -/
def makeIdle (s : State) : State := (s.setStatus { s.status with busy := false }).setMacroRun none

end Sys2Proof.Machine
end

