-- ==== Sys2Proof/Machine/Command.lean ====
section
/-!
DEFINITION. A host write to `CMD` is the execution of the command word written (10_state.md R24, 45_system.md R213), and
the host's moves as a step makes them. The build and the execution of a decoded command are arguments: Machine/Step.lean
gives them for the default build, Machine/Builds.lean for any (00_scope.md R11).
-/

namespace Sys2Proof.Machine

/-- Decode a command word and execute it; a word that does not decode ends with `BadCommand` and changes nothing else
(30_encoding.md R72, R73, 60_exceptions.md R232; DESIGN CHOICE, log 9). -/
def runWordWith (run : Instr → State → Result) (c : BitVec 32) (s : State) : Result :=
  match decode c with
  | .ok i => run i s
  | .error _ => raiseError .badCommand s

/-- A command word executed by the default build. -/
def runCommandWord (c : BitVec 32) (s : State) : Result := runWordWith exec c s

/-- One move of the host, made between commands (20_memory.md R60). Index 0 is `CMD`, 32 bits wide (10_state.md R41). -/
def hostMoveWith (p : Params) (run : Instr → State → Result) (a : HostAction) (s : State) : Result :=
  match a with
  | .wr 0 v => runWordWith run (BitVec.ofNat 32 v) s
  | .wr (x + 1) v => .next (hostWriteOn p s (x + 1) v)
  | .rd x => .next (hostRead p x s)
  | .rst => .next (applyReset s)

/-- The next move of the host, if it has one; an idle block keeps all its state (60_exceptions.md R245; DESIGN CHOICE,
log 18). A move while a command runs has no specified outcome (70_reset_and_hazards.md R255; DESIGN CHOICE, log 8). -/
def hostStepWith (p : Params) (run : Instr → State → Result) (s : State) : Result :=
  match s.host.pending with
  | [] => .next s
  | a :: _ => if isIdle s then hostMoveWith p run a (dropAction s) else .refused .hostAccessDuringCommand

end Sys2Proof.Machine
end

