-- ==== Sys2Proof/Machine/Step.lean ====
section
/-!
DEFINITION. One step of the machine: the host's next pending move, a command word written to `CMD` being executed to its
end within the step (00_scope.md R3, R12, 20_memory.md R54). There is no program counter and no fetch from memory
(20_memory.md R61); how a program comes to run is a DESIGN CHOICE, log 1.
-/

namespace Sys2Proof.Machine

/-- One step of the default build. -/
def step (s : State) : Host.Outcome State Fault Refusal := hostStepWith build exec s

/-- The state with the command word of a table row as the host's next move, a write to `CMD`, and no command in
progress, so that the very next step executes that word (DESIGN CHOICE, log 1). -/
def State.withFetchWord (s : State) (nbits w : Nat) : State := pushAction (.wr 0 (w % 2 ^ nbits)) (makeIdle s)

end Sys2Proof.Machine
end

