-- ==== Sys2Proof/Machine/Assembler.lean ====
section
/-!
DEFINITION. The host-program syntax of 30_encoding.md R89 and R90: each statement as the host's moves it stands for.
-/

namespace Sys2Proof.Machine

/-- The index of a register (10_state.md R41). -/
def regIndex : Reg → Nat
  | .CMD => 0x00
  | .STATUS => 0x01
  | .ARG0 => 0x02
  | .ARG1 => 0x03
  | .RES0 => 0x04
  | .RES1 => 0x05
  | .RES_TAG => 0x06
  | .CBUF_LEN => 0x07
  | .CFG_WORD_WIDTH => 0x10
  | .CFG_LOW_BITS => 0x11
  | .CFG_ORG => 0x12
  | .CFG_SET_SIZE => 0x13
  | .CFG_NUM_SETS => 0x14
  | .CFG_STRIDE => 0x15
  | .CFG_PAGE_WORDS => 0x16
  | .LANE j => 0x100 + j.val
  | .PAGE i => 0x10000 + i
  | .CBUF i => 0x20000 + i

/-- The statements of 30_encoding.md R89 and the pseudo-statements of R90, under the spec's names. -/
inductive Stmt where
  | WR (r : Reg) (v : Nat)
  | RD (r : Reg)
  | NOP
  | CONFIGURE
  | DINIT
  | DLOOKUP (w : Nat)
  | DPROMOTE (e : Nat)
  | DSETVAL (e v : Nat)
  | PACKW (k : Nat)
  | UNPACKW (k x : Nat)
  | CLASSIFY (w : Nat)
  | RECON (t : Tag) (e d : Nat)
  | COMPRESS
  | DECOMPRESS
  | SETCFG (w l org s m stride n : Nat)
  | LDPAGE (ws : List Nat)
  | LDCBUF (xs : List Nat)
  | LDLANES (vs : List Nat)
  | PACK (k : Nat) (vs : List Nat)
  | UNPACK (k : Nat) (xs : List Nat)
deriving DecidableEq, Repr

/-- `WR reg, v`. -/
def asmWrite (r : Reg) (v : Nat) : HostAction := .wr (regIndex r) v

/-- `WR CMD, w`. -/
def asmCommand (w : Nat) : HostAction := .wr (regIndex .CMD) w

/-- One write per value to consecutive indices from `base` (30_encoding.md R90). -/
def asmLoad (base : Nat) : List Nat → List HostAction
  | [] => []
  | v :: vs => .wr base v :: asmLoad (base + 1) vs

/-- The expansion of a statement (30_encoding.md R89, R90). `PACK` and `UNPACK` work in groups of `reps(k)`, so they need
the word width; `PACK` of a length that is no multiple of `reps(k)`, and either with `k` = 0, has no expansion. -/
def expand (W : Width) : Stmt → Option (List HostAction)
  | .WR r v => some [asmWrite r v]
  | .RD r => some [.rd (regIndex r)]
  | .NOP => some [asmCommand 0x00000000]
  | .CONFIGURE => some [asmCommand 0x00000001]
  | .DINIT => some [asmCommand 0x00000002]
  | .DLOOKUP w => some [asmWrite .ARG0 w, asmCommand 0x00000010]
  | .DPROMOTE e => some [asmWrite .ARG1 e, asmCommand 0x00000011]
  | .DSETVAL e v => some [asmWrite .ARG1 e, asmWrite .ARG0 v, asmCommand 0x00000012]
  | .PACKW k => some [asmCommand (0x00000020 ||| (k <<< 8))]
  | .UNPACKW k x => some [asmWrite .ARG0 x, asmCommand (0x00000021 ||| (k <<< 8))]
  | .CLASSIFY w => some [asmWrite .ARG0 w, asmCommand 0x00000030]
  | .RECON t e d =>
    some [asmWrite .ARG1 e, asmWrite .ARG0 d, asmCommand (0x00000031 ||| (tagCode t <<< 16))]
  | .COMPRESS => some [asmCommand 0x00000040]
  | .DECOMPRESS => some [asmCommand 0x00000041]
  | .SETCFG w l org s m stride n =>
    some
      [asmWrite .CFG_WORD_WIDTH w, asmWrite .CFG_LOW_BITS l, asmWrite .CFG_ORG org, asmWrite .CFG_SET_SIZE s,
        asmWrite .CFG_NUM_SETS m, asmWrite .CFG_STRIDE stride, asmWrite .CFG_PAGE_WORDS n, asmCommand 0x00000001]
  | .LDPAGE ws => some (asmLoad (regIndex (.PAGE 0)) ws)
  | .LDCBUF xs => some (asmLoad (regIndex (.CBUF 0)) xs ++ [asmWrite .CBUF_LEN xs.length])
  | .LDLANES vs => some (asmLoad (regIndex (.LANE 0)) vs)
  | .PACK k vs =>
    let g := W.bits / k
    if g ≠ 0 ∧ vs.length % g = 0 then
      some ((List.range (vs.length / g)).flatMap fun r =>
        asmLoad (regIndex (.LANE 0)) ((vs.drop (r * g)).take g) ++
          [asmCommand (0x00000020 ||| (k <<< 8)), .rd (regIndex .RES0)])
    else none
  | .UNPACK k xs =>
    let g := W.bits / k
    if g ≠ 0 then
      some (xs.flatMap fun x =>
        [asmWrite .ARG0 x, asmCommand (0x00000021 ||| (k <<< 8))] ++
          (List.range g).map fun j => .rd (regIndex (.LANE 0) + j))
    else none

end Sys2Proof.Machine
end

