-- ==== Sys2Proof/Machine/Builds.lean ====
section
/-!
DEFINITION. The machine of any build: the parameters of 00_scope.md R11 as arguments (10_state.md R40; log 2). `exec` and
`step` are these on the default build.
-/

namespace Sys2Proof.Machine

/-- A command executed on a build `p`. The commands that read no parameter are the same on every build. -/
def execOn (p : Params) (i : Instr) (s : State) : Result :=
  match i with
  | .nop => execNop s
  | .configure => configureOn p s
  | .dinit => execDinit s
  | .dlookup => dlookupOn p s
  | .dpromote => execDpromote s
  | .dsetval => execDsetval s
  | .packw k => execPackw k s
  | .unpackw k => execUnpackw k s
  | .classify => classifyOn p s
  | .recon t => reconOn p t s
  | .compress => compressOn p s
  | .decompress => decompressOn p s

/-- A command word executed on a build `p`. -/
def runCommandWordOn (p : Params) (c : BitVec 32) (s : State) : Result := runWordWith (execOn p) c s

/-- One step of a build `p`. -/
def stepOn (p : Params) (s : State) : Result := hostStepWith p (execOn p) s

end Sys2Proof.Machine
end

