-- ==== Sys2Proof/Machine/Bytes.lean ====
section
/-!
DEFINITION. The byte view of the compressed buffer that a system around the block uses (20_memory.md R52, R53): words
serialised little-endian, `WB` bytes each. Inside the block no access is to a byte and no command uses this file
(DESIGN CHOICE, log 19).
-/

namespace Sys2Proof.Machine

/-- Byte `b` of a word: bits `8*b+7 : 8*b` (20_memory.md R52). -/
def byteOf (w : Word) (b : Nat) : BitVec 8 := BitVec.ofNat 8 (w.toNat / 2 ^ (8 * b))

/-- Word `i` at bytes `i*WB` to `i*WB + WB - 1`, least significant byte first (20_memory.md R52). -/
def serialize (c : Cfg) (ws : List Word) : List (BitVec 8) :=
  ws.flatMap fun w => (List.range (wordBytes c)).map (byteOf w)

/-- The value of bytes in little-endian order. -/
def bytesValue : List (BitVec 8) → Nat
  | [] => 0
  | b :: bs => b.toNat + 256 * bytesValue bs

/-- The words of a byte buffer; a length that is no multiple of `WB` is rejected as `MalformedInput` before the block
sees it (20_memory.md R53, decision D15). -/
def deserialize (c : Cfg) (bs : List (BitVec 8)) : Except ResultCode (List Word) :=
  if bs.length % wordBytes c ≠ 0 then .error .malformedInput
  else
    .ok ((List.range (bs.length / wordBytes c)).map fun i =>
      BitVec.ofNat 64 (bytesValue ((bs.drop (i * wordBytes c)).take (wordBytes c))))

end Sys2Proof.Machine
end

