-- ==== Sys2Proof/Machine/Engines.lean ====
section
/-!
DEFINITION. `NUM_ENGINES` engines: independent copies of the whole state, sharing nothing, stepped in any interleaving
(60_exceptions.md R243, 20_memory.md R62; DESIGN CHOICE, log 17). `Sys2Proof.core` is the default build, one engine.
-/

namespace Sys2Proof.Machine

/-- The states of the engines of a system, one each. -/
abbrev Engines := List State

/-- The `NUM_ENGINES` engines of a build after reset; each draws free values of its own (DESIGN CHOICE, log 16, log 17). -/
def enginesReset (p : Params) : Engines :=
  (List.range p.numEngines).map fun j => State.reset.setFree { engine := j, epoch := 0, draw := 0 }

/-- Engine `k` of a build makes one step; the others do nothing. -/
def stepEngine (p : Params) (es : Engines) (k : Nat) (h : k < es.length) : Host.Outcome Engines Fault Refusal :=
  match stepOn p es[k] with
  | .next s => .next (es.set k s)
  | .fault r => .fault r
  | .refused r => .refused r

end Sys2Proof.Machine
end

