-- ==== Sys2Proof/Safety.lean ====
section
/-!
DEFINITION. The terms the claims are stated in: the dictionary invariant, the invariant every step keeps, the tests of
`CONFIGURE` in the spec's own words, the access table, and the causes of `BadCommand`.
-/

namespace Sys2Proof.Machine

/-- The configuration passes K2 and K4 to K7 and its stride fits its staging register (45_system.md R212). -/
def CfgOk (p : Params) (c : Cfg) : Prop := cfgLegal p c = true ∧ c.stride < 2 ^ 32

/-- A word of `W` bits. -/
def WordOk (c : Cfg) (w : Word) : Prop := w.toNat < 2 ^ c.W.bits

/-- 10_state.md R32: `CAP` entries of `W` bits, `M` recency lists, each a permutation of `0 .. S-1`. -/
structure DictOk (c : Cfg) (d : Dict) : Prop where
  valLength : d.val.length = cap c
  valWidth : ∀ v ∈ d.val, WordOk c v
  recencyLength : d.recency.length = c.M
  recencyPerm : ∀ l ∈ d.recency, l.Perm (List.range c.S)

/-- A buffer in canonical form inside its capacity. -/
structure MemOk (capacity : Nat) (m : Mem) : Prop where
  wf : Mem.wf m
  bound : ∀ x ∈ m, x.1 < capacity

/-- What every step keeps: no command in progress between steps (10_state.md R23, R36), a validated configuration is
legal (R22), a usable dictionary belongs to one and is well formed (R32, R33), reserved bits of `RES_TAG` are 0 (R26),
and the buffers are in canonical form (R34, R35). -/
structure Inv (p : Params) (s : State) : Prop where
  notBusy : s.status.busy = false
  noRun : s.macroRun = none
  cfgOk : s.status.cfgValid = true → CfgOk p s.cfg
  dictNeedsCfg : s.status.dictValid = true → s.status.cfgValid = true
  dictOk : s.status.dictValid = true → DictOk s.cfg s.dict
  resTag : s.resTag.toNat < 4
  page : MemOk p.maxPageWords s.page
  cbuf : MemOk p.maxCbufWords s.cbuf

/-- The tests K1 to K7 of 45_system.md R212 on the seven staging values, as the table writes them. -/
def ValidStaging (p : Params) (g : Staging) : Prop :=
  (g.wordWidth.toNat = 32 ∨ g.wordWidth.toNat = 64) ∧
  (4 ≤ g.lowBits.toNat ∧ g.lowBits.toNat ≤ 16) ∧
  g.org.toNat ≤ 3 ∧
  ((∃ a, g.setSize.toNat = 2 ^ a) ∧ (∃ b, g.numSets.toNat = 2 ^ b) ∧
    2 ≤ g.setSize.toNat * g.numSets.toNat ∧ g.setSize.toNat * g.numSets.toNat ≤ 65536) ∧
  ((g.org.toNat = 0 → g.setSize.toNat = 1) ∧
    (g.org.toNat = 1 ∨ g.org.toNat = 2 → g.numSets.toNat = 1)) ∧
  1 ≤ g.stride.toNat ∧
  (1 ≤ g.pageWords.toNat ∧ g.pageWords.toNat ≤ p.maxPageWords)

/-- The number a staging register holds for an organization (10_state.md R21). -/
def orgCode : Org → Nat
  | .dm => 0
  | .fal => 1
  | .fah => 2
  | .sa => 3

/-- The columns of 10_state.md R42, with `cfg` and the staging registers beside them. -/
inductive Column where
  | ARG0
  | ARG1
  | RES0
  | RES1
  | RES_TAG
  | LANE
  | VAL
  | REC
  | PAGE
  | CBUF
  | CBUF_LEN
  | CFG_VALID
  | DICT_VALID
  | CFG
  | CFG_REGS
deriving DecidableEq, Repr

/-- The `w` entries of the table of 10_state.md R42, row by row. -/
def writes : Instr → List Column
  | .nop => []
  | .configure => [.VAL, .REC, .CFG_VALID, .DICT_VALID, .CFG]
  | .dinit => [.VAL, .REC, .DICT_VALID]
  | .dlookup => [.RES0, .RES1]
  | .dpromote => [.REC]
  | .dsetval => [.VAL]
  | .packw _ => [.RES0]
  | .unpackw _ => [.LANE]
  | .classify => [.RES0, .RES1, .RES_TAG, .VAL, .REC]
  | .recon _ => [.RES0, .RES1, .VAL, .REC]
  | .compress => [.RES1, .VAL, .REC, .CBUF, .DICT_VALID]
  | .decompress => [.RES1, .VAL, .REC, .PAGE, .DICT_VALID]

/-- A column holds in `t` what it held in `s`; the buffers through every cell a host can read. -/
def Unchanged (s t : State) : Column → Prop
  | .ARG0 => t.arg0 = s.arg0
  | .ARG1 => t.arg1 = s.arg1
  | .RES0 => t.res0 = s.res0
  | .RES1 => t.res1 = s.res1
  | .RES_TAG => t.resTag = s.resTag
  | .LANE => t.lanes = s.lanes
  | .VAL => t.dict.val = s.dict.val
  | .REC => t.dict.recency = s.dict.recency
  | .PAGE => ∀ i, pageCell t i = pageCell s i
  | .CBUF => ∀ i, cbufCell t i = cbufCell s i
  | .CBUF_LEN => t.cbufLen = s.cbufLen
  | .CFG_VALID => t.status.cfgValid = s.status.cfgValid
  | .DICT_VALID => t.status.dictValid = s.status.dictValid
  | .CFG => t.cfg = s.cfg
  | .CFG_REGS => t.stage = s.stage

/-- The command reads or writes the engine's dictionary under `DICT_VALID` (60_exceptions.md R232, item 3). -/
def usesDict : Instr → Bool
  | .nop => false
  | .configure => false
  | .dinit => false
  | .dlookup => true
  | .dpromote => true
  | .dsetval => true
  | .packw _ => false
  | .unpackw _ => false
  | .classify => true
  | .recon _ => true
  | .compress => false
  | .decompress => false

/-- The command takes an entry reference in `ARG1` (60_exceptions.md R232, item 4). -/
def usesEntry : Instr → Bool
  | .nop => false
  | .configure => false
  | .dinit => false
  | .dlookup => false
  | .dpromote => true
  | .dsetval => true
  | .packw _ => false
  | .unpackw _ => false
  | .classify => false
  | .recon t => t == .EXACT || t == .PARTIAL
  | .compress => false
  | .decompress => false

/-- The causes of `BadCommand` after decoding, items 2 to 5 of 60_exceptions.md R232. -/
def BadState (p : Params) (i : Instr) (s : State) : Prop :=
  (i ≠ .nop ∧ i ≠ .configure ∧ s.status.cfgValid = false) ∨
  (usesDict i = true ∧ s.status.dictValid = false) ∨
  (usesEntry i = true ∧ cap s.cfg ≤ s.arg1.toNat) ∨
  ((i = .compress ∨ i = .decompress) ∧ p.maxCbufWords < s.cbufLen.toNat)

/-- The registers a host write changes (10_state.md R41); `CMD` starts a command instead. -/
def hostWritable : Reg → Bool
  | .CMD => false
  | .STATUS => false
  | .RES0 => false
  | .RES1 => false
  | .RES_TAG => false
  | _ => true

/-- The width of a register (10_state.md R41). -/
def regWidth : Reg → Nat
  | .ARG0 => 64
  | .RES0 => 64
  | .PAGE _ => 64
  | .CBUF _ => 64
  | .LANE _ => 16
  | _ => 32

/-- The register exists on a build: `PAGE` and `CBUF` up to their capacities (10_state.md R41). -/
def RegExists (p : Params) : Reg → Prop
  | .PAGE i => i < p.maxPageWords
  | .CBUF i => i < p.maxCbufWords
  | _ => True

/-- The indices 10_state.md R41 does not list on a build. -/
def Unlisted (p : Params) (a : Nat) : Prop :=
  (0x08 ≤ a ∧ a < 0x10) ∨ (0x17 ≤ a ∧ a < 0x100) ∨ (0x140 ≤ a ∧ a < 0x10000) ∨
  (0x10000 + p.maxPageWords ≤ a ∧ a < 0x20000) ∨ 0x20000 + p.maxCbufWords ≤ a

/-- What 70_reset_and_hazards.md R250 states of the state reset leads to; it leaves the rest unspecified. -/
def ResetValues (t : State) : Prop :=
  statusWord t.status = 0 ∧
  t.stage.wordWidth = 64 ∧ t.stage.lowBits = 10 ∧ t.stage.org = 0 ∧ t.stage.setSize = 1 ∧ t.stage.numSets = 16 ∧
  t.stage.stride = 1 ∧ t.stage.pageWords = 512 ∧
  t.arg0 = 0 ∧ t.arg1 = 0 ∧ t.res0 = 0 ∧ t.res1 = 0 ∧ t.resTag = 0 ∧ t.cbufLen = 0 ∧
  (∀ j, lane t j = 0) ∧ t.macroRun = none

/-- What a command that writes only the listed columns leaves alone: every other column, the host beside the block, which
cells power-on contents are read from; no command is left running (10_state.md R20, R42). -/
def Frame (written : List Column) (s t : State) : Prop :=
  (∀ col, col ∉ written → Unchanged s t col) ∧ t.host = s.host ∧ t.status.busy = false ∧
  (t.macroRun = s.macroRun ∨ t.macroRun = none) ∧ t.free.engine = s.free.engine ∧ t.free.epoch = s.free.epoch

/-- Two configurations under which every operation of the dictionary, every page model, every buffer and every replay
agree (41_dictionary.md R133). -/
def SameBehaviour (p : Params) (c c' : Cfg) : Prop :=
  fresh c = fresh c' ∧
  (∀ d w, lookup p c d w = lookup p c' d w ∧ victim p c d w = victim p c' d w ∧
    classify p c d w = classify p c' d w) ∧
  (∀ d e, promote c d e = promote c' d e) ∧
  (∀ d t e x, recon p c d t e x = recon p c' d t e x) ∧
  (∀ page, modelPage p c page = modelPage p c' page) ∧
  (∀ n tags idx low full, encodeBuffer c n tags idx low full = encodeBuffer c' n tags idx low full) ∧
  (∀ b len, parse p c b len = parse p c' b len) ∧
  (∀ x, replay p c x = replay p c' x)

/-- The stream `v` lies in the packed area of `b` that starts at word `start`, `k` bits per value: lane `j` of word `x`
is value `x * reps(k) + j`, 0 beyond the end of the stream, and the unused bits are 0 (30_encoding.md R77, R81). -/
def AreaHolds (c : Cfg) (b : List Word) (start k : Nat) (v : List Nat) : Prop :=
  ∀ x, x < ceilDiv v.length (reps c k) →
    ∃ w, b[start + x]? = some w ∧ w.toNat < 2 ^ (reps c k * k) ∧
      ∀ j, j < reps c k → w.toNat / 2 ^ (j * k) % 2 ^ k = v.getD (x * reps c k + j) 0

/-- The dictionary after a run of `classify` steps (41_dictionary.md R139). -/
def classifyAll (p : Params) (c : Cfg) (d : Dict) : List Word → Dict
  | [] => d
  | w :: ws => classifyAll p c (classify p c d w).2 ws

/-- What a run of `classify` steps emits, one item for each word (42_word_classifier.md R150, R159). -/
def emittedAll (p : Params) (c : Cfg) (d : Dict) : List Word → List Emitted
  | [] => []
  | w :: ws => (classify p c d w).1 :: emittedAll p c (classify p c d w).2 ws

/-- `RES0` or the stream item a decoder is given for what `classify` emitted (44_layout_decoder.md R196). -/
def reconOf (p : Params) (c : Cfg) (d : Dict) : Emitted → Word × Dict
  | .ZERO => recon p c d .ZERO 0 0
  | .EXACT e => recon p c d .EXACT e 0
  | .PARTIAL e l => recon p c d .PARTIAL e (BitVec.ofNat 64 l)
  | .MISS w => recon p c d .MISS 0 w

/-- How many of the first `t` positions of the order `ord` have the tag `g`: how many items of a stream have been taken
before step `t` (44_layout_decoder.md R193). -/
def seenTags (tags : List Tag) (ord : List Nat) (t : Nat) (g : Tag) : Nat :=
  ((ord.take t).filter fun i => tags[i]? == some g).length

/-- Step `t` of the replay of `x`, at a position with the tag `g`: the reconstruction step on the next items of the streams
gives the word `w` and leads from the dictionary `d` to `d'` (44_layout_decoder.md R193). -/
def ReplayTakes (p : Params) (c : Cfg) (x : Parsed) (ord : List Nat) (t : Nat) (g : Tag) (d d' : Dict) (w : Word) :
    Prop :=
  let seen := seenTags x.tags ord t
  match g with
  | .ZERO => recon p c d .ZERO 0 0 = (w, d')
  | .EXACT => ∃ e, x.idx[seen .EXACT + seen .PARTIAL]? = some e ∧ recon p c d .EXACT e 0 = (w, d')
  | .PARTIAL => ∃ e l, x.idx[seen .EXACT + seen .PARTIAL]? = some e ∧ x.low[seen .PARTIAL]? = some l ∧
    recon p c d .PARTIAL e (BitVec.ofNat 64 l) = (w, d')
  | .MISS => ∃ v, x.full[seen .MISS]? = some v ∧ recon p c d .MISS 0 v = (w, d')

end Sys2Proof.Machine
end

