-- ==== Sys2Proof/Certificates/Slice0/Obligations.lean ====
section
/-!
DEFINITION. The statements for the provers, from the spec's numbered rules; each docstring names the rules it formalises.
-/

open Sys2Proof Sys2Proof.Machine

/-! ### Encoding -/

/-- 30_encoding.md R70, R71, R72: the word of every well-formed command decodes to that command. -/
def Obligations.EncodedCommandDecodesToItself : Prop :=
  ∀ i : Instr, i.WellFormed → decode (encode i) = .ok i

/-- 30_encoding.md R70, R72, R73: a word that decodes is the word of the command it decodes to, which is well formed; so
no two words are one command. -/
def Obligations.DecodedWordIsItsEncoding : Prop :=
  ∀ (c : BitVec 32) (i : Instr), decode c = .ok i → i.WellFormed ∧ encode i = c

/-- 30_encoding.md R73: exactly the words it lists are illegal, and each ends with `BadCommand` and changes nothing but
`STATUS.RESULT`. -/
def Obligations.IllegalWordsAreBadCommand : Prop :=
  ∀ (c : BitVec 32) (s : State), isIdle s = true →
    let opc := (c.extractLsb' 0 8).toNat
    let k := (c.extractLsb' 8 5).toNat
    let tag := (c.extractLsb' 16 2).toNat
    ((∃ e, decode c = .error e) ↔
      opc ∉ [0x00, 0x01, 0x02, 0x10, 0x11, 0x12, 0x20, 0x21, 0x30, 0x31, 0x40, 0x41] ∨
      c.extractLsb' 13 3 ≠ 0 ∨ c.extractLsb' 18 14 ≠ 0 ∨
      (opc ∈ [0x20, 0x21] ∧ (k = 0 ∨ 17 ≤ k)) ∨ (opc ∉ [0x20, 0x21] ∧ k ≠ 0) ∨ (opc ≠ 0x31 ∧ tag ≠ 0)) ∧
    ((∃ e, decode c = .error e) →
      runCommandWord c s = .next { s with status := { s.status with result := .badCommand } })

/-- 30_encoding.md R71 and 95_test_vectors.md section 8: words written out from the format. -/
def Obligations.ListedWordsDecode : Prop :=
  decode 0x00000000 = .ok .nop ∧ decode 0x00000001 = .ok .configure ∧ decode 0x00000002 = .ok .dinit ∧
  decode 0x00000010 = .ok .dlookup ∧ decode 0x00000011 = .ok .dpromote ∧ decode 0x00000012 = .ok .dsetval ∧
  decode 0x00000120 = .ok (.packw 1) ∧ decode 0x00000A20 = .ok (.packw 10) ∧ decode 0x00001020 = .ok (.packw 16) ∧
  decode 0x00000121 = .ok (.unpackw 1) ∧ decode 0x00000221 = .ok (.unpackw 2) ∧
  decode 0x00001021 = .ok (.unpackw 16) ∧ decode 0x00000030 = .ok .classify ∧
  decode 0x00000031 = .ok (.recon .ZERO) ∧ decode 0x00010031 = .ok (.recon .EXACT) ∧
  decode 0x00020031 = .ok (.recon .PARTIAL) ∧ decode 0x00030031 = .ok (.recon .MISS) ∧
  decode 0x00000040 = .ok .compress ∧ decode 0x00000041 = .ok .decompress

/-- 30_encoding.md R89: the host's moves each statement stands for: the writes of its operands in order, then the write of
its command word to `CMD`, which is the word of its command; and R90: those each pseudo-statement stands for. `PACK` takes
its values in groups of `reps(k)`, given here as a list of the groups. -/
def Obligations.AssembledStatementsWriteTheirCommand : Prop :=
  (∀ (W : Width) (r : Reg) (k v x e d : Nat) (t : Tag), legalK k = true →
     (expand W (.WR r v) = some [.wr (regIndex r) v] ∧ expand W (.RD r) = some [.rd (regIndex r)] ∧
       expand W .NOP = some [.wr 0x00 0x00] ∧ expand W .CONFIGURE = some [.wr 0x00 0x01] ∧
       expand W .DINIT = some [.wr 0x00 0x02] ∧
       expand W (.DLOOKUP x) = some [.wr 0x02 x, .wr 0x00 0x10] ∧
       expand W (.DPROMOTE e) = some [.wr 0x03 e, .wr 0x00 0x11] ∧
       expand W (.DSETVAL e x) = some [.wr 0x03 e, .wr 0x02 x, .wr 0x00 0x12] ∧
       expand W (.PACKW k) = some [.wr 0x00 (0x20 + 2 ^ 8 * k)] ∧
       expand W (.UNPACKW k x) = some [.wr 0x02 x, .wr 0x00 (0x21 + 2 ^ 8 * k)] ∧
       expand W (.CLASSIFY x) = some [.wr 0x02 x, .wr 0x00 0x30] ∧
       expand W (.RECON t e d) = some [.wr 0x03 e, .wr 0x02 d, .wr 0x00 (0x31 + 2 ^ 16 * tagCode t)] ∧
       expand W .COMPRESS = some [.wr 0x00 0x40] ∧ expand W .DECOMPRESS = some [.wr 0x00 0x41]) ∧
     let last (st : Stmt) := (expand W st).bind List.getLast?
     let writeOf (i : Instr) := some (HostAction.wr 0 (encode i).toNat)
     last .NOP = writeOf .nop ∧ last .CONFIGURE = writeOf .configure ∧ last .DINIT = writeOf .dinit ∧
     last (.DLOOKUP x) = writeOf .dlookup ∧ last (.DPROMOTE e) = writeOf .dpromote ∧
     last (.DSETVAL e x) = writeOf .dsetval ∧ last (.PACKW k) = writeOf (.packw k) ∧
     last (.UNPACKW k x) = writeOf (.unpackw k) ∧ last (.CLASSIFY x) = writeOf .classify ∧
     last (.RECON t e d) = writeOf (.recon t) ∧ last .COMPRESS = writeOf .compress ∧
     last .DECOMPRESS = writeOf .decompress) ∧
  ∀ W : Width,
    let load (base : Nat) (vs : List Nat) := vs.mapIdx fun i v => HostAction.wr (base + i) v
    (∀ w l org s m stride n : Nat, expand W (.SETCFG w l org s m stride n) =
      some [.wr 0x10 w, .wr 0x11 l, .wr 0x12 org, .wr 0x13 s, .wr 0x14 m, .wr 0x15 stride, .wr 0x16 n,
        .wr 0x00 0x01]) ∧
    (∀ ws : List Nat, expand W (.LDPAGE ws) = some (load 0x10000 ws)) ∧
    (∀ xs : List Nat, expand W (.LDCBUF xs) = some (load 0x20000 xs ++ [.wr 0x07 xs.length])) ∧
    (∀ vs : List Nat, expand W (.LDLANES vs) = some (load 0x100 vs)) ∧
    (∀ (k : Nat) (groups : List (List Nat)), legalK k = true → (∀ g ∈ groups, g.length = W.bits / k) →
      expand W (.PACK k groups.flatten) =
        some (groups.flatMap fun g => load 0x100 g ++ [.wr 0x00 (0x20 + 2 ^ 8 * k), .rd 0x04])) ∧
    (∀ (k : Nat) (xs : List Nat), legalK k = true →
      expand W (.UNPACK k xs) =
        some (xs.flatMap fun x => [.wr 0x02 x, .wr 0x00 (0x21 + 2 ^ 8 * k)] ++
          (List.range (W.bits / k)).map fun j => .rd (0x100 + j)))

/-! ### The step and the host -/

/-- 10_state.md R24, 45_system.md R213: a step whose pending host move is a write to `CMD` executes the word written, in
the state with that move made; a table word placed by `withFetchWord` is the one the next step executes. The list of
pending moves is the model's (log 1). -/
def Obligations.StepExecutesTheCommandWritten : Prop :=
  (∀ (s : State) (v : Nat) (rest : List HostAction), isIdle s = true → s.host.pending = .wr 0 v :: rest →
    dropAction s = { s with host := { s.host with pending := rest } } ∧
    step s = runCommandWord (BitVec.ofNat 32 v) (dropAction s) ∧
    ∀ i, decode (BitVec.ofNat 32 v) = .ok i → step s = exec i (dropAction s)) ∧
  (∀ (s : State) (nbits w : Nat) (i : Instr), decodeTableWord nbits w = some i →
    step (s.withFetchWord nbits w) = exec i (makeIdle s))

/-- 00_scope.md R11, 10_state.md R40: the parameters are arguments of the machine. On every build a step is the host's next
move, the first of a list that is the model's (log 1): a command word is executed (45_system.md R213) and one that does not
decode is a `BadCommand` (30_encoding.md R72, R73; log 9), any other write is a register write, a read appends the register's
value to a list that is the model's (log 20), a reset, which the model makes a host move that leaves the host's lists
(log 15), resets. `exec` and `step` are those of the default build (log 2), a legal one with the defaults of the table. The
commands that read no parameter are the same on every build. A legal build has one engine or more, and `NUM_ENGINES` of
them after reset, each at the reset values (60_exceptions.md R243, 70_reset_and_hazards.md R250; log 17) and with no move of
its host pending (log 1). -/
def Obligations.BuildsShareOneMachine : Prop :=
  (∀ (p : Params) (s : State) (rest : List HostAction), isIdle s = true →
    (∀ (v : Nat) (i : Instr), s.host.pending = .wr 0 v :: rest → decode (BitVec.ofNat 32 v) = .ok i →
      stepOn p s = execOn p i (dropAction s)) ∧
    (∀ (v : Nat) (e : DecodeError), s.host.pending = .wr 0 v :: rest → decode (BitVec.ofNat 32 v) = .error e →
      stepOn p s = .next (endWith .badCommand (dropAction s))) ∧
    (∀ a v : Nat, a ≠ 0 → s.host.pending = .wr a v :: rest →
      stepOn p s = .next (hostWriteOn p (dropAction s) a v)) ∧
    (∀ a : Nat, s.host.pending = .rd a :: rest →
      stepOn p s = .next { s with host := { pending := rest, reads := s.host.reads ++ [hostReadOn p s a] } }) ∧
    (s.host.pending = .rst :: rest → stepOn p s = .next (applyReset (dropAction s)))) ∧
  (∀ (i : Instr) (c : BitVec 32) (s : State), execOn build i s = exec i s ∧
    runCommandWordOn build c s = runCommandWord c s ∧ stepOn build s = step s) ∧
  (∀ (p : Params) (i : Instr) (s : State),
    i ∉ [.configure, .dlookup, .classify, .recon .ZERO, .recon .EXACT, .recon .PARTIAL, .recon .MISS, .compress,
      .decompress] → execOn p i s = exec i s) ∧
  (build.Legal ∧ build.maxPageWords = 1024 ∧ build.maxCbufWords = 2 * build.maxPageWords ∧ build.numEngines = 1 ∧
    ∀ (c : Cfg) (h : Nat), build.hash c h = h % c.M) ∧
  (∀ p : Params, (enginesReset p).length = p.numEngines ∧ (p.Legal → 1 ≤ p.numEngines) ∧
    ∀ t ∈ enginesReset p, ResetValues t ∧ Inv p t ∧ t.host = { pending := [], reads := [] })

/-- 60_exceptions.md R245: with no host move pending the block keeps all its state, on every build. That a step may find no
move pending is the model's (log 18). -/
def Obligations.StepWithoutHostMoveKeepsTheState : Prop :=
  ∀ s : State, s.host.pending = [] → step s = .next s ∧ ∀ p : Params, stepOn p s = .next s

/-- 45_system.md R213, 10_state.md R41, on every build: a host write to an index other than `CMD`'s stores the value in the
register at that index, if the host may write it, and changes nothing else: every other index reads as before, and neither
`STATUS` nor hidden state changes. The list of pending moves is the model's (log 1). -/
def Obligations.HostWriteTouchesOneRegister : Prop :=
  ∀ (p : Params) (s : State) (a v : Nat) (rest : List HostAction), isIdle s = true →
    s.host.pending = .wr a v :: rest → a ≠ 0 →
    ∃ t, stepOn p s = .next t ∧ (p = build → step s = .next t) ∧ t = hostWriteOn p (dropAction s) a v ∧
      hostReadOn p t a = (match regAt p a with
        | none => 0
        | some r => if hostWritable r then BitVec.ofNat 64 (v % 2 ^ regWidth r) else hostReadOn p s a) ∧
      t.host = { s.host with pending := rest } ∧ t.status = s.status ∧ t.cfg = s.cfg ∧
      t.dict = s.dict ∧ t.macroRun = s.macroRun ∧ t.free = s.free ∧
      ∀ b, b ≠ a → hostReadOn p t b = hostReadOn p s b

/-- 20_memory.md R55, 45_system.md R213, on every build: a host read takes the value of the register and changes nothing of
the block; EachIndexReadsItsRegister says what that value is. The lists of pending moves and of values read are the model's
(log 1, log 20). -/
def Obligations.HostReadChangesNothing : Prop :=
  ∀ (p : Params) (s : State) (a : Nat) (rest : List HostAction), isIdle s = true → s.host.pending = .rd a :: rest →
    let t := { s with host := { pending := rest, reads := s.host.reads ++ [hostReadOn p s a] } }
    stepOn p s = .next t ∧ (p = build → step s = .next t)

/-- 10_state.md R41 with R23 to R28, on every legal build: the register that a host read at each index reports,
zero-extended; `CMD` and every index not listed read 0. -/
def Obligations.EachIndexReadsItsRegister : Prop :=
  ∀ (p : Params) (s : State), p.Legal →
    let read := hostReadOn p s
    (read 0x00 = 0 ∧ read 0x01 = (statusWord s.status).setWidth 64 ∧ read 0x02 = s.arg0 ∧
      read 0x03 = s.arg1.setWidth 64 ∧ read 0x04 = s.res0 ∧ read 0x05 = s.res1.setWidth 64 ∧
      read 0x06 = s.resTag.setWidth 64 ∧ read 0x07 = s.cbufLen.setWidth 64 ∧
      read 0x10 = s.stage.wordWidth.setWidth 64 ∧ read 0x11 = s.stage.lowBits.setWidth 64 ∧
      read 0x12 = s.stage.org.setWidth 64 ∧ read 0x13 = s.stage.setSize.setWidth 64 ∧
      read 0x14 = s.stage.numSets.setWidth 64 ∧ read 0x15 = s.stage.stride.setWidth 64 ∧
      read 0x16 = s.stage.pageWords.setWidth 64) ∧
    (∀ j, j < 64 → read (0x100 + j) = (lane s j).setWidth 64) ∧
    (∀ i, i < p.maxPageWords → read (0x10000 + i) = pageCell s i) ∧
    (∀ i, i < p.maxCbufWords → read (0x20000 + i) = cbufCell s i) ∧
    ∀ a, Unlisted p a → read a = 0

/-- 10_state.md R41 with R21, R23 to R28, on every legal build: what a host write at each index but `CMD`'s stores, the low
bits that fit; the read-only registers and every index not listed ignore it. -/
def Obligations.EachIndexWritesItsRegister : Prop :=
  ∀ (p : Params) (s : State) (v : Nat), p.Legal →
    let write (a : Nat) := hostWriteOn p s a v
    let v32 := BitVec.ofNat 32 v
    (write 0x02 = { s with arg0 := BitVec.ofNat 64 v } ∧ write 0x03 = { s with arg1 := v32 } ∧
      write 0x07 = { s with cbufLen := v32 } ∧
      write 0x10 = { s with stage := { s.stage with wordWidth := v32 } } ∧
      write 0x11 = { s with stage := { s.stage with lowBits := v32 } } ∧
      write 0x12 = { s with stage := { s.stage with org := v32 } } ∧
      write 0x13 = { s with stage := { s.stage with setSize := v32 } } ∧
      write 0x14 = { s with stage := { s.stage with numSets := v32 } } ∧
      write 0x15 = { s with stage := { s.stage with stride := v32 } } ∧
      write 0x16 = { s with stage := { s.stage with pageWords := v32 } }) ∧
    (write 0x01 = s ∧ write 0x04 = s ∧ write 0x05 = s ∧ write 0x06 = s) ∧
    (∀ j : Fin 64, write (0x100 + j) = { s with lanes := s.lanes.set j (BitVec.ofNat 16 v) }) ∧
    (∀ i, i < p.maxPageWords →
      let t := write (0x10000 + i)
      t = { s with page := t.page } ∧ ∀ k, pageCell t k = if k = i then BitVec.ofNat 64 v else pageCell s k) ∧
    (∀ i, i < p.maxCbufWords →
      let t := write (0x20000 + i)
      t = { s with cbuf := t.cbuf } ∧ ∀ k, cbufCell t k = if k = i then BitVec.ofNat 64 v else cbufCell s k) ∧
    ∀ a, Unlisted p a → write a = s

/-- 10_state.md R41, on every build: a writable register reads back the low bits that fit; a read-only one ignores the
write; an index not listed reads 0 and ignores writes. -/
def Obligations.HostWriteThenRead : Prop :=
  ∀ (p : Params) (s : State) (a v : Nat),
    (∀ r, regAt p a = some r →
      hostReadOn p (hostWriteOn p s a v) a =
        if hostWritable r then BitVec.ofNat 64 (v % 2 ^ regWidth r) else hostReadOn p s a) ∧
    (regAt p a = none → hostReadOn p s a = 0 ∧ hostWriteOn p s a v = s)

/-- 10_state.md R41, on every build: each register stands at its own index and no other. -/
def Obligations.RegisterIndicesAreDistinct : Prop :=
  ∀ p : Params, p.Legal →
    (∀ r, RegExists p r → regAt p (regIndex r) = some r) ∧
    (∀ a r, regAt p a = some r → regIndex r = a ∧ RegExists p r)

/-- 70_reset_and_hazards.md R250, on every build: reset leads from any state between commands to the stated values, which
`State.reset` has. The values the spec leaves unspecified are not stated. Reset comes as a host move, and the host's lists
stay (log 15). -/
def Obligations.ResetGivesTheStatedValues : Prop :=
  ResetValues State.reset ∧
  ∀ (p : Params) (s : State) (rest : List HostAction), isIdle s = true → s.host.pending = .rst :: rest →
    ∃ t, stepOn p s = .next t ∧ (p = build → step s = .next t) ∧ t.host = { s.host with pending := rest } ∧
      ResetValues t

/-- 10_state.md R23: the bits of `STATUS` and the five codes. -/
def Obligations.StatusWordHasTheStatedBits : Prop :=
  ∀ st : Status,
    (statusWord st).getLsbD 0 = st.cfgValid ∧ (statusWord st).getLsbD 1 = st.dictValid ∧
    (statusWord st).getLsbD 2 = st.busy ∧ (statusWord st).getLsbD 3 = false ∧
    ((statusWord st).extractLsb' 4 4).toNat =
      (match st.result with
       | .ok => 0
       | .invalidConfiguration => 1
       | .bufferTooSmall => 2
       | .malformedInput => 3
       | .badCommand => 4) ∧
    (statusWord st).extractLsb' 8 24 = 0

/-! ### The whole machine -/

/-- The invariant (`Inv`: 10_state.md R22, R23, R26, R32, R34 to R36) holds right after reset, on every build. It rests
on the model's reset of the host side and the buffers (log 1, log 5). -/
def Obligations.ResetMeetsTheInvariant : Prop := ∀ p : Params, Inv p State.reset

/-- 10_state.md R32 and the rules `Inv` names: every step from a state that meets the invariant leads to one, on the
default build and on every legal one (00_scope.md R11). -/
def Obligations.EveryStepKeepsTheInvariant : Prop :=
  (∀ s t : State, Inv build s → step s = .next t → Inv build t) ∧
  ∀ (p : Params) (s t : State), p.Legal → Inv p s → stepOn p s = .next t → Inv p t

/-- 00_scope.md R17, R18: from a state that meets the invariant every command and every step has a next state; no fault
and no refusal is reached (log 10, log 11), on the default build and on every legal one (R11). -/
def Obligations.NothingStopsTheMachine : Prop :=
  (∀ s : State, Inv build s → (∀ i, ∃ t, exec i s = .next t) ∧ ∃ t, step s = .next t) ∧
  ∀ (p : Params) (s : State), p.Legal → Inv p s → (∀ i, ∃ t, execOn p i s = .next t) ∧ ∃ t, stepOn p s = .next t

/-- 60_exceptions.md R231: a command word that ends with a code other than 0 changes `STATUS.RESULT` and nothing else;
a failed `CONFIGURE` also clears both valid bits. -/
def Obligations.ErrorsChangeOnlyTheResult : Prop :=
  ∀ (c : BitVec 32) (s t : State), isIdle s = true → runCommandWord c s = .next t → t.status.result ≠ .ok →
    (decode c ≠ .ok .configure → t = { s with status := { s.status with result := t.status.result } }) ∧
    (decode c = .ok .configure →
      t = { s with status := { s.status with cfgValid := false, dictValid := false, result := t.status.result } })

/-- 60_exceptions.md R232: `BadCommand` is raised exactly for the causes it lists. -/
def Obligations.BadCommandExactlyForItsCauses : Prop :=
  ∀ (c : BitVec 32) (s : State),
    (∃ t, runCommandWord c s = .next t ∧ t.status.result = .badCommand) ↔
      (∃ e, decode c = .error e) ∨ ∃ i, decode c = .ok i ∧ BadState build i s

/-- 60_exceptions.md R226, R227, R228, R230: which command can end with which of the source's three errors. -/
def Obligations.ErrorCodesBelongToTheirCommands : Prop :=
  ∀ (i : Instr) (s t : State), exec i s = .next t →
    (t.status.result = .invalidConfiguration ↔ i = .configure ∧ ¬ ValidStaging build s.stage) ∧
    (t.status.result = .bufferTooSmall → i = .compress ∨ i = .decompress) ∧
    (t.status.result = .malformedInput → i = .decompress)

/-- 10_state.md R42 with R21, R22, R25, R27: a command changes only the columns the table gives it; `cfg` only by
`CONFIGURE`, the staging and operand registers by no command. -/
def Obligations.CommandsWriteOnlyTheirColumns : Prop :=
  ∀ (i : Instr) (s t : State), exec i s = .next t → Frame (writes i) s t

/-- 10_state.md R33: what sets and what clears `DICT_VALID`, and what its being 0 forbids. -/
def Obligations.DictValidFollowsItsLifecycle : Prop :=
  (∀ (i : Instr) (s t : State), exec i s = .next t →
    ((t.status.result = .ok ∧ (i = .dinit ∨ i = .configure)) → t.status.dictValid = true) ∧
    ((t.status.result ≠ .ok ∧ i = .configure) → t.status.dictValid = false) ∧
    ((t.status.result = .ok ∧ (i = .compress ∨ i = .decompress)) → t.status.dictValid = false) ∧
    ((i ≠ .configure ∧ (t.status.result ≠ .ok ∨ (i ≠ .dinit ∧ i ≠ .compress ∧ i ≠ .decompress))) →
      t.status.dictValid = s.status.dictValid)) ∧
  (∀ (i : Instr) (s : State), s.status.dictValid = false → usesDict i = true →
    exec i s = .next (endWith .badCommand s)) ∧
  State.reset.status.dictValid = false

/-- 60_exceptions.md R243, 20_memory.md R62: on every build a step of one engine changes no other, and steps of two
engines commute. The engines are a list of states (log 17). -/
def Obligations.EnginesDoNotInteract : Prop :=
  ∀ (p : Params) (es : Engines) (i j : Nat) (hi : i < es.length) (hj : j < es.length), i ≠ j →
    ∀ a b, stepOn p es[i] = .next a → stepOn p es[j] = .next b →
      ∃ (x y z : Engines) (hx : j < x.length) (hy : i < y.length),
        stepEngine p es i hi = .next x ∧ x[i]? = some a ∧ (∀ k, k ≠ i → x[k]? = es[k]?) ∧
        stepEngine p es j hj = .next y ∧ stepEngine p x j hx = .next z ∧ stepEngine p y i hy = .next z

/-! ### System commands -/

/-- 45_system.md R210: `NOP` is the word 0 and writes `STATUS.RESULT` only, whatever the state. -/
def Obligations.NopClearsTheResult : Prop :=
  decode 0x00000000 = .ok .nop ∧
  ∀ s : State, isIdle s = true → exec .nop s = .next { s with status := { s.status with result := .ok } }

/-- 45_system.md R211, R212: `CONFIGURE` on staging values that pass K1 to K7 builds the instance they describe with a
fresh dictionary; on any others it destroys the instance and reports `InvalidConfiguration`. While there is none, every
command but `NOP` and `CONFIGURE` ends with `BadCommand`, and only a `CONFIGURE` that succeeds ends that. -/
def Obligations.ConfigureBuildsOrDestroysTheInstance : Prop :=
  decode 0x00000001 = .ok .configure ∧
  (∀ (s : State) (i : Instr), s.status.cfgValid = false → i ≠ .nop → i ≠ .configure →
    exec i s = .next (endWith .badCommand s)) ∧
  (∀ (s t : State) (i : Instr), s.status.cfgValid = false → exec i s = .next t → t.status.cfgValid = true →
    i = .configure ∧ t.status.result = .ok) ∧
  ∀ s : State,
    (ValidStaging build s.stage → ∃ t, exec .configure s = .next t ∧
      t.cfg.W.bits = s.stage.wordWidth.toNat ∧ t.cfg.L = s.stage.lowBits.toNat ∧
      orgCode t.cfg.org = s.stage.org.toNat ∧ t.cfg.S = s.stage.setSize.toNat ∧ t.cfg.M = s.stage.numSets.toNat ∧
      t.cfg.stride = s.stage.stride.toNat ∧ t.cfg.N = s.stage.pageWords.toNat ∧
      t.dict.val = List.replicate (t.cfg.S * t.cfg.M) 1 ∧
      t.dict.recency = List.replicate t.cfg.M (List.range t.cfg.S) ∧
      t.status = { cfgValid := true, dictValid := true, busy := false, result := .ok } ∧
      Frame [.VAL, .REC, .CFG_VALID, .DICT_VALID, .CFG] s t) ∧
    (¬ ValidStaging build s.stage → exec .configure s =
      .next { s with
        status := { cfgValid := false, dictValid := false, busy := false, result := .invalidConfiguration } })

/-! ### Bit packer -/

/-- 40_bit_packer.md R107: `PACKW k` puts the low `k` bits of lane `j` at bits `j*k` and up of `RES0`, for every lane below
`reps(k)`, zeros above, and changes nothing else; with no configuration it is a `BadCommand`. -/
def Obligations.PackwPacksTheLanes : Prop :=
  ∀ k : Nat, legalK k = true → decode (BitVec.ofNat 32 (0x20 + 2 ^ 8 * k)) = .ok (.packw k) ∧
    ∀ s : State,
      (s.status.cfgValid = true →
        ∃ t, exec (.packw k) s = .next t ∧ t.status.result = .ok ∧
          (∀ j, j < s.cfg.W.bits / k → t.res0.toNat / 2 ^ (j * k) % 2 ^ k = (lane s j).toNat % 2 ^ k) ∧
          t.res0.toNat < 2 ^ (s.cfg.W.bits / k * k) ∧
          Frame [.RES0] s t) ∧
      (s.status.cfgValid = false → exec (.packw k) s = .next (endWith .badCommand s))

/-- 40_bit_packer.md R108: `UNPACKW k` puts lane `j` of `ARG0[W-1:0]` into `LANE[j]` for every `j` below `reps(k)`, keeps
the other lanes, and changes nothing else; with no configuration it is a `BadCommand`. -/
def Obligations.UnpackwSpreadsTheWord : Prop :=
  ∀ k : Nat, legalK k = true → decode (BitVec.ofNat 32 (0x21 + 2 ^ 8 * k)) = .ok (.unpackw k) ∧
    ∀ s : State,
      (s.status.cfgValid = true →
        ∃ t, exec (.unpackw k) s = .next t ∧ t.status.result = .ok ∧
          (∀ j, j < 64 → (lane t j).toNat =
            if j < s.cfg.W.bits / k then s.arg0.toNat % 2 ^ s.cfg.W.bits / 2 ^ (j * k) % 2 ^ k
            else (lane s j).toNat) ∧
          Frame [.LANE] s t) ∧
      (s.status.cfgValid = false → exec (.unpackw k) s = .next (endWith .badCommand s))

/-- 40_bit_packer.md R106: unpacking what was packed gives the values back; so does unpacking a padded area and taking
the stream's length; packing an unpacked word gives it back exactly when its unused bits are 0. -/
def Obligations.UnpackInvertsPack : Prop :=
  ∀ (c : Cfg) (k : Nat), legalK k = true →
    (∀ v : List Nat, v.length % reps c k = 0 → (∀ x ∈ v, x < 2 ^ k) →
      ∃ ws, pack c k v = some ws ∧ unpack c k ws = v) ∧
    (∀ v : List Nat, (∀ x ∈ v, x < 2 ^ k) →
      ∃ ws, pack c k (pad c k v) = some ws ∧ (unpack c k ws).take v.length = v) ∧
    (∀ x : Word, WordOk c x → (packWord k (unpackWord c k x) = x ↔ x.toNat < 2 ^ (reps c k * k)))

/-- 40_bit_packer.md R103, R109: for `k` from 1 to 16 `pack` has a value on its domain and none outside it. That the
model answers none there is its reading of "has no value" (log 10). -/
def Obligations.PackHasNoValueOutsideItsDomain : Prop :=
  ∀ (c : Cfg) (k : Nat) (v : List Nat), legalK k = true →
    ((pack c k v).isSome = true ↔ v.length % reps c k = 0 ∧ ∀ x ∈ v, x < 2 ^ k)

/-- 40_bit_packer.md R102, R105: unused bits of a word do not affect its unpacking; padding adds the fewest zeros that make
the length a multiple of `reps(k)`. -/
def Obligations.UnusedBitsAndPadding : Prop :=
  ∀ (c : Cfg) (k : Nat), legalK k = true →
    (∀ x y : Word, x.toNat % 2 ^ (reps c k * k) = y.toNat % 2 ^ (reps c k * k) →
      unpackWord c k x = unpackWord c k y) ∧
    (∀ v : List Nat, ∃ m, pad c k v = v ++ List.replicate m 0 ∧ m < reps c k ∧
      (pad c k v).length = reps c k * ceilDiv v.length (reps c k))

/-! ### Dictionary -/

/-- 41_dictionary.md R121, R124, R125: the set of a word by organization; its victim is the set's least recently used
entry; `lookup` returns the set's most recently used entry with the word's high bits, or the victim when there is none;
always an entry of that set, with its value. -/
def Obligations.LookupFindsFirstMatchOrOldest : Prop :=
  ∀ (p : Params) (c : Cfg) (d : Dict) (w : Word), p.Legal → CfgOk p c → DictOk c d →
    let s := match c.org with
      | .fal => 0
      | .fah => 0
      | .dm => p.hash c (w.toNat / 2 ^ c.L)
      | .sa => p.hash c (w.toNat / 2 ^ c.L)
    let l := recencyOf d s
    let r := lookup p c d w
    setOf p c w = s ∧ s < c.M ∧
    (∃ y, l[c.S - 1]? = some y ∧ victim p c d w = s * c.S + y) ∧
    r.2 = valAt d r.1 ∧ r.1 < cap c ∧ r.1 / c.S = s ∧
    ((∃ k y : Nat, l[k]? = some y ∧ r.1 = s * c.S + y ∧ hb c (valAt d (s * c.S + y)) = hb c w ∧
        ∀ j z : Nat, j < k → l[j]? = some z → hb c (valAt d (s * c.S + z)) ≠ hb c w) ∨
      ((∀ z ∈ l, hb c (valAt d (s * c.S + z)) ≠ hb c w) ∧ r.1 = victim p c d w))

/-- 41_dictionary.md R134: `DINIT` makes every value the sentinel 1 and every recency list the identity; with no configuration it
is a `BadCommand`. -/
def Obligations.DinitMakesAFreshDictionary : Prop :=
  decode 0x00000002 = .ok .dinit ∧
  ∀ s : State,
    (s.status.cfgValid = true →
      ∃ t, exec .dinit s = .next t ∧ t.status.result = .ok ∧ t.status.dictValid = true ∧
        t.dict.val = List.replicate (s.cfg.S * s.cfg.M) 1 ∧
        t.dict.recency = List.replicate s.cfg.M (List.range s.cfg.S) ∧
        Frame [.VAL, .REC, .DICT_VALID] s t) ∧
    (s.status.cfgValid = false → exec .dinit s = .next (endWith .badCommand s))

/-- 41_dictionary.md R135: `DLOOKUP` reports the candidate for `ARG0[W-1:0]` and its value and changes no dictionary
state; with no configuration or no dictionary it is a `BadCommand`. -/
def Obligations.DlookupReportsTheCandidate : Prop :=
  decode 0x00000010 = .ok .dlookup ∧
  ∀ s : State,
    (s.status.cfgValid = true → s.status.dictValid = true → CfgOk build s.cfg → DictOk s.cfg s.dict →
      ∃ t, exec .dlookup s = .next t ∧ t.status.result = .ok ∧
        t.res1.toNat = (lookup build s.cfg s.dict (argWord s)).1 ∧
        t.res0 = (lookup build s.cfg s.dict (argWord s)).2 ∧
        Frame [.RES0, .RES1] s t) ∧
    (s.status.cfgValid = false ∨ s.status.dictValid = false → exec .dlookup s = .next (endWith .badCommand s))

/-- 41_dictionary.md R136, R126: `DPROMOTE` moves the way of `ARG1` to the front of its set, the others keeping their
order, and changes no value and no other set; a way already first changes nothing. With no configuration,
no dictionary or no such entry it is a `BadCommand`. -/
def Obligations.DpromoteMovesToTheFront : Prop :=
  decode 0x00000011 = .ok .dpromote ∧
  ∀ s : State,
    (s.status.cfgValid = true → s.status.dictValid = true → CfgOk build s.cfg → DictOk s.cfg s.dict →
      s.arg1.toNat < s.cfg.S * s.cfg.M →
      ∃ t, exec .dpromote s = .next t ∧ t.status.result = .ok ∧
        let set := s.arg1.toNat / s.cfg.S
        let way := s.arg1.toNat % s.cfg.S
        recencyOf t.dict set = way :: (recencyOf s.dict set).filter (fun z => z != way) ∧
        (∀ u, u ≠ set → recencyOf t.dict u = recencyOf s.dict u) ∧
        t.dict.recency.length = s.dict.recency.length ∧
        ((recencyOf s.dict set).head? = some way → t.dict = s.dict) ∧
        (s.cfg.S = 1 → t.dict = s.dict) ∧
        Frame [.REC] s t) ∧
    (s.status.cfgValid = false ∨ s.status.dictValid = false ∨ s.cfg.S * s.cfg.M ≤ s.arg1.toNat →
      exec .dpromote s = .next (endWith .badCommand s))

/-- 41_dictionary.md R137, R127: `DSETVAL` overwrites the value of the entry `ARG1` with `ARG0[W-1:0]`, whatever the value,
and leaves every other value and the recency order. With no configuration, no dictionary or no such entry it is a
`BadCommand`. -/
def Obligations.DsetvalWritesOneEntry : Prop :=
  decode 0x00000012 = .ok .dsetval ∧
  ∀ s : State,
    (s.status.cfgValid = true → s.status.dictValid = true → CfgOk build s.cfg → DictOk s.cfg s.dict →
      s.arg1.toNat < s.cfg.S * s.cfg.M →
      ∃ t, exec .dsetval s = .next t ∧ t.status.result = .ok ∧
        (valAt t.dict s.arg1.toNat).toNat = s.arg0.toNat % 2 ^ s.cfg.W.bits ∧
        (∀ e, e ≠ s.arg1.toNat → valAt t.dict e = valAt s.dict e) ∧
        t.dict.val.length = s.dict.val.length ∧
        Frame [.VAL] s t) ∧
    (s.status.cfgValid = false ∨ s.status.dictValid = false ∨ s.cfg.S * s.cfg.M ≤ s.arg1.toNat →
      exec .dsetval s = .next (endWith .badCommand s))

/-- 41_dictionary.md R133: set-associative with `S` = 1 is direct-mapped, set-associative with `M` = 1 and hashed are
linear-scan, for every build. -/
def Obligations.OrganizationsCoincide : Prop :=
  ∀ (p : Params) (c : Cfg), p.Legal → CfgOk p c →
    (c.org = .sa → c.S = 1 → p.hash { c with org := .dm } = p.hash c → SameBehaviour p c { c with org := .dm }) ∧
    (c.org = .sa → c.M = 1 → SameBehaviour p c { c with org := .fal }) ∧
    (c.org = .fah → SameBehaviour p c { c with org := .fal })

/-- 41_dictionary.md R138: the hash index names the most recently used entry with the given high bits, or nothing, and a
lookup through it equals the scan. -/
def Obligations.HashIndexAgreesWithTheScan : Prop :=
  ∀ (p : Params) (c : Cfg) (d : Dict) (w : Word), c.org = .fah →
    indexedCandidate p c d w = candidate p c d w ∧
    ((∃ k y : Nat, (recencyOf d 0)[k]? = some y ∧ hashIndex c d (hb c w) = some y ∧ hb c (valAt d y) = hb c w ∧
        ∀ j z : Nat, j < k → (recencyOf d 0)[j]? = some z → hb c (valAt d z) ≠ hb c w) ∨
      ((∀ z ∈ recencyOf d 0, hb c (valAt d z) ≠ hb c w) ∧ hashIndex c d (hb c w) = none))

/-- 41_dictionary.md R139, 42_word_classifier.md R160, R161: a dictionary reached from `fresh` by `classify` steps holds
no 0, so 0 is tagged ZERO there and changes nothing. -/
def Obligations.ClassifyNeverStoresZero : Prop :=
  ∀ (p : Params) (c : Cfg) (ws : List Word), p.Legal → CfgOk p c → (∀ w ∈ ws, WordOk c w) →
    let d := classifyAll p c (fresh c) ws
    (∀ v ∈ d.val, v ≠ 0) ∧ classify p c d 0 = (.ZERO, d)

/-- 41_dictionary.md R140: in such a dictionary two entries of one set share high bits only when those are 0. -/
def Obligations.ClassifyKeepsHighBitsDistinct : Prop :=
  ∀ (p : Params) (c : Cfg) (ws : List Word), p.Legal → CfgOk p c → (∀ w ∈ ws, WordOk c w) →
    let d := classifyAll p c (fresh c) ws
    ∀ e f : Nat, e < cap c → f < cap c → e ≠ f → e / c.S = f / c.S → hb c (valAt d e) = hb c (valAt d f) →
      hb c (valAt d e) = 0

/-! ### Word classifier -/

/-- 42_word_classifier.md R150 to R154: the four tests in order, what each emits and does to the dictionary; a PARTIAL
word's low bits differ from the entry's, a MISS goes to the victim. -/
def Obligations.ClassifyDecidesByTheCandidate : Prop :=
  ∀ (p : Params) (c : Cfg) (d : Dict) (w : Word), CfgOk p c →
    let e := (lookup p c d w).1
    let v := (lookup p c d w).2
    (v = w → classify p c d w = (.EXACT e, promote c d e)) ∧
    (v ≠ w → w = 0 → classify p c d w = (.ZERO, d)) ∧
    (v ≠ w → w ≠ 0 → v.toNat / 2 ^ c.L = w.toNat / 2 ^ c.L →
      classify p c d w = (.PARTIAL e (w.toNat % 2 ^ c.L), promote c (setValue d e w) e) ∧
      v.toNat % 2 ^ c.L ≠ w.toNat % 2 ^ c.L) ∧
    (v ≠ w → w ≠ 0 → v.toNat / 2 ^ c.L ≠ w.toNat / 2 ^ c.L →
      classify p c d w = (.MISS w, promote c (setValue d e w) e) ∧ e = victim p c d w)

/-- 42_word_classifier.md R156: what `CLASSIFY` leaves in the result registers and the dictionary; with no
configuration or no dictionary it is a `BadCommand`. -/
def Obligations.ClassifyReportsTheStep : Prop :=
  decode 0x00000030 = .ok .classify ∧
  ∀ s : State,
    (s.status.cfgValid = true → s.status.dictValid = true → CfgOk build s.cfg → DictOk s.cfg s.dict →
      let w := argWord s
      let r := classify build s.cfg s.dict w
      ∃ t, exec .classify s = .next t ∧ t.status.result = .ok ∧ t.dict = r.2 ∧
        t.res1.toNat = (lookup build s.cfg s.dict w).1 ∧
        (match r.1 with
         | .ZERO => t.resTag = 0 ∧ t.res0 = 0
         | .EXACT _ => t.resTag = 1 ∧ t.res0 = w
         | .PARTIAL _ _ => t.resTag = 2 ∧ t.res0.toNat = w.toNat % 2 ^ s.cfg.L
         | .MISS _ => t.resTag = 3 ∧ t.res0 = w) ∧
        Frame [.RES0, .RES1, .RES_TAG, .VAL, .REC] s t) ∧
    (s.status.cfgValid = false ∨ s.status.dictValid = false → exec .classify s = .next (endWith .badCommand s))

/-- 42_word_classifier.md R157: the stride order is a permutation of the page positions, given by the closed form, and
plain order for stride 1 and for strides of the page length or more. -/
def Obligations.StrideOrderVisitsEveryPositionOnce : Prop :=
  ∀ n stride : Nat, 1 ≤ stride →
    (order n stride).Perm (List.range n) ∧
    (stride = 1 ∨ n ≤ stride → order n stride = List.range n) ∧
    ∀ t, t < n →
      let a := n % stride
      let b := n / stride
      (order n stride)[t]? = some
        (if t < a * (b + 1) then t / (b + 1) + t % (b + 1) * stride
         else a + (t - a * (b + 1)) / b + (t - a * (b + 1)) % b * stride)

/-- 42_word_classifier.md R158: `model_page` classifies each page word once, in stride order, on one dictionary that starts
fresh. The tag goes to the page position; the three other streams grow in processing order. -/
def Obligations.PageModelClassifiesInStrideOrder : Prop :=
  ∀ (p : Params) (c : Cfg) (page : List Word), p.Legal → CfgOk p c → (∀ w ∈ page, WordOk c w) →
    let n := page.length
    let ord := order n c.stride
    let ws := ord.map fun i => page.getD i 0
    let es := emittedAll p c (fresh c) ws
    let m := modelPage p c page
    m.dict = classifyAll p c (fresh c) ws ∧ m.run.seq = n ∧ m.run.tags.length = n ∧
    (∀ t i : Nat, ord[t]? = some i → ∃ e, es[t]? = some e ∧ m.run.tags[i]? = some (some
      (match e with
       | .ZERO => Tag.ZERO
       | .EXACT _ => .EXACT
       | .PARTIAL _ _ => .PARTIAL
       | .MISS _ => .MISS))) ∧
    m.run.idx = es.filterMap (fun e =>
      match e with
      | .ZERO => none
      | .EXACT x => some x
      | .PARTIAL x _ => some x
      | .MISS _ => none) ∧
    m.run.low = es.filterMap (fun e =>
      match e with
      | .ZERO => none
      | .EXACT _ => none
      | .PARTIAL _ l => some l
      | .MISS _ => none) ∧
    m.run.full = es.filterMap (fun e =>
      match e with
      | .ZERO => none
      | .EXACT _ => none
      | .PARTIAL _ _ => none
      | .MISS w => some w) ∧
    m.run.idx.length = m.run.tags.count (some .EXACT) + m.run.tags.count (some .PARTIAL) ∧
    m.run.low.length = m.run.tags.count (some .PARTIAL) ∧ m.run.full.length = m.run.tags.count (some .MISS)

/-! ### Layout encoder -/

/-- 30_encoding.md R80 to R85: header, the four areas in order with their sizes, every stream item in its lane, padding and
unused bits 0. -/
def Obligations.EncodedBufferHasTheLayout : Prop :=
  ∀ (p : Params) (c : Cfg) (n : Nat) (tags : List Tag) (idx low : List Nat) (full : List Word),
    p.Legal → CfgOk p c → n = tags.length → n ≤ p.maxPageWords → full.length ≤ n → idx.length ≤ n → low.length ≤ n →
    (∀ e ∈ idx, e < c.S * c.M) → (∀ l ∈ low, l < 2 ^ c.L) →
    let t := ceilDiv (2 * n) c.W.bits
    let i := ceilDiv idx.length (reps c (indexBits c))
    let l := ceilDiv low.length (reps c c.L)
    ∃ b, encodeBuffer c n tags idx low full = some b ∧
      b.length = 4 + t + full.length + i + l ∧
      headerField b 0 = n ∧ headerField b 1 = 4 + t + full.length ∧ headerField b 2 = 4 + t + full.length + i ∧
      headerField b 3 = b.length ∧
      AreaHolds c b 4 2 (tags.map tagCode) ∧
      (∀ r, r < full.length → b[4 + t + r]? = full[r]?) ∧
      AreaHolds c b (4 + t + full.length) (indexBits c) idx ∧
      AreaHolds c b (4 + t + full.length + i) c.L low

/-- 43_layout_encoder.md R177: with enough room offered `COMPRESS` ends `OK`, the encoding of the page's model in
`CBUF[0..size-1]`, its length in `RES1`, no usable dictionary, and nothing else changed: `PAGE`, the rest of `CBUF` and
every other register as before. With no configuration or a room beyond the buffer's capacity it is a `BadCommand`, else
with too little room a `BufferTooSmall`. -/
def Obligations.CompressWritesTheEncodedPage : Prop :=
  decode 0x00000040 = .ok .compress ∧
  ∀ s : State,
    let wc := s.cfg.N + ceilDiv (2 * s.cfg.N) s.cfg.W.bits + 5
    (s.status.cfgValid = true → CfgOk build s.cfg → s.cbufLen.toNat ≤ build.maxCbufWords → wc ≤ s.cbufLen.toNat →
      let m := (modelPage build s.cfg (pageWordsOf s)).run
      ∃ (t : State) (tags : List Tag) (b : List Word), exec .compress s = .next t ∧ t.status.result = .ok ∧
        m.tags = tags.map some ∧ tags.length = s.cfg.N ∧
        encodeBuffer s.cfg s.cfg.N tags m.idx m.low m.full = some b ∧
        (∀ i, cbufCell t i = if h : i < b.length then b[i] else cbufCell s i) ∧
        t.res1.toNat = b.length ∧ t.status.dictValid = false ∧
        Frame [.RES1, .VAL, .REC, .CBUF, .DICT_VALID] s t) ∧
    (s.status.cfgValid = false ∨ build.maxCbufWords < s.cbufLen.toNat →
      exec .compress s = .next (endWith .badCommand s)) ∧
    (s.status.cfgValid = true → s.cbufLen.toNat ≤ build.maxCbufWords → s.cbufLen.toNat < wc →
      exec .compress s = .next (endWith .bufferTooSmall s))

/-- 43_layout_encoder.md R178: among the rooms the buffer can offer, `COMPRESS` ends with `BufferTooSmall` exactly on those
below the worst case, whatever the page; twice the page is enough from six words up. -/
def Obligations.CompressChecksTheWorstCase : Prop :=
  ∀ s : State, s.status.cfgValid = true → CfgOk build s.cfg → s.cbufLen.toNat ≤ build.maxCbufWords →
    ((∃ t, exec .compress s = .next t ∧ t.status.result = .bufferTooSmall) ↔
      s.cbufLen.toNat < s.cfg.N + ceilDiv (2 * s.cfg.N) s.cfg.W.bits + 5) ∧
    (6 ≤ s.cfg.N → 2 * s.cfg.N ≤ s.cbufLen.toNat →
      ∃ t, exec .compress s = .next t ∧ t.status.result = .ok)

/-- 43_layout_encoder.md R179: the size `COMPRESS` reports lies between `4 + T(N)` and the worst case, inside the room
offered, and within twice the page from six words up. -/
def Obligations.CompressedSizeIsBounded : Prop :=
  ∀ s t : State, CfgOk build s.cfg → exec .compress s = .next t → t.status.result = .ok →
    let n := s.cfg.N
    let wc := n + ceilDiv (2 * n) s.cfg.W.bits + 5
    4 + ceilDiv (2 * n) s.cfg.W.bits ≤ t.res1.toNat ∧ t.res1.toNat ≤ wc ∧ wc ≤ s.cbufLen.toNat ∧
    (6 ≤ n → t.res1.toNat ≤ 2 * n)

/-- 43_layout_encoder.md R177, 00_scope.md R7, 70_reset_and_hazards.md R256: what a macro command produces depends only on
`cfg`, `CBUF_LEN` and the words it reads, not on the dictionary or any other state. -/
def Obligations.MacroCommandsDependOnTheirInputsOnly : Prop :=
  ∀ s s' t : State, s'.cfg = s.cfg → s'.status.cfgValid = s.status.cfgValid → s'.cbufLen = s.cbufLen →
    ((∀ i, i < s.cfg.N → pageRead s' i = pageRead s i) → exec .compress s = .next t →
      ∃ t', exec .compress s' = .next t' ∧ t'.status.result = t.status.result ∧
        (t.status.result = .ok → t'.res1 = t.res1 ∧ ∀ i, i < t.res1.toNat → cbufCell t' i = cbufCell t i)) ∧
    ((∀ i, i < s.cbufLen.toNat → cbufRead s' i = cbufRead s i) → exec .decompress s = .next t →
      ∃ t', exec .decompress s' = .next t' ∧ t'.status.result = t.status.result ∧
        (t.status.result = .ok → t'.res1 = t.res1 ∧ ∀ i, i < t.res1.toNat → pageCell t' i = pageCell t i))

/-! ### Layout decoder -/

/-- 44_layout_decoder.md R191: after `parse` succeeds the streams have the lengths the tags need, every item is in range,
and the replay runs to its end. -/
def Obligations.ParsedBufferReplaysToItsEnd : Prop :=
  ∀ (p : Params) (c : Cfg) (b : List Word) (x : Parsed), p.Legal → CfgOk p c → parse p c b b.length = .ok x →
    x.tags.length = x.n ∧ x.full.length = x.tags.count .MISS ∧
    x.idx.length = x.tags.count .EXACT + x.tags.count .PARTIAL ∧ x.low.length = x.tags.count .PARTIAL ∧
    (∀ e ∈ x.idx, e < cap c) ∧ (∀ l ∈ x.low, l < 2 ^ c.L) ∧ x.n ≤ p.maxPageWords ∧
    ∃ r out, replay p c x = some r ∧ definedSlots r.out = some out ∧ out.length = x.n

/-- 44_layout_decoder.md R190, 60_exceptions.md R229: the tests V1 to V7 in order; the first that fails decides the code
with which `DECOMPRESS` ends. -/
def Obligations.DecompressTestsInOrder : Prop :=
  ∀ s : State, s.status.cfgValid = true → s.cbufLen.toNat ≤ build.maxCbufWords →
    let c := s.cfg
    let b := cbufWordsOf s
    let len := s.cbufLen.toNat
    let n := headerField b 0
    let h1 := headerField b 1
    let h2 := headerField b 2
    let h3 := headerField b 3
    let a := 4 + ceilDiv (2 * n) c.W.bits
    let tags := ((unpack c 2 (slice b 4 a)).take n).map tagOfCode
    let m := tags.count .MISS
    let q := tags.count .EXACT + tags.count .PARTIAL
    let r := tags.count .PARTIAL
    let v1 := 4 ≤ len
    let v2 := a ≤ len
    let v3 := n ≤ build.maxPageWords
    let v4 := a ≤ h1 ∧ h1 ≤ h2 ∧ h2 ≤ h3 ∧ h3 ≤ len
    let v5 := h1 - a = m
    let v6 := h2 - h1 = ceilDiv q (reps c (indexBits c))
    let v7 := h3 - h2 = ceilDiv r (reps c c.L)
    (¬ (v1 ∧ v2) → exec .decompress s = .next (endWith .malformedInput s)) ∧
    (v1 ∧ v2 ∧ ¬ v3 → exec .decompress s = .next (endWith .bufferTooSmall s)) ∧
    (v1 ∧ v2 ∧ v3 ∧ ¬ (v4 ∧ v5 ∧ v6 ∧ v7) → exec .decompress s = .next (endWith .malformedInput s)) ∧
    (v1 ∧ v2 ∧ v3 ∧ v4 ∧ v5 ∧ v6 ∧ v7 →
      parse build c b len = .ok
        { n := n, tags := tags, idx := (unpack c (indexBits c) (slice b h1 h2)).take q
          low := (unpack c c.L (slice b h2 h3)).take r, full := slice b a h1 })

/-- 44_layout_decoder.md R194: on a buffer that parses `DECOMPRESS` ends `OK`, the replayed words in `PAGE[0..n-1]`, their
number in `RES1`, no usable dictionary, and nothing else changed: `CBUF`, the rest of `PAGE` and every other register as
before. With no configuration or a length beyond the buffer's capacity it is a `BadCommand`, else on a buffer that does not
parse it ends with the error of the parse. -/
def Obligations.DecompressWritesTheReplayedPage : Prop :=
  decode 0x00000041 = .ok .decompress ∧
  ∀ s : State,
    (∀ x : Parsed, s.status.cfgValid = true → CfgOk build s.cfg → s.cbufLen.toNat ≤ build.maxCbufWords →
      parse build s.cfg (cbufWordsOf s) s.cbufLen.toNat = .ok x →
      ∃ (t : State) (r : ReplayRun) (out : List Word), exec .decompress s = .next t ∧ t.status.result = .ok ∧
        replay build s.cfg x = some r ∧ r.out = out.map some ∧ out.length = x.n ∧
        (∀ i, pageCell t i = if h : i < out.length then out[i] else pageCell s i) ∧
        t.res1.toNat = x.n ∧ t.status.dictValid = false ∧
        Frame [.RES1, .VAL, .REC, .PAGE, .DICT_VALID] s t) ∧
    (s.status.cfgValid = false ∨ build.maxCbufWords < s.cbufLen.toNat →
      exec .decompress s = .next (endWith .badCommand s)) ∧
    (∀ code : ResultCode, s.status.cfgValid = true → s.cbufLen.toNat ≤ build.maxCbufWords →
      parse build s.cfg (cbufWordsOf s) s.cbufLen.toNat = .error code →
      exec .decompress s = .next (endWith code s))

/-- 44_layout_decoder.md R190, R194: words of the buffer at and beyond `header[3]` are ignored: a buffer that agrees with
one that parses on the words below it, and is at least that long, parses to the same. -/
def Obligations.WordsBeyondTheEndAreIgnored : Prop :=
  ∀ (p : Params) (c : Cfg) (b b' : List Word) (x : Parsed), p.Legal → CfgOk p c → parse p c b b.length = .ok x →
    headerField b 3 ≤ b'.length → b'.take (headerField b 3) = b.take (headerField b 3) →
    parse p c b' b'.length = .ok x

/-- 44_layout_decoder.md R192: the reconstruction step for each tag. A `MISS` goes to the least recently used entry of the
set the word selects, whether or not an entry matches (90_conflicts.md C6). -/
def Obligations.ReconDecidesByTheTag : Prop :=
  ∀ (p : Params) (c : Cfg) (d : Dict) (idx : Nat) (x : Word), p.Legal → CfgOk p c → DictOk c d →
    recon p c d .ZERO idx x = (0, d) ∧
    recon p c d .EXACT idx x = (valAt d idx, promote c d idx) ∧
    (let r := recon p c d .PARTIAL idx x
     r.1.toNat / 2 ^ c.L = (valAt d idx).toNat / 2 ^ c.L ∧ r.1.toNat % 2 ^ c.L = x.toNat % 2 ^ c.L ∧
       r.2 = promote c (setValue d idx r.1) idx) ∧
    (let r := recon p c d .MISS idx x
     let s := setOf p c r.1
     r.1.toNat = x.toNat % 2 ^ c.W.bits ∧
       ∃ y, (recencyOf d s)[c.S - 1]? = some y ∧
         r.2 = promote c (setValue d (s * c.S + y) r.1) (s * c.S + y))

/-- 44_layout_decoder.md R193: `replay` makes one reconstruction step for each position, in stride order, on one dictionary
that starts fresh. The tag is read at the page position; the three other streams are taken item by item in processing
order, and used up. -/
def Obligations.ReplayReconstructsInStrideOrder : Prop :=
  ∀ (p : Params) (c : Cfg) (x : Parsed), p.Legal → CfgOk p c → x.tags.length = x.n →
    x.idx.length = x.tags.count .EXACT + x.tags.count .PARTIAL → x.low.length = x.tags.count .PARTIAL →
    x.full.length = x.tags.count .MISS → (∀ e ∈ x.idx, e < cap c) →
    let ord := order x.n c.stride
    ∃ (r : ReplayRun) (d : Nat → Dict), replay p c x = some r ∧ r.out.length = x.n ∧ r.run.seq = x.n ∧
      r.run.idx = [] ∧ r.run.low = [] ∧ r.run.full = [] ∧ d 0 = fresh c ∧ d x.n = r.dict ∧
      ∀ (t i : Nat) (g : Tag), ord[t]? = some i → x.tags[i]? = some g →
        ∃ w, r.out[i]? = some (some w) ∧ ReplayTakes p c x ord t g (d t) (d (t + 1)) w

/-- 44_layout_decoder.md R195, R192: one reconstruction step, for each of the four tags; with no configuration, no
dictionary or no such entry it is a `BadCommand`. -/
def Obligations.ReconReportsTheStep : Prop :=
  ∀ tag : Tag, decode (BitVec.ofNat 32 (0x31 + 2 ^ 16 * tagCode tag)) = .ok (.recon tag) ∧ ∀ s : State,
    (s.status.cfgValid = false ∨ s.status.dictValid = false ∨
      ((tag = .EXACT ∨ tag = .PARTIAL) ∧ s.cfg.S * s.cfg.M ≤ s.arg1.toNat) →
      exec (.recon tag) s = .next (endWith .badCommand s)) ∧
    (s.status.cfgValid = true → s.status.dictValid = true → CfgOk build s.cfg → DictOk s.cfg s.dict →
      (tag = .EXACT ∨ tag = .PARTIAL → s.arg1.toNat < s.cfg.S * s.cfg.M) →
      ∃ t, exec (.recon tag) s = .next t ∧ t.status.result = .ok ∧ Frame [.RES0, .RES1, .VAL, .REC] s t ∧
        let e := s.arg1.toNat
        match tag with
        | .ZERO => t.res0 = 0 ∧ t.res1 = 0 ∧ t.dict = s.dict
        | .EXACT => t.res0 = valAt s.dict e ∧ t.res1 = s.arg1 ∧ t.dict = promote s.cfg s.dict e
        | .PARTIAL =>
          t.res0.toNat / 2 ^ s.cfg.L = (valAt s.dict e).toNat / 2 ^ s.cfg.L ∧
          t.res0.toNat % 2 ^ s.cfg.L = s.arg0.toNat % 2 ^ s.cfg.L ∧ t.res1 = s.arg1 ∧
          t.dict = promote s.cfg (setValue s.dict e t.res0) e
        | .MISS =>
          let set := setOf build s.cfg t.res0
          t.res0.toNat = s.arg0.toNat % 2 ^ s.cfg.W.bits ∧ t.res1.toNat = victim build s.cfg s.dict t.res0 ∧
          ∃ y, (recencyOf s.dict set)[s.cfg.S - 1]? = some y ∧ t.res1.toNat = set * s.cfg.S + y ∧
            t.dict = promote s.cfg (setValue s.dict t.res1.toNat t.res0) t.res1.toNat)

/-- 44_layout_decoder.md R196: from any dictionary, reconstructing what `classify` emitted gives the word back and leaves
the dictionary `classify` left. -/
def Obligations.ReconInvertsClassify : Prop :=
  ∀ (p : Params) (c : Cfg) (d : Dict) (w : Word), CfgOk p c → WordOk c w →
    reconOf p c d (classify p c d w).1 = (w, (classify p c d w).2)

/-- 44_layout_decoder.md R197, on every build: a page that `COMPRESS` compressed is what `DECOMPRESS` gives back, for any
length from the compressed size to the capacity and whatever `PAGE` holds by then. -/
def Obligations.DecompressInvertsCompress : Prop :=
  ∀ (p : Params) (s t : State) (m : Mem) (len : BitVec 32), p.Legal → CfgOk p s.cfg → s.status.cfgValid = true →
    compressOn p s = .next t → t.status.result = .ok → t.res1.toNat ≤ len.toNat → len.toNat ≤ p.maxCbufWords →
    ∃ u, decompressOn p ((t.setPage m).setCbufLen len) = .next u ∧ u.status.result = .ok ∧ u.res1.toNat = s.cfg.N ∧
      ∀ i, i < s.cfg.N → pageRead u i = pageRead s i

/-! ### Outside the block -/

/-- 20_memory.md R52, R53: words serialise little-endian and come back; a length that is no whole number of words is
`MalformedInput`. -/
def Obligations.SerializedWordsComeBack : Prop :=
  ∀ (c : Cfg) (ws : List Word), (∀ w ∈ ws, WordOk c w) →
    (serialize c ws).length = ws.length * (c.W.bits / 8) ∧
    (∀ i b, b < c.W.bits / 8 → (serialize c ws)[i * (c.W.bits / 8) + b]? =
      ws[i]?.map fun w => w.extractLsb' (8 * b) 8) ∧
    deserialize c (serialize c ws) = .ok ws ∧
    ∀ bs : List (BitVec 8), bs.length % (c.W.bits / 8) ≠ 0 → deserialize c bs = .error .malformedInput
end

