-- ==== Sys2Proof/Laws/State.lean ====
section
/-!
SUPPORT. One lemma per field per update of the state, each true by unfolding the update once.
-/

namespace Sys2Proof.Machine.State

variable (s : State)

@[simp] theorem setStatus_status (v : Status) : (s.setStatus v).status = v := rfl
@[simp] theorem setStatus_cfg (v : Status) : (s.setStatus v).cfg = s.cfg := rfl
@[simp] theorem setStatus_stage (v : Status) : (s.setStatus v).stage = s.stage := rfl
@[simp] theorem setStatus_arg0 (v : Status) : (s.setStatus v).arg0 = s.arg0 := rfl
@[simp] theorem setStatus_arg1 (v : Status) : (s.setStatus v).arg1 = s.arg1 := rfl
@[simp] theorem setStatus_res0 (v : Status) : (s.setStatus v).res0 = s.res0 := rfl
@[simp] theorem setStatus_res1 (v : Status) : (s.setStatus v).res1 = s.res1 := rfl
@[simp] theorem setStatus_resTag (v : Status) : (s.setStatus v).resTag = s.resTag := rfl
@[simp] theorem setStatus_cbufLen (v : Status) : (s.setStatus v).cbufLen = s.cbufLen := rfl
@[simp] theorem setStatus_lanes (v : Status) : (s.setStatus v).lanes = s.lanes := rfl
@[simp] theorem setStatus_dict (v : Status) : (s.setStatus v).dict = s.dict := rfl
@[simp] theorem setStatus_page (v : Status) : (s.setStatus v).page = s.page := rfl
@[simp] theorem setStatus_cbuf (v : Status) : (s.setStatus v).cbuf = s.cbuf := rfl
@[simp] theorem setStatus_macroRun (v : Status) : (s.setStatus v).macroRun = s.macroRun := rfl
@[simp] theorem setStatus_host (v : Status) : (s.setStatus v).host = s.host := rfl
@[simp] theorem setStatus_free (v : Status) : (s.setStatus v).free = s.free := rfl

@[simp] theorem setCfg_status (v : Cfg) : (s.setCfg v).status = s.status := rfl
@[simp] theorem setCfg_cfg (v : Cfg) : (s.setCfg v).cfg = v := rfl
@[simp] theorem setCfg_stage (v : Cfg) : (s.setCfg v).stage = s.stage := rfl
@[simp] theorem setCfg_arg0 (v : Cfg) : (s.setCfg v).arg0 = s.arg0 := rfl
@[simp] theorem setCfg_arg1 (v : Cfg) : (s.setCfg v).arg1 = s.arg1 := rfl
@[simp] theorem setCfg_res0 (v : Cfg) : (s.setCfg v).res0 = s.res0 := rfl
@[simp] theorem setCfg_res1 (v : Cfg) : (s.setCfg v).res1 = s.res1 := rfl
@[simp] theorem setCfg_resTag (v : Cfg) : (s.setCfg v).resTag = s.resTag := rfl
@[simp] theorem setCfg_cbufLen (v : Cfg) : (s.setCfg v).cbufLen = s.cbufLen := rfl
@[simp] theorem setCfg_lanes (v : Cfg) : (s.setCfg v).lanes = s.lanes := rfl
@[simp] theorem setCfg_dict (v : Cfg) : (s.setCfg v).dict = s.dict := rfl
@[simp] theorem setCfg_page (v : Cfg) : (s.setCfg v).page = s.page := rfl
@[simp] theorem setCfg_cbuf (v : Cfg) : (s.setCfg v).cbuf = s.cbuf := rfl
@[simp] theorem setCfg_macroRun (v : Cfg) : (s.setCfg v).macroRun = s.macroRun := rfl
@[simp] theorem setCfg_host (v : Cfg) : (s.setCfg v).host = s.host := rfl
@[simp] theorem setCfg_free (v : Cfg) : (s.setCfg v).free = s.free := rfl

@[simp] theorem setStage_status (v : Staging) : (s.setStage v).status = s.status := rfl
@[simp] theorem setStage_cfg (v : Staging) : (s.setStage v).cfg = s.cfg := rfl
@[simp] theorem setStage_stage (v : Staging) : (s.setStage v).stage = v := rfl
@[simp] theorem setStage_arg0 (v : Staging) : (s.setStage v).arg0 = s.arg0 := rfl
@[simp] theorem setStage_arg1 (v : Staging) : (s.setStage v).arg1 = s.arg1 := rfl
@[simp] theorem setStage_res0 (v : Staging) : (s.setStage v).res0 = s.res0 := rfl
@[simp] theorem setStage_res1 (v : Staging) : (s.setStage v).res1 = s.res1 := rfl
@[simp] theorem setStage_resTag (v : Staging) : (s.setStage v).resTag = s.resTag := rfl
@[simp] theorem setStage_cbufLen (v : Staging) : (s.setStage v).cbufLen = s.cbufLen := rfl
@[simp] theorem setStage_lanes (v : Staging) : (s.setStage v).lanes = s.lanes := rfl
@[simp] theorem setStage_dict (v : Staging) : (s.setStage v).dict = s.dict := rfl
@[simp] theorem setStage_page (v : Staging) : (s.setStage v).page = s.page := rfl
@[simp] theorem setStage_cbuf (v : Staging) : (s.setStage v).cbuf = s.cbuf := rfl
@[simp] theorem setStage_macroRun (v : Staging) : (s.setStage v).macroRun = s.macroRun := rfl
@[simp] theorem setStage_host (v : Staging) : (s.setStage v).host = s.host := rfl
@[simp] theorem setStage_free (v : Staging) : (s.setStage v).free = s.free := rfl

@[simp] theorem setArg0_status (v : BitVec 64) : (s.setArg0 v).status = s.status := rfl
@[simp] theorem setArg0_cfg (v : BitVec 64) : (s.setArg0 v).cfg = s.cfg := rfl
@[simp] theorem setArg0_stage (v : BitVec 64) : (s.setArg0 v).stage = s.stage := rfl
@[simp] theorem setArg0_arg0 (v : BitVec 64) : (s.setArg0 v).arg0 = v := rfl
@[simp] theorem setArg0_arg1 (v : BitVec 64) : (s.setArg0 v).arg1 = s.arg1 := rfl
@[simp] theorem setArg0_res0 (v : BitVec 64) : (s.setArg0 v).res0 = s.res0 := rfl
@[simp] theorem setArg0_res1 (v : BitVec 64) : (s.setArg0 v).res1 = s.res1 := rfl
@[simp] theorem setArg0_resTag (v : BitVec 64) : (s.setArg0 v).resTag = s.resTag := rfl
@[simp] theorem setArg0_cbufLen (v : BitVec 64) : (s.setArg0 v).cbufLen = s.cbufLen := rfl
@[simp] theorem setArg0_lanes (v : BitVec 64) : (s.setArg0 v).lanes = s.lanes := rfl
@[simp] theorem setArg0_dict (v : BitVec 64) : (s.setArg0 v).dict = s.dict := rfl
@[simp] theorem setArg0_page (v : BitVec 64) : (s.setArg0 v).page = s.page := rfl
@[simp] theorem setArg0_cbuf (v : BitVec 64) : (s.setArg0 v).cbuf = s.cbuf := rfl
@[simp] theorem setArg0_macroRun (v : BitVec 64) : (s.setArg0 v).macroRun = s.macroRun := rfl
@[simp] theorem setArg0_host (v : BitVec 64) : (s.setArg0 v).host = s.host := rfl
@[simp] theorem setArg0_free (v : BitVec 64) : (s.setArg0 v).free = s.free := rfl

@[simp] theorem setArg1_status (v : BitVec 32) : (s.setArg1 v).status = s.status := rfl
@[simp] theorem setArg1_cfg (v : BitVec 32) : (s.setArg1 v).cfg = s.cfg := rfl
@[simp] theorem setArg1_stage (v : BitVec 32) : (s.setArg1 v).stage = s.stage := rfl
@[simp] theorem setArg1_arg0 (v : BitVec 32) : (s.setArg1 v).arg0 = s.arg0 := rfl
@[simp] theorem setArg1_arg1 (v : BitVec 32) : (s.setArg1 v).arg1 = v := rfl
@[simp] theorem setArg1_res0 (v : BitVec 32) : (s.setArg1 v).res0 = s.res0 := rfl
@[simp] theorem setArg1_res1 (v : BitVec 32) : (s.setArg1 v).res1 = s.res1 := rfl
@[simp] theorem setArg1_resTag (v : BitVec 32) : (s.setArg1 v).resTag = s.resTag := rfl
@[simp] theorem setArg1_cbufLen (v : BitVec 32) : (s.setArg1 v).cbufLen = s.cbufLen := rfl
@[simp] theorem setArg1_lanes (v : BitVec 32) : (s.setArg1 v).lanes = s.lanes := rfl
@[simp] theorem setArg1_dict (v : BitVec 32) : (s.setArg1 v).dict = s.dict := rfl
@[simp] theorem setArg1_page (v : BitVec 32) : (s.setArg1 v).page = s.page := rfl
@[simp] theorem setArg1_cbuf (v : BitVec 32) : (s.setArg1 v).cbuf = s.cbuf := rfl
@[simp] theorem setArg1_macroRun (v : BitVec 32) : (s.setArg1 v).macroRun = s.macroRun := rfl
@[simp] theorem setArg1_host (v : BitVec 32) : (s.setArg1 v).host = s.host := rfl
@[simp] theorem setArg1_free (v : BitVec 32) : (s.setArg1 v).free = s.free := rfl

@[simp] theorem setRes0_status (v : BitVec 64) : (s.setRes0 v).status = s.status := rfl
@[simp] theorem setRes0_cfg (v : BitVec 64) : (s.setRes0 v).cfg = s.cfg := rfl
@[simp] theorem setRes0_stage (v : BitVec 64) : (s.setRes0 v).stage = s.stage := rfl
@[simp] theorem setRes0_arg0 (v : BitVec 64) : (s.setRes0 v).arg0 = s.arg0 := rfl
@[simp] theorem setRes0_arg1 (v : BitVec 64) : (s.setRes0 v).arg1 = s.arg1 := rfl
@[simp] theorem setRes0_res0 (v : BitVec 64) : (s.setRes0 v).res0 = v := rfl
@[simp] theorem setRes0_res1 (v : BitVec 64) : (s.setRes0 v).res1 = s.res1 := rfl
@[simp] theorem setRes0_resTag (v : BitVec 64) : (s.setRes0 v).resTag = s.resTag := rfl
@[simp] theorem setRes0_cbufLen (v : BitVec 64) : (s.setRes0 v).cbufLen = s.cbufLen := rfl
@[simp] theorem setRes0_lanes (v : BitVec 64) : (s.setRes0 v).lanes = s.lanes := rfl
@[simp] theorem setRes0_dict (v : BitVec 64) : (s.setRes0 v).dict = s.dict := rfl
@[simp] theorem setRes0_page (v : BitVec 64) : (s.setRes0 v).page = s.page := rfl
@[simp] theorem setRes0_cbuf (v : BitVec 64) : (s.setRes0 v).cbuf = s.cbuf := rfl
@[simp] theorem setRes0_macroRun (v : BitVec 64) : (s.setRes0 v).macroRun = s.macroRun := rfl
@[simp] theorem setRes0_host (v : BitVec 64) : (s.setRes0 v).host = s.host := rfl
@[simp] theorem setRes0_free (v : BitVec 64) : (s.setRes0 v).free = s.free := rfl

@[simp] theorem setRes1_status (v : BitVec 32) : (s.setRes1 v).status = s.status := rfl
@[simp] theorem setRes1_cfg (v : BitVec 32) : (s.setRes1 v).cfg = s.cfg := rfl
@[simp] theorem setRes1_stage (v : BitVec 32) : (s.setRes1 v).stage = s.stage := rfl
@[simp] theorem setRes1_arg0 (v : BitVec 32) : (s.setRes1 v).arg0 = s.arg0 := rfl
@[simp] theorem setRes1_arg1 (v : BitVec 32) : (s.setRes1 v).arg1 = s.arg1 := rfl
@[simp] theorem setRes1_res0 (v : BitVec 32) : (s.setRes1 v).res0 = s.res0 := rfl
@[simp] theorem setRes1_res1 (v : BitVec 32) : (s.setRes1 v).res1 = v := rfl
@[simp] theorem setRes1_resTag (v : BitVec 32) : (s.setRes1 v).resTag = s.resTag := rfl
@[simp] theorem setRes1_cbufLen (v : BitVec 32) : (s.setRes1 v).cbufLen = s.cbufLen := rfl
@[simp] theorem setRes1_lanes (v : BitVec 32) : (s.setRes1 v).lanes = s.lanes := rfl
@[simp] theorem setRes1_dict (v : BitVec 32) : (s.setRes1 v).dict = s.dict := rfl
@[simp] theorem setRes1_page (v : BitVec 32) : (s.setRes1 v).page = s.page := rfl
@[simp] theorem setRes1_cbuf (v : BitVec 32) : (s.setRes1 v).cbuf = s.cbuf := rfl
@[simp] theorem setRes1_macroRun (v : BitVec 32) : (s.setRes1 v).macroRun = s.macroRun := rfl
@[simp] theorem setRes1_host (v : BitVec 32) : (s.setRes1 v).host = s.host := rfl
@[simp] theorem setRes1_free (v : BitVec 32) : (s.setRes1 v).free = s.free := rfl

@[simp] theorem setResTag_status (v : BitVec 32) : (s.setResTag v).status = s.status := rfl
@[simp] theorem setResTag_cfg (v : BitVec 32) : (s.setResTag v).cfg = s.cfg := rfl
@[simp] theorem setResTag_stage (v : BitVec 32) : (s.setResTag v).stage = s.stage := rfl
@[simp] theorem setResTag_arg0 (v : BitVec 32) : (s.setResTag v).arg0 = s.arg0 := rfl
@[simp] theorem setResTag_arg1 (v : BitVec 32) : (s.setResTag v).arg1 = s.arg1 := rfl
@[simp] theorem setResTag_res0 (v : BitVec 32) : (s.setResTag v).res0 = s.res0 := rfl
@[simp] theorem setResTag_res1 (v : BitVec 32) : (s.setResTag v).res1 = s.res1 := rfl
@[simp] theorem setResTag_resTag (v : BitVec 32) : (s.setResTag v).resTag = v := rfl
@[simp] theorem setResTag_cbufLen (v : BitVec 32) : (s.setResTag v).cbufLen = s.cbufLen := rfl
@[simp] theorem setResTag_lanes (v : BitVec 32) : (s.setResTag v).lanes = s.lanes := rfl
@[simp] theorem setResTag_dict (v : BitVec 32) : (s.setResTag v).dict = s.dict := rfl
@[simp] theorem setResTag_page (v : BitVec 32) : (s.setResTag v).page = s.page := rfl
@[simp] theorem setResTag_cbuf (v : BitVec 32) : (s.setResTag v).cbuf = s.cbuf := rfl
@[simp] theorem setResTag_macroRun (v : BitVec 32) : (s.setResTag v).macroRun = s.macroRun := rfl
@[simp] theorem setResTag_host (v : BitVec 32) : (s.setResTag v).host = s.host := rfl
@[simp] theorem setResTag_free (v : BitVec 32) : (s.setResTag v).free = s.free := rfl

@[simp] theorem setCbufLen_status (v : BitVec 32) : (s.setCbufLen v).status = s.status := rfl
@[simp] theorem setCbufLen_cfg (v : BitVec 32) : (s.setCbufLen v).cfg = s.cfg := rfl
@[simp] theorem setCbufLen_stage (v : BitVec 32) : (s.setCbufLen v).stage = s.stage := rfl
@[simp] theorem setCbufLen_arg0 (v : BitVec 32) : (s.setCbufLen v).arg0 = s.arg0 := rfl
@[simp] theorem setCbufLen_arg1 (v : BitVec 32) : (s.setCbufLen v).arg1 = s.arg1 := rfl
@[simp] theorem setCbufLen_res0 (v : BitVec 32) : (s.setCbufLen v).res0 = s.res0 := rfl
@[simp] theorem setCbufLen_res1 (v : BitVec 32) : (s.setCbufLen v).res1 = s.res1 := rfl
@[simp] theorem setCbufLen_resTag (v : BitVec 32) : (s.setCbufLen v).resTag = s.resTag := rfl
@[simp] theorem setCbufLen_cbufLen (v : BitVec 32) : (s.setCbufLen v).cbufLen = v := rfl
@[simp] theorem setCbufLen_lanes (v : BitVec 32) : (s.setCbufLen v).lanes = s.lanes := rfl
@[simp] theorem setCbufLen_dict (v : BitVec 32) : (s.setCbufLen v).dict = s.dict := rfl
@[simp] theorem setCbufLen_page (v : BitVec 32) : (s.setCbufLen v).page = s.page := rfl
@[simp] theorem setCbufLen_cbuf (v : BitVec 32) : (s.setCbufLen v).cbuf = s.cbuf := rfl
@[simp] theorem setCbufLen_macroRun (v : BitVec 32) : (s.setCbufLen v).macroRun = s.macroRun := rfl
@[simp] theorem setCbufLen_host (v : BitVec 32) : (s.setCbufLen v).host = s.host := rfl
@[simp] theorem setCbufLen_free (v : BitVec 32) : (s.setCbufLen v).free = s.free := rfl

@[simp] theorem setLanes_status (v : Vector (BitVec 16) 64) : (s.setLanes v).status = s.status := rfl
@[simp] theorem setLanes_cfg (v : Vector (BitVec 16) 64) : (s.setLanes v).cfg = s.cfg := rfl
@[simp] theorem setLanes_stage (v : Vector (BitVec 16) 64) : (s.setLanes v).stage = s.stage := rfl
@[simp] theorem setLanes_arg0 (v : Vector (BitVec 16) 64) : (s.setLanes v).arg0 = s.arg0 := rfl
@[simp] theorem setLanes_arg1 (v : Vector (BitVec 16) 64) : (s.setLanes v).arg1 = s.arg1 := rfl
@[simp] theorem setLanes_res0 (v : Vector (BitVec 16) 64) : (s.setLanes v).res0 = s.res0 := rfl
@[simp] theorem setLanes_res1 (v : Vector (BitVec 16) 64) : (s.setLanes v).res1 = s.res1 := rfl
@[simp] theorem setLanes_resTag (v : Vector (BitVec 16) 64) : (s.setLanes v).resTag = s.resTag := rfl
@[simp] theorem setLanes_cbufLen (v : Vector (BitVec 16) 64) : (s.setLanes v).cbufLen = s.cbufLen := rfl
@[simp] theorem setLanes_lanes (v : Vector (BitVec 16) 64) : (s.setLanes v).lanes = v := rfl
@[simp] theorem setLanes_dict (v : Vector (BitVec 16) 64) : (s.setLanes v).dict = s.dict := rfl
@[simp] theorem setLanes_page (v : Vector (BitVec 16) 64) : (s.setLanes v).page = s.page := rfl
@[simp] theorem setLanes_cbuf (v : Vector (BitVec 16) 64) : (s.setLanes v).cbuf = s.cbuf := rfl
@[simp] theorem setLanes_macroRun (v : Vector (BitVec 16) 64) : (s.setLanes v).macroRun = s.macroRun := rfl
@[simp] theorem setLanes_host (v : Vector (BitVec 16) 64) : (s.setLanes v).host = s.host := rfl
@[simp] theorem setLanes_free (v : Vector (BitVec 16) 64) : (s.setLanes v).free = s.free := rfl

@[simp] theorem setDict_status (v : Dict) : (s.setDict v).status = s.status := rfl
@[simp] theorem setDict_cfg (v : Dict) : (s.setDict v).cfg = s.cfg := rfl
@[simp] theorem setDict_stage (v : Dict) : (s.setDict v).stage = s.stage := rfl
@[simp] theorem setDict_arg0 (v : Dict) : (s.setDict v).arg0 = s.arg0 := rfl
@[simp] theorem setDict_arg1 (v : Dict) : (s.setDict v).arg1 = s.arg1 := rfl
@[simp] theorem setDict_res0 (v : Dict) : (s.setDict v).res0 = s.res0 := rfl
@[simp] theorem setDict_res1 (v : Dict) : (s.setDict v).res1 = s.res1 := rfl
@[simp] theorem setDict_resTag (v : Dict) : (s.setDict v).resTag = s.resTag := rfl
@[simp] theorem setDict_cbufLen (v : Dict) : (s.setDict v).cbufLen = s.cbufLen := rfl
@[simp] theorem setDict_lanes (v : Dict) : (s.setDict v).lanes = s.lanes := rfl
@[simp] theorem setDict_dict (v : Dict) : (s.setDict v).dict = v := rfl
@[simp] theorem setDict_page (v : Dict) : (s.setDict v).page = s.page := rfl
@[simp] theorem setDict_cbuf (v : Dict) : (s.setDict v).cbuf = s.cbuf := rfl
@[simp] theorem setDict_macroRun (v : Dict) : (s.setDict v).macroRun = s.macroRun := rfl
@[simp] theorem setDict_host (v : Dict) : (s.setDict v).host = s.host := rfl
@[simp] theorem setDict_free (v : Dict) : (s.setDict v).free = s.free := rfl

@[simp] theorem setPage_status (v : Mem) : (s.setPage v).status = s.status := rfl
@[simp] theorem setPage_cfg (v : Mem) : (s.setPage v).cfg = s.cfg := rfl
@[simp] theorem setPage_stage (v : Mem) : (s.setPage v).stage = s.stage := rfl
@[simp] theorem setPage_arg0 (v : Mem) : (s.setPage v).arg0 = s.arg0 := rfl
@[simp] theorem setPage_arg1 (v : Mem) : (s.setPage v).arg1 = s.arg1 := rfl
@[simp] theorem setPage_res0 (v : Mem) : (s.setPage v).res0 = s.res0 := rfl
@[simp] theorem setPage_res1 (v : Mem) : (s.setPage v).res1 = s.res1 := rfl
@[simp] theorem setPage_resTag (v : Mem) : (s.setPage v).resTag = s.resTag := rfl
@[simp] theorem setPage_cbufLen (v : Mem) : (s.setPage v).cbufLen = s.cbufLen := rfl
@[simp] theorem setPage_lanes (v : Mem) : (s.setPage v).lanes = s.lanes := rfl
@[simp] theorem setPage_dict (v : Mem) : (s.setPage v).dict = s.dict := rfl
@[simp] theorem setPage_page (v : Mem) : (s.setPage v).page = v := rfl
@[simp] theorem setPage_cbuf (v : Mem) : (s.setPage v).cbuf = s.cbuf := rfl
@[simp] theorem setPage_macroRun (v : Mem) : (s.setPage v).macroRun = s.macroRun := rfl
@[simp] theorem setPage_host (v : Mem) : (s.setPage v).host = s.host := rfl
@[simp] theorem setPage_free (v : Mem) : (s.setPage v).free = s.free := rfl

@[simp] theorem setCbuf_status (v : Mem) : (s.setCbuf v).status = s.status := rfl
@[simp] theorem setCbuf_cfg (v : Mem) : (s.setCbuf v).cfg = s.cfg := rfl
@[simp] theorem setCbuf_stage (v : Mem) : (s.setCbuf v).stage = s.stage := rfl
@[simp] theorem setCbuf_arg0 (v : Mem) : (s.setCbuf v).arg0 = s.arg0 := rfl
@[simp] theorem setCbuf_arg1 (v : Mem) : (s.setCbuf v).arg1 = s.arg1 := rfl
@[simp] theorem setCbuf_res0 (v : Mem) : (s.setCbuf v).res0 = s.res0 := rfl
@[simp] theorem setCbuf_res1 (v : Mem) : (s.setCbuf v).res1 = s.res1 := rfl
@[simp] theorem setCbuf_resTag (v : Mem) : (s.setCbuf v).resTag = s.resTag := rfl
@[simp] theorem setCbuf_cbufLen (v : Mem) : (s.setCbuf v).cbufLen = s.cbufLen := rfl
@[simp] theorem setCbuf_lanes (v : Mem) : (s.setCbuf v).lanes = s.lanes := rfl
@[simp] theorem setCbuf_dict (v : Mem) : (s.setCbuf v).dict = s.dict := rfl
@[simp] theorem setCbuf_page (v : Mem) : (s.setCbuf v).page = s.page := rfl
@[simp] theorem setCbuf_cbuf (v : Mem) : (s.setCbuf v).cbuf = v := rfl
@[simp] theorem setCbuf_macroRun (v : Mem) : (s.setCbuf v).macroRun = s.macroRun := rfl
@[simp] theorem setCbuf_host (v : Mem) : (s.setCbuf v).host = s.host := rfl
@[simp] theorem setCbuf_free (v : Mem) : (s.setCbuf v).free = s.free := rfl

@[simp] theorem setMacroRun_status (v : Option MacroRun) : (s.setMacroRun v).status = s.status := rfl
@[simp] theorem setMacroRun_cfg (v : Option MacroRun) : (s.setMacroRun v).cfg = s.cfg := rfl
@[simp] theorem setMacroRun_stage (v : Option MacroRun) : (s.setMacroRun v).stage = s.stage := rfl
@[simp] theorem setMacroRun_arg0 (v : Option MacroRun) : (s.setMacroRun v).arg0 = s.arg0 := rfl
@[simp] theorem setMacroRun_arg1 (v : Option MacroRun) : (s.setMacroRun v).arg1 = s.arg1 := rfl
@[simp] theorem setMacroRun_res0 (v : Option MacroRun) : (s.setMacroRun v).res0 = s.res0 := rfl
@[simp] theorem setMacroRun_res1 (v : Option MacroRun) : (s.setMacroRun v).res1 = s.res1 := rfl
@[simp] theorem setMacroRun_resTag (v : Option MacroRun) : (s.setMacroRun v).resTag = s.resTag := rfl
@[simp] theorem setMacroRun_cbufLen (v : Option MacroRun) : (s.setMacroRun v).cbufLen = s.cbufLen := rfl
@[simp] theorem setMacroRun_lanes (v : Option MacroRun) : (s.setMacroRun v).lanes = s.lanes := rfl
@[simp] theorem setMacroRun_dict (v : Option MacroRun) : (s.setMacroRun v).dict = s.dict := rfl
@[simp] theorem setMacroRun_page (v : Option MacroRun) : (s.setMacroRun v).page = s.page := rfl
@[simp] theorem setMacroRun_cbuf (v : Option MacroRun) : (s.setMacroRun v).cbuf = s.cbuf := rfl
@[simp] theorem setMacroRun_macroRun (v : Option MacroRun) : (s.setMacroRun v).macroRun = v := rfl
@[simp] theorem setMacroRun_host (v : Option MacroRun) : (s.setMacroRun v).host = s.host := rfl
@[simp] theorem setMacroRun_free (v : Option MacroRun) : (s.setMacroRun v).free = s.free := rfl

@[simp] theorem setHost_status (v : HostSide) : (s.setHost v).status = s.status := rfl
@[simp] theorem setHost_cfg (v : HostSide) : (s.setHost v).cfg = s.cfg := rfl
@[simp] theorem setHost_stage (v : HostSide) : (s.setHost v).stage = s.stage := rfl
@[simp] theorem setHost_arg0 (v : HostSide) : (s.setHost v).arg0 = s.arg0 := rfl
@[simp] theorem setHost_arg1 (v : HostSide) : (s.setHost v).arg1 = s.arg1 := rfl
@[simp] theorem setHost_res0 (v : HostSide) : (s.setHost v).res0 = s.res0 := rfl
@[simp] theorem setHost_res1 (v : HostSide) : (s.setHost v).res1 = s.res1 := rfl
@[simp] theorem setHost_resTag (v : HostSide) : (s.setHost v).resTag = s.resTag := rfl
@[simp] theorem setHost_cbufLen (v : HostSide) : (s.setHost v).cbufLen = s.cbufLen := rfl
@[simp] theorem setHost_lanes (v : HostSide) : (s.setHost v).lanes = s.lanes := rfl
@[simp] theorem setHost_dict (v : HostSide) : (s.setHost v).dict = s.dict := rfl
@[simp] theorem setHost_page (v : HostSide) : (s.setHost v).page = s.page := rfl
@[simp] theorem setHost_cbuf (v : HostSide) : (s.setHost v).cbuf = s.cbuf := rfl
@[simp] theorem setHost_macroRun (v : HostSide) : (s.setHost v).macroRun = s.macroRun := rfl
@[simp] theorem setHost_host (v : HostSide) : (s.setHost v).host = v := rfl
@[simp] theorem setHost_free (v : HostSide) : (s.setHost v).free = s.free := rfl

@[simp] theorem setFree_status (v : FreeKey) : (s.setFree v).status = s.status := rfl
@[simp] theorem setFree_cfg (v : FreeKey) : (s.setFree v).cfg = s.cfg := rfl
@[simp] theorem setFree_stage (v : FreeKey) : (s.setFree v).stage = s.stage := rfl
@[simp] theorem setFree_arg0 (v : FreeKey) : (s.setFree v).arg0 = s.arg0 := rfl
@[simp] theorem setFree_arg1 (v : FreeKey) : (s.setFree v).arg1 = s.arg1 := rfl
@[simp] theorem setFree_res0 (v : FreeKey) : (s.setFree v).res0 = s.res0 := rfl
@[simp] theorem setFree_res1 (v : FreeKey) : (s.setFree v).res1 = s.res1 := rfl
@[simp] theorem setFree_resTag (v : FreeKey) : (s.setFree v).resTag = s.resTag := rfl
@[simp] theorem setFree_cbufLen (v : FreeKey) : (s.setFree v).cbufLen = s.cbufLen := rfl
@[simp] theorem setFree_lanes (v : FreeKey) : (s.setFree v).lanes = s.lanes := rfl
@[simp] theorem setFree_dict (v : FreeKey) : (s.setFree v).dict = s.dict := rfl
@[simp] theorem setFree_page (v : FreeKey) : (s.setFree v).page = s.page := rfl
@[simp] theorem setFree_cbuf (v : FreeKey) : (s.setFree v).cbuf = s.cbuf := rfl
@[simp] theorem setFree_macroRun (v : FreeKey) : (s.setFree v).macroRun = s.macroRun := rfl
@[simp] theorem setFree_host (v : FreeKey) : (s.setFree v).host = s.host := rfl
@[simp] theorem setFree_free (v : FreeKey) : (s.setFree v).free = v := rfl

end Sys2Proof.Machine.State
end

