-- ==== Sys2Proof/Laws/Ops.lean ====
section
/-!
SUPPORT. What the shared operations do: ending a command, the gates, discarding a macro command's run, and the buffers.
-/

namespace Sys2Proof.Machine

/-! ### Ending a command -/

section
variable (k : ResultCode) (s : State)

@[simp] theorem endWith_cfgValid : (endWith k s).status.cfgValid = s.status.cfgValid := rfl
@[simp] theorem endWith_dictValid : (endWith k s).status.dictValid = s.status.dictValid := rfl
@[simp] theorem endWith_busy : (endWith k s).status.busy = false := rfl
@[simp] theorem endWith_result : (endWith k s).status.result = k := rfl
@[simp] theorem endWith_cfg : (endWith k s).cfg = s.cfg := rfl
@[simp] theorem endWith_stage : (endWith k s).stage = s.stage := rfl
@[simp] theorem endWith_arg0 : (endWith k s).arg0 = s.arg0 := rfl
@[simp] theorem endWith_arg1 : (endWith k s).arg1 = s.arg1 := rfl
@[simp] theorem endWith_res0 : (endWith k s).res0 = s.res0 := rfl
@[simp] theorem endWith_res1 : (endWith k s).res1 = s.res1 := rfl
@[simp] theorem endWith_resTag : (endWith k s).resTag = s.resTag := rfl
@[simp] theorem endWith_cbufLen : (endWith k s).cbufLen = s.cbufLen := rfl
@[simp] theorem endWith_lanes : (endWith k s).lanes = s.lanes := rfl
@[simp] theorem endWith_dict : (endWith k s).dict = s.dict := rfl
@[simp] theorem endWith_page : (endWith k s).page = s.page := rfl
@[simp] theorem endWith_cbuf : (endWith k s).cbuf = s.cbuf := rfl
@[simp] theorem endWith_macroRun : (endWith k s).macroRun = s.macroRun := rfl
@[simp] theorem endWith_host : (endWith k s).host = s.host := rfl
@[simp] theorem endWith_free : (endWith k s).free = s.free := rfl
@[simp] theorem endWith_pageCell (i : Nat) : pageCell (endWith k s) i = pageCell s i := rfl
@[simp] theorem endWith_cbufCell (i : Nat) : cbufCell (endWith k s) i = cbufCell s i := rfl

end

/-- An error ends the command in a next state. -/
theorem raiseError_next {k : ResultCode} {s t : State} (h : raiseError k s = .next t) : t = endWith k s := by
  simpa [raiseError, eq_comm] using h

theorem finishOk_next {s t : State} (h : finishOk s = .next t) : t = endWith .ok s := by
  simpa [finishOk, eq_comm] using h

/-! ### The valid bits -/

section
variable (b : Bool) (s : State)

@[simp] theorem setCfgValid_status : (setCfgValid b s).status = { s.status with cfgValid := b } := rfl
@[simp] theorem setCfgValid_cfg : (setCfgValid b s).cfg = s.cfg := rfl
@[simp] theorem setCfgValid_dict : (setCfgValid b s).dict = s.dict := rfl
@[simp] theorem setDictValid_status : (setDictValid b s).status = { s.status with dictValid := b } := rfl
@[simp] theorem setDictValid_cfg : (setDictValid b s).cfg = s.cfg := rfl
@[simp] theorem setDictValid_dict : (setDictValid b s).dict = s.dict := rfl

end

/-! ### The discarded run -/

section
variable (s : State)

@[simp] theorem discardRun_status : (discardRun s).status = { s.status with dictValid := false } := rfl
@[simp] theorem discardRun_cfg : (discardRun s).cfg = s.cfg := rfl
@[simp] theorem discardRun_stage : (discardRun s).stage = s.stage := rfl
@[simp] theorem discardRun_arg0 : (discardRun s).arg0 = s.arg0 := rfl
@[simp] theorem discardRun_arg1 : (discardRun s).arg1 = s.arg1 := rfl
@[simp] theorem discardRun_res0 : (discardRun s).res0 = s.res0 := rfl
@[simp] theorem discardRun_res1 : (discardRun s).res1 = s.res1 := rfl
@[simp] theorem discardRun_resTag : (discardRun s).resTag = s.resTag := rfl
@[simp] theorem discardRun_cbufLen : (discardRun s).cbufLen = s.cbufLen := rfl
@[simp] theorem discardRun_lanes : (discardRun s).lanes = s.lanes := rfl
@[simp] theorem discardRun_page : (discardRun s).page = s.page := rfl
@[simp] theorem discardRun_cbuf : (discardRun s).cbuf = s.cbuf := rfl
@[simp] theorem discardRun_macroRun : (discardRun s).macroRun = none := rfl
@[simp] theorem discardRun_host : (discardRun s).host = s.host := rfl
@[simp] theorem discardRun_pageCell (i : Nat) : pageCell (discardRun s) i = pageCell s i := rfl
@[simp] theorem discardRun_cbufCell (i : Nat) : cbufCell (discardRun s) i = cbufCell s i := rfl

end

/-! ### The gates: all that each can do -/

theorem needCfg_next {s t : State} {k : Result} (h : needCfg s k = .next t) :
    (s.status.cfgValid = true ∧ k = .next t) ∨ (s.status.cfgValid = false ∧ t = endWith .badCommand s) := by
  unfold needCfg at h
  split at h <;> rename_i hc
  · exact .inl ⟨hc, h⟩
  · exact .inr ⟨Bool.eq_false_iff.2 hc, raiseError_next h⟩

theorem needDict_next {s t : State} {k : Result} (h : needDict s k = .next t) :
    (s.status.cfgValid = true ∧ s.status.dictValid = true ∧ k = .next t) ∨
    ((s.status.cfgValid = false ∨ s.status.dictValid = false) ∧ t = endWith .badCommand s) := by
  rcases needCfg_next h with ⟨hc, h⟩ | ⟨hc, rfl⟩
  · split at h <;> rename_i hd
    · exact .inl ⟨hc, hd, h⟩
    · exact .inr ⟨.inr (Bool.eq_false_iff.2 hd), raiseError_next h⟩
  · exact .inr ⟨.inl hc, rfl⟩

theorem needEntry_next {s t : State} {k : Result} (h : needEntry s k = .next t) :
    (s.arg1.toNat < cap s.cfg ∧ k = .next t) ∨ (cap s.cfg ≤ s.arg1.toNat ∧ t = endWith .badCommand s) := by
  unfold needEntry argEntry at h
  split at h
  · exact .inl ⟨‹_›, h⟩
  · exact .inr ⟨by omega, raiseError_next h⟩

theorem needCbufLen_next {p : Params} {s t : State} {k : Result} (h : needCbufLen p s k = .next t) :
    (s.cbufLen.toNat ≤ p.maxCbufWords ∧ k = .next t) ∨
    (p.maxCbufWords < s.cbufLen.toNat ∧ t = endWith .badCommand s) := by
  unfold needCbufLen at h
  split at h
  · exact .inl ⟨‹_›, h⟩
  · exact .inr ⟨by omega, raiseError_next h⟩

/-- A passed gate lets the command through. -/
theorem needCfg_pass {s : State} {k : Result} (h : s.status.cfgValid = true) : needCfg s k = k := by
  simp [needCfg, h]

theorem needDict_pass {s : State} {k : Result} (h : s.status.cfgValid = true) (h' : s.status.dictValid = true) :
    needDict s k = k := by
  simp [needDict, needCfg, h, h']

theorem needEntry_pass {s : State} {k : Result} (h : s.arg1.toNat < cap s.cfg) : needEntry s k = k := by
  simp [needEntry, argEntry, h]

theorem needCbufLen_pass {p : Params} {s : State} {k : Result} (h : s.cbufLen.toNat ≤ p.maxCbufWords) :
    needCbufLen p s k = k := by
  simp [needCbufLen, h]

/-! ### Buffers -/

/-- A read after a write: the value written at the index written, everything else as before. -/
theorem memGet_memSet (m : Mem) (a : Nat) (v : Word) (b : Nat) :
    memGet (memSet m a v) b = if b = a then some v else memGet m b := by
  induction m with
  | nil => simp [memSet, memGet]
  | cons x m ih =>
    obtain ⟨c, u⟩ := x
    unfold memSet
    split
    · simp only [memGet]
    · split
      · subst_vars; simp only [memGet]; split <;> simp_all
      · simp only [memGet, ih]
        split
        · rw [if_neg (by omega)]
        · rfl

/-- The indices after a write are those before and the one written. -/
theorem memSet_keys {m : Mem} {a : Nat} {v : Word} {x : Nat × Word} (h : x ∈ memSet m a v) :
    x.1 = a ∨ x ∈ m := by
  induction m with
  | nil => simp [memSet] at h; simp [h]
  | cons y m ih =>
    obtain ⟨c, u⟩ := y
    unfold memSet at h
    split at h
    · rcases List.mem_cons.1 h with rfl | h
      · exact .inl rfl
      · exact .inr h
    · split at h
      · rcases List.mem_cons.1 h with rfl | h
        · exact .inl rfl
        · exact .inr (List.mem_cons_of_mem _ h)
      · rcases List.mem_cons.1 h with rfl | h
        · exact .inr (List.mem_cons_self)
        · rcases ih h with h | h
          · exact .inl h
          · exact .inr (List.mem_cons_of_mem _ h)

/-- A write keeps the canonical form. -/
theorem memSet_wf {m : Mem} (a : Nat) (v : Word) (h : Mem.wf m) : Mem.wf (memSet m a v) := by
  induction m with
  | nil => simp [memSet]
  | cons x m ih =>
    obtain ⟨c, u⟩ := x
    have h := List.pairwise_cons.1 h
    unfold memSet
    split
    · refine List.pairwise_cons.2 ⟨fun y hy => ?_, List.pairwise_cons.2 h⟩
      rcases List.mem_cons.1 hy with rfl | hy
      · simpa
      · have := h.1 y hy; simp_all; omega
    · split
      · subst_vars; exact List.pairwise_cons.2 h
      · refine List.pairwise_cons.2 ⟨fun y hy => ?_, ih h.2⟩
        rcases memSet_keys hy with hy | hy
        · simp_all; omega
        · exact h.1 y hy

/-- A block write keeps the canonical form. -/
theorem memSetFrom_wf {m : Mem} (vs : List Word) (a : Nat) (h : Mem.wf m) : Mem.wf (memSetFrom m a vs) := by
  induction vs generalizing m a with
  | nil => exact h
  | cons v vs ih => exact ih (a + 1) (memSet_wf a v h)

/-- The indices after a block write. -/
theorem memSetFrom_keys {m : Mem} {vs : List Word} {a : Nat} {x : Nat × Word} (h : x ∈ memSetFrom m a vs) :
    (a ≤ x.1 ∧ x.1 < a + vs.length) ∨ x ∈ m := by
  induction vs generalizing m a with
  | nil => exact .inr h
  | cons v vs ih =>
    rcases ih h with ⟨h1, h2⟩ | h
    · left; simp; omega
    · rcases memSet_keys h with h | h
      · left; simp; omega
      · exact .inr h

/-- A read after a block write: the values written inside the block, everything else as before. -/
theorem memGet_memSetFrom (vs : List Word) (m : Mem) (a b : Nat) :
    memGet (memSetFrom m a vs) b = if a ≤ b ∧ b < a + vs.length then vs[b - a]? else memGet m b := by
  induction vs generalizing m a with
  | nil => simp [memSetFrom]
  | cons v vs ih =>
    rw [memSetFrom, ih, memGet_memSet]
    by_cases h1 : a + 1 ≤ b ∧ b < a + 1 + vs.length
    · rw [if_pos h1, if_pos (by simp; omega), show b - a = (b - (a + 1)) + 1 by omega]; simp
    · rw [if_neg h1]
      by_cases h2 : b = a
      · subst h2; simp
      · rw [if_neg h2, if_neg (by simp; omega)]

/-- A cell of `PAGE` after a block store at index 0. -/
theorem pageCell_setPage_memSetFrom (s : State) (vs : List Word) (i : Nat) :
    pageCell (s.setPage (memSetFrom s.page 0 vs)) i = if h : i < vs.length then vs[i] else pageCell s i := by
  simp only [pageCell, State.setPage_page, memGet_memSetFrom, State.setPage_free]
  by_cases h : i < vs.length <;> simp [h]

/-- A cell of `CBUF` after a block store at index 0. -/
theorem cbufCell_setCbuf_memSetFrom (s : State) (vs : List Word) (i : Nat) :
    cbufCell (s.setCbuf (memSetFrom s.cbuf 0 vs)) i = if h : i < vs.length then vs[i] else cbufCell s i := by
  simp only [cbufCell, State.setCbuf_cbuf, memGet_memSetFrom, State.setCbuf_free]
  by_cases h : i < vs.length <;> simp [h]

end Sys2Proof.Machine
end

