-- ==== Sys2Proof/Laws/Operands.lean ====
section
/-!
SUPPORT. The fields of words and the quantities derived from a legal configuration.
-/

namespace Sys2Proof.Machine

/-! ### Fields of a word -/

theorem lowPart_toNat (n : Nat) (v : Word) : (lowPart n v).toNat = v.toNat % 2 ^ n := by
  simp only [lowPart, BitVec.toNat_setWidth]
  exact Nat.mod_eq_of_lt (lt_of_le_of_lt (Nat.mod_le _ _) v.isLt)

theorem truncW_toNat (c : Cfg) (v : Word) : (truncW c v).toNat = v.toNat % 2 ^ c.W.bits := lowPart_toNat _ _

/-- A truncated word has `W` bits. -/
theorem truncW_wordOk (c : Cfg) (v : Word) : WordOk c (truncW c v) := by
  rw [WordOk, truncW_toNat]; exact Nat.mod_lt _ (Nat.two_pow_pos _)

/-- Truncation leaves a word of `W` bits alone. -/
theorem truncW_of_wordOk {c : Cfg} {w : Word} (h : WordOk c w) : truncW c w = w := by
  apply BitVec.eq_of_toNat_eq; rw [truncW_toNat]; exact Nat.mod_eq_of_lt h

theorem argWord_wordOk (s : State) : WordOk s.cfg (argWord s) := truncW_wordOk _ _

theorem Width.bits_bounds (w : Width) : 32 ≤ w.bits ∧ w.bits ≤ 64 := by cases w <;> simp [Width.bits]

theorem wordOk_of_lt {c : Cfg} {w : Word} (h : w.toNat < 2 ^ 32) : WordOk c w :=
  lt_of_lt_of_le h (Nat.pow_le_pow_right (by omega) (Width.bits_bounds c.W).1)

theorem hb_toNat (c : Cfg) (w : Word) : (hb c w).toNat = w.toNat / 2 ^ c.L := by
  simp [hb, Nat.shiftRight_eq_div_pow]

theorem lb_toNat (c : Cfg) (w : Word) (h : c.L ≤ 16) : (lb c w).toNat = w.toNat % 2 ^ c.L := by
  have hp : 2 ^ c.L ≤ 2 ^ 16 := Nat.pow_le_pow_right (by omega) h
  simp only [lb, BitVec.toNat_and, BitVec.toNat_ofNat]
  rw [Nat.mod_eq_of_lt (a := 2 ^ c.L - 1) (by omega), Nat.and_two_pow_sub_one_eq_mod]

theorem lb_lt (c : Cfg) (w : Word) (h : c.L ≤ 16) : (lb c w).toNat < 2 ^ c.L := by
  rw [lb_toNat c w h]; exact Nat.mod_lt _ (Nat.two_pow_pos _)

theorem joinParts_toNat (c : Cfg) (h l : Word) (hh : h.toNat * 2 ^ c.L < 2 ^ 64) (hl : l.toNat < 2 ^ c.L) :
    (joinParts c h l).toNat = h.toNat * 2 ^ c.L + l.toNat := by
  simp only [joinParts, BitVec.toNat_or, BitVec.toNat_shiftLeft, Nat.shiftLeft_eq]
  rw [Nat.mod_eq_of_lt hh, Nat.mul_comm, Nat.two_pow_add_eq_or_of_lt hl]

/-- A word rebuilt from its own parts is itself (30_encoding.md R75). -/
theorem joinParts_hb_lb (c : Cfg) (w : Word) (h : c.L ≤ 16) : joinParts c (hb c w) (lb c w) = w := by
  apply BitVec.eq_of_toNat_eq
  have hd := Nat.div_add_mod w.toNat (2 ^ c.L)
  have hw := w.isLt
  rw [Nat.mul_comm] at hd
  rw [joinParts_toNat, hb_toNat, lb_toNat c w h, hd]
  · rw [hb_toNat]; omega
  · exact lb_lt c w h

/-- A word rebuilt from an entry's high bits and any low bits has `W` bits and those high bits. -/
theorem rebuilt_toNat (c : Cfg) (v x : Word) (h : c.L ≤ 16) :
    (joinParts c (hb c v) (lb c x)).toNat = v.toNat / 2 ^ c.L * 2 ^ c.L + x.toNat % 2 ^ c.L := by
  have hd := Nat.div_mul_le_self v.toNat (2 ^ c.L)
  have hw := v.isLt
  rw [joinParts_toNat, hb_toNat, lb_toNat c x h]
  · rw [hb_toNat]; omega
  · exact lb_lt c x h

theorem rebuilt_wordOk (c : Cfg) (v x : Word) (h : c.L ≤ 16) (hv : WordOk c v) :
    WordOk c (joinParts c (hb c v) (lb c x)) := by
  rw [WordOk, rebuilt_toNat c v x h]
  have hx : x.toNat % 2 ^ c.L < 2 ^ c.L := Nat.mod_lt _ (Nat.two_pow_pos _)
  have hL : c.L ≤ c.W.bits := by have := Width.bits_bounds c.W; omega
  have hW : 2 ^ c.W.bits = 2 ^ (c.W.bits - c.L) * 2 ^ c.L := by rw [← Nat.pow_add]; congr 1; omega
  have hq : v.toNat / 2 ^ c.L < 2 ^ (c.W.bits - c.L) := by
    rw [Nat.div_lt_iff_lt_mul (Nat.two_pow_pos _), ← hW]; exact hv
  calc _ < v.toNat / 2 ^ c.L * 2 ^ c.L + 2 ^ c.L := by omega
    _ = (v.toNat / 2 ^ c.L + 1) * 2 ^ c.L := by ring
    _ ≤ 2 ^ (c.W.bits - c.L) * 2 ^ c.L := Nat.mul_le_mul_right _ hq
    _ = 2 ^ c.W.bits := hW.symm

/-! ### Block stores -/

/-- A block store of `PAGE` or `CBUF` keeps the canonical form. -/
theorem pageStore_wf {s : State} (vs : List Word) (h : Mem.wf s.page) : Mem.wf (pageStore s vs).page :=
  memSetFrom_wf _ 0 h

theorem cbufStore_wf {s : State} (vs : List Word) (h : Mem.wf s.cbuf) : Mem.wf (cbufStore s vs).cbuf :=
  memSetFrom_wf _ 0 h

/-! ### Legal configurations -/

theorem isPowerOfTwo_iff (n : Nat) : isPowerOfTwo n = true ↔ ∃ a, n = 2 ^ a := by
  simp only [isPowerOfTwo, bne_iff_ne, ne_eq, Bool.and_eq_true, beq_iff_eq]
  constructor
  · rintro ⟨-, h⟩; exact ⟨_, h.symm⟩
  · rintro ⟨a, rfl⟩; exact ⟨by positivity, by rw [Nat.log2_two_pow]⟩

/-- What a legal configuration says of its fields (45_system.md R212). -/
structure CfgFacts (p : Params) (c : Cfg) : Prop where
  lowBits : 4 ≤ c.L ∧ c.L ≤ 16
  setSize : ∃ a, c.S = 2 ^ a
  numSets : ∃ b, c.M = 2 ^ b
  capacity : 2 ≤ c.S * c.M ∧ c.S * c.M ≤ 65536
  dm : c.org = .dm → c.S = 1
  fal : c.org = .fal → c.M = 1
  fah : c.org = .fah → c.M = 1
  stride : 1 ≤ c.stride
  pageWords : 1 ≤ c.N ∧ c.N ≤ p.maxPageWords

theorem cfgLegal_iff (p : Params) (c : Cfg) : cfgLegal p c = true ↔ CfgFacts p c := by
  constructor
  · intro h
    simp only [cfgLegal, legalGeometry, Bool.and_eq_true, decide_eq_true_eq, isPowerOfTwo_iff] at h
    obtain ⟨⟨⟨⟨⟨⟨h1, h2⟩, ⟨⟨h3, h4⟩, h5⟩, h6⟩, h7⟩, h8⟩, h9⟩, h10⟩ := h
    refine ⟨⟨h1, h2⟩, h3, h4, ⟨h5, h6⟩, ?_, ?_, ?_, h8, h9, h10⟩ <;>
      · intro ho; simpa [geometryFits, ho] using h7
  · intro h
    obtain ⟨⟨h1, h2⟩, h3, h4, ⟨h5, h6⟩, h7, h8, h9, h10, h11, h12⟩ := h
    simp only [cfgLegal, legalGeometry, Bool.and_eq_true, decide_eq_true_eq, isPowerOfTwo_iff]
    refine ⟨⟨⟨⟨⟨⟨h1, h2⟩, ⟨⟨h3, h4⟩, h5⟩, h6⟩, ?_⟩, h10⟩, h11⟩, h12⟩
    cases ho : c.org <;> simp_all [geometryFits]

theorem CfgOk.facts {p : Params} {c : Cfg} (h : CfgOk p c) : CfgFacts p c := (cfgLegal_iff p c).1 h.1

theorem CfgFacts.setSize_pos {p : Params} {c : Cfg} (h : CfgFacts p c) : 0 < c.S := by
  obtain ⟨a, ha⟩ := h.setSize; rw [ha]; positivity

theorem CfgFacts.numSets_pos {p : Params} {c : Cfg} (h : CfgFacts p c) : 0 < c.M := by
  obtain ⟨a, ha⟩ := h.numSets; rw [ha]; positivity

/-- `CAP = 2^IB` and `IB` lies in the packer's range (00_scope.md R10). -/
theorem CfgFacts.indexBits {p : Params} {c : Cfg} (h : CfgFacts p c) :
    cap c = 2 ^ indexBits c ∧ 1 ≤ indexBits c ∧ indexBits c ≤ 16 := by
  obtain ⟨a, ha⟩ := h.setSize
  obtain ⟨b, hb⟩ := h.numSets
  have hc : cap c = 2 ^ (a + b) := by rw [cap, ha, hb, Nat.pow_add]
  have hi : Machine.indexBits c = a + b := by rw [Machine.indexBits, hc, Nat.log2_two_pow]
  have hcap := h.capacity
  rw [← cap, hc] at hcap
  rw [hi]
  refine ⟨hc, ?_, ?_⟩
  · by_contra hlt
    have : a + b = 0 := by omega
    rw [this] at hcap; omega
  · by_contra hgt
    have := Nat.pow_le_pow_right (n := 2) (by omega) (show 17 ≤ a + b by omega)
    omega

/-- At least two values fit a packed word (30_encoding.md R78). -/
theorem reps_bounds (c : Cfg) {k : Nat} (h1 : 1 ≤ k) (h16 : k ≤ 16) : 2 ≤ reps c k ∧ reps c k ≤ 64 := by
  have hW := Width.bits_bounds c.W
  unfold reps
  constructor
  · rw [Nat.le_div_iff_mul_le (by omega)]; omega
  · exact le_trans (Nat.div_le_self _ _) hW.2

theorem reps_mul_le (c : Cfg) (k : Nat) : reps c k * k ≤ c.W.bits := Nat.div_mul_le_self _ _

theorem legalK_iff (k : Nat) : legalK k = true ↔ 1 ≤ k ∧ k ≤ 16 := by simp [legalK]

/-! ### Entries -/

theorem entryOf_set {c : Cfg} {s y : Nat} (hy : y < c.S) : setOfEntry c (entryOf c s y) = s := by
  unfold setOfEntry entryOf
  rw [Nat.add_comm, Nat.add_mul_div_right _ _ (by omega), Nat.div_eq_of_lt hy, Nat.zero_add]

theorem entryOf_way {c : Cfg} {s y : Nat} (hy : y < c.S) : wayOfEntry c (entryOf c s y) = y := by
  unfold wayOfEntry entryOf
  rw [Nat.add_comm, Nat.add_mul_mod_self_right, Nat.mod_eq_of_lt hy]

theorem entryOf_setOfEntry (c : Cfg) (e : Nat) : entryOf c (setOfEntry c e) (wayOfEntry c e) = e := by
  unfold entryOf setOfEntry wayOfEntry
  rw [Nat.mul_comm]; exact Nat.div_add_mod e c.S

theorem entryOf_lt {c : Cfg} {s y : Nat} (hs : s < c.M) (hy : y < c.S) : entryOf c s y < cap c := by
  unfold entryOf cap
  have : (s + 1) * c.S ≤ c.M * c.S := Nat.mul_le_mul_right _ hs
  rw [Nat.mul_comm c.S]; linarith [Nat.succ_mul s c.S]

theorem setOfEntry_lt {c : Cfg} {e : Nat} (he : e < cap c) : setOfEntry c e < c.M := by
  unfold setOfEntry; unfold cap at he
  exact Nat.div_lt_of_lt_mul he

theorem wayOfEntry_lt {c : Cfg} {e : Nat} (he : e < cap c) : wayOfEntry c e < c.S := by
  unfold wayOfEntry; unfold cap at he
  exact Nat.mod_lt _ (Nat.pos_of_ne_zero (by rintro h; simp [h] at he))

end Sys2Proof.Machine
end

