-- ==== Sys2Proof/Laws/Dictionary.lean ====
section
/-!
SUPPORT. What the operations of the dictionary do, once each: `scan` and `candidate`, `promote`, `setValue`, `install`,
`fresh`; and that each keeps the dictionary invariant of 10_state.md R32.
-/

namespace Sys2Proof.Machine

/-- All that `scan` can answer: the first slot of the list with the high bits, or that there is none. -/
theorem scan_cases (c : Cfg) (d : Dict) (h : Word) (es : List Nat) :
    (∃ pre e post, es = pre ++ e :: post ∧ (∀ x ∈ pre, hb c (valAt d x) ≠ h) ∧ hb c (valAt d e) = h ∧
      scan c d h es = some e) ∨
    ((∀ x ∈ es, hb c (valAt d x) ≠ h) ∧ scan c d h es = none) := by
  induction es with
  | nil => right; simp [scan]
  | cons e es ih =>
    by_cases he : hb c (valAt d e) = h
    · left; exact ⟨[], e, es, rfl, by simp, he, by simp [scan, he]⟩
    · rcases ih with ⟨pre, x, post, rfl, h1, h2, h3⟩ | ⟨h1, h2⟩
      · left
        refine ⟨e :: pre, x, post, rfl, ?_, h2, by simp [scan, he, h3]⟩
        intro y hy
        rcases List.mem_cons.1 hy with rfl | hy
        · exact he
        · exact h1 y hy
      · right
        refine ⟨?_, by simp [scan, he, h2]⟩
        intro y hy
        rcases List.mem_cons.1 hy with rfl | hy
        · exact he
        · exact h1 y hy

/-- All that `candidate` can be: the first match of the set, or the victim when nothing matches (41_dictionary.md R124). -/
theorem candidate_cases (p : Params) (c : Cfg) (d : Dict) (w : Word) :
    (candidate p c d w ∈ slotsOf c d (setOf p c w) ∧ hb c (valAt d (candidate p c d w)) = hb c w) ∨
    ((∀ x ∈ slotsOf c d (setOf p c w), hb c (valAt d x) ≠ hb c w) ∧ candidate p c d w = victim p c d w) := by
  unfold candidate
  rcases scan_cases c d (hb c w) (slotsOf c d (setOf p c w)) with ⟨pre, e, post, h1, -, h3, h4⟩ | ⟨h1, h2⟩
  · left; rw [h4]; exact ⟨by rw [h1]; simp, h3⟩
  · right; rw [h2]; exact ⟨h1, rfl⟩

/-- A candidate whose high bits differ is the victim (42_word_classifier.md R154). -/
theorem candidate_eq_victim {p : Params} {c : Cfg} {d : Dict} {w : Word}
    (h : hb c (valAt d (candidate p c d w)) ≠ hb c w) : candidate p c d w = victim p c d w := by
  rcases candidate_cases p c d w with ⟨-, h'⟩ | ⟨-, h'⟩
  · exact absurd h' h
  · exact h'

/-! ### Updates -/

@[simp] theorem setValue_val (d : Dict) (e : Nat) (v : Word) : (setValue d e v).val = d.val.set e v := rfl
@[simp] theorem setValue_recency (d : Dict) (e : Nat) (v : Word) : (setValue d e v).recency = d.recency := rfl
@[simp] theorem promote_val (c : Cfg) (d : Dict) (e : Nat) : (promote c d e).val = d.val := rfl

@[simp] theorem promote_valAt (c : Cfg) (d : Dict) (e x : Nat) : valAt (promote c d e) x = valAt d x := rfl

theorem setValue_valAt (d : Dict) (e x : Nat) (v : Word) (he : e < d.val.length) :
    valAt (setValue d e v) x = if x = e then v else valAt d x := by
  simp only [valAt, setValue_val, List.getD_eq_getElem?_getD, List.getElem?_set]
  by_cases h : e = x
  · subst h; simp [he]
  · simp [h, Ne.symm h]

@[simp] theorem setValue_recencyOf (d : Dict) (e s : Nat) (v : Word) :
    recencyOf (setValue d e v) s = recencyOf d s := rfl

theorem promote_recencyOf (c : Cfg) (d : Dict) (e s : Nat) (hs : setOfEntry c e < d.recency.length) :
    recencyOf (promote c d e) s =
      if s = setOfEntry c e then toFront (wayOfEntry c e) (recencyOf d s) else recencyOf d s := by
  simp only [recencyOf, promote, List.getD_eq_getElem?_getD, List.getElem?_set]
  by_cases h : setOfEntry c e = s
  · subst h; simp [hs]
  · simp [h, Ne.symm h]

/-- Moving a member to the front permutes a list without repeats. -/
theorem toFront_perm {y : Nat} {l : List Nat} (hy : y ∈ l) (hl : l.Nodup) : (toFront y l).Perm l := by
  have h : l.filter (· ≠ y) = l.erase y := by
    rw [hl.erase_eq_filter]; congr 1; funext x; by_cases hx : x = y <;> simp [hx]
  rw [toFront, h]
  exact (List.perm_cons_erase hy).symm

/-! ### The invariant R32 -/

theorem fresh_dictOk (c : Cfg) : DictOk c (fresh c) where
  valLength := by simp [fresh]
  valWidth := by
    intro v hv
    rw [List.eq_of_mem_replicate hv]
    exact wordOk_of_lt (by decide)
  recencyLength := by simp [fresh]
  recencyPerm := by
    intro l hl
    rw [List.eq_of_mem_replicate hl]

theorem DictOk.recencyOf_perm {c : Cfg} {d : Dict} (h : DictOk c d) {s : Nat} (hs : s < c.M) :
    (recencyOf d s).Perm (List.range c.S) := by
  have hs' : s < d.recency.length := by rw [h.recencyLength]; exact hs
  have : recencyOf d s = d.recency[s] := by simp [recencyOf, hs']
  rw [this]
  exact h.recencyPerm _ (List.getElem_mem hs')

theorem DictOk.valAt_wordOk {c : Cfg} {d : Dict} (h : DictOk c d) (e : Nat) : WordOk c (valAt d e) := by
  unfold valAt
  by_cases he : e < d.val.length
  · simp only [List.getD_eq_getElem?_getD, he, List.getElem?_eq_getElem, Option.getD_some]
    exact h.valWidth _ (List.getElem_mem he)
  · rw [List.getD_eq_default _ _ (by omega)]
    exact Nat.two_pow_pos _

theorem setValue_dictOk {c : Cfg} {d : Dict} (h : DictOk c d) (e : Nat) {v : Word} (hv : WordOk c v) :
    DictOk c (setValue d e v) where
  valLength := by simp [h.valLength]
  valWidth := by
    intro x hx
    rcases List.mem_or_eq_of_mem_set hx with hx | rfl
    · exact h.valWidth x hx
    · exact hv
  recencyLength := h.recencyLength
  recencyPerm := h.recencyPerm

theorem promote_dictOk {c : Cfg} {d : Dict} (h : DictOk c d) {e : Nat} (he : e < cap c) :
    DictOk c (promote c d e) where
  valLength := h.valLength
  valWidth := h.valWidth
  recencyLength := by simp [promote, h.recencyLength]
  recencyPerm := by
    intro l hl
    rcases List.mem_or_eq_of_mem_set hl with hl | rfl
    · exact h.recencyPerm l hl
    · have hp := h.recencyOf_perm (setOfEntry_lt he)
      refine (toFront_perm ?_ (hp.nodup_iff.2 List.nodup_range)).trans hp
      exact hp.mem_iff.2 (List.mem_range.2 (wayOfEntry_lt he))

theorem install_dictOk {c : Cfg} {d : Dict} (h : DictOk c d) {e : Nat} (he : e < cap c) {w : Word} (hw : WordOk c w) :
    DictOk c (install c d e w) := promote_dictOk (setValue_dictOk h e hw) he

/-! ### References stay in range -/

/-- The set of a word, by organization (41_dictionary.md R121). -/
theorem setOf_eq (p : Params) (c : Cfg) (w : Word) :
    setOf p c w = match c.org with
      | .fal => 0
      | .fah => 0
      | .dm => p.hash c (w.toNat / 2 ^ c.L)
      | .sa => p.hash c (w.toNat / 2 ^ c.L) := by
  unfold Sys2Proof.Machine.setOf
  split <;> simp [*, hb, Nat.shiftRight_eq_div_pow]

theorem setOf_lt {p : Params} {c : Cfg} (hp : ∀ c h, 0 < c.M → p.hash c h < c.M) (hM : 0 < c.M) (w : Word) :
    setOf p c w < c.M := by
  unfold setOf
  split <;> first | exact hM | exact hp _ _ hM

theorem slotsOf_lt {c : Cfg} {d : Dict} (h : DictOk c d) {s e : Nat} (hs : s < c.M) (he : e ∈ slotsOf c d s) :
    e < cap c := by
  obtain ⟨y, hy, rfl⟩ := List.mem_map.1 he
  exact entryOf_lt hs (List.mem_range.1 ((h.recencyOf_perm hs).mem_iff.1 hy))

theorem victim_mem {p : Params} {c : Cfg} {d : Dict} (h : DictOk c d) (w : Word) (hs : setOf p c w < c.M)
    (hS : 0 < c.S) : victim p c d w ∈ slotsOf c d (setOf p c w) := by
  have hlen : (recencyOf d (setOf p c w)).length = c.S := by
    rw [(h.recencyOf_perm hs).length_eq, List.length_range]
  have hne : recencyOf d (setOf p c w) ≠ [] := by intro h0; rw [h0] at hlen; simp at hlen; omega
  refine List.mem_map.2 ⟨_, ?_, rfl⟩
  rw [List.getLastD_eq_getLast?, List.getLast?_eq_some_getLast hne]
  exact List.getLast_mem hne

theorem victim_lt {p : Params} {c : Cfg} {d : Dict} (h : DictOk c d) (w : Word) (hs : setOf p c w < c.M)
    (hS : 0 < c.S) : victim p c d w < cap c := slotsOf_lt h hs (victim_mem h w hs hS)

/-- The victim is the last way of the word's set (41_dictionary.md R125). -/
theorem victim_eq {p : Params} {c : Cfg} {d : Dict} (h : DictOk c d) (w : Word) (hs : setOf p c w < c.M)
    (hS : 0 < c.S) :
    ∃ y, (recencyOf d (setOf p c w))[c.S - 1]? = some y ∧ victim p c d w = setOf p c w * c.S + y := by
  have hlen : (recencyOf d (setOf p c w)).length = c.S := by rw [(h.recencyOf_perm hs).length_eq, List.length_range]
  have hlt : c.S - 1 < (recencyOf d (setOf p c w)).length := by omega
  refine ⟨_, List.getElem?_eq_getElem hlt, ?_⟩
  simp only [victim, oldestOf, entryOf]
  rw [List.getLastD_eq_getLast?, List.getLast?_eq_getElem?, hlen, List.getElem?_eq_getElem hlt]
  rfl

theorem candidate_lt {p : Params} {c : Cfg} {d : Dict} (h : DictOk c d) (w : Word) (hs : setOf p c w < c.M)
    (hS : 0 < c.S) : candidate p c d w < cap c := by
  rcases candidate_cases p c d w with ⟨h1, -⟩ | ⟨-, h1⟩
  · exact slotsOf_lt h hs h1
  · rw [h1]; exact victim_lt h w hs hS

theorem build_hash (c : Cfg) (h : Nat) (hM : 0 < c.M) : build.hash c h < c.M := Nat.mod_lt _ hM

theorem build_legal : build.Legal where
  pageLow := by decide
  pageHigh := by decide
  cbufLow := by decide
  cbufHigh := by decide
  hashInRange := build_hash
  engines := by decide

end Sys2Proof.Machine
end

