-- ==== Sys2Proof/Laws/Classifier.lean ====
section
/-!
SUPPORT. What `classify` does, the stride order, and the page loop as one pass over that order.
-/

namespace Sys2Proof.Machine

/-- All that `classify` can answer, with what each tag implies of the word and the candidate (42_word_classifier.md R150). -/
theorem classify_cases (p : Params) (c : Cfg) (d : Dict) (w : Word) :
    (valAt d (candidate p c d w) = w ∧
      classify p c d w = (.EXACT (candidate p c d w), promote c d (candidate p c d w))) ∨
    (valAt d (candidate p c d w) ≠ w ∧ w = 0 ∧ classify p c d w = (.ZERO, d)) ∨
    (valAt d (candidate p c d w) ≠ w ∧ w ≠ 0 ∧ hb c (valAt d (candidate p c d w)) = hb c w ∧
      classify p c d w =
        (.PARTIAL (candidate p c d w) (lb c w).toNat, install c d (candidate p c d w) w)) ∨
    (valAt d (candidate p c d w) ≠ w ∧ w ≠ 0 ∧ hb c (valAt d (candidate p c d w)) ≠ hb c w ∧
      classify p c d w = (.MISS w, install c d (candidate p c d w) w)) := by
  unfold classify lookup
  dsimp only
  by_cases h1 : valAt d (candidate p c d w) = w
  · left; exact ⟨h1, by rw [if_pos h1]⟩
  · by_cases h2 : w = 0
    · right; left; exact ⟨h1, h2, by rw [if_neg h1, if_pos h2]⟩
    · by_cases h3 : hb c (valAt d (candidate p c d w)) = hb c w
      · right; right; left; exact ⟨h1, h2, h3, by rw [if_neg h1, if_neg h2, if_pos h3]⟩
      · right; right; right; exact ⟨h1, h2, h3, by rw [if_neg h1, if_neg h2, if_neg h3]⟩

/-- `classify` keeps the dictionary invariant (10_state.md R32). -/
theorem classify_dictOk {p : Params} {c : Cfg} {d : Dict} {w : Word} (h : DictOk c d) (hw : WordOk c w)
    (hs : setOf p c w < c.M) (hS : 0 < c.S) : DictOk c (classify p c d w).2 := by
  have he := candidate_lt h w hs hS
  rcases classify_cases p c d w with ⟨-, hc⟩ | ⟨-, -, hc⟩ | ⟨-, -, -, hc⟩ | ⟨-, -, -, hc⟩ <;> rw [hc]
  · exact promote_dictOk h he
  · exact h
  · exact install_dictOk h he hw
  · exact install_dictOk h he hw

/-- The items `classify` emits fit their lanes (43_layout_encoder.md R172). -/
theorem classify_items {p : Params} {c : Cfg} {d : Dict} {w : Word} (h : DictOk c d) (hw : WordOk c w)
    (hs : setOf p c w < c.M) (hS : 0 < c.S) (hL : c.L ≤ 16) :
    (∀ e ∈ emittedIdx (classify p c d w).1, e < cap c) ∧
    (∀ l ∈ emittedLow (classify p c d w).1, l < 2 ^ c.L) ∧
    (∀ x ∈ emittedFull (classify p c d w).1, WordOk c x) := by
  have he := candidate_lt h w hs hS
  rcases classify_cases p c d w with ⟨-, hc⟩ | ⟨-, -, hc⟩ | ⟨-, -, -, hc⟩ | ⟨-, -, -, hc⟩ <;> rw [hc] <;>
    simp [emittedIdx, emittedLow, emittedFull, he, hw, lb_lt c w hL]

/-! ### The stride order -/

theorem ceilDiv_mul_bound {m s j : Nat} (hs : 0 < s) : j < ceilDiv m s ↔ j * s < m := by
  rw [ceilDiv, Nat.lt_iff_add_one_le, Nat.le_div_iff_mul_le hs, Nat.succ_mul]
  omega

theorem mem_residueClass {n s r i : Nat} (hs : 0 < s) (hr : r < s) :
    i ∈ residueClass n s r ↔ i < n ∧ i % s = r := by
  simp only [residueClass, List.mem_map, List.mem_range]
  constructor
  · rintro ⟨j, hj, rfl⟩
    rw [ceilDiv_mul_bound hs] at hj
    exact ⟨by omega, by rw [Nat.add_mul_mod_self_right, Nat.mod_eq_of_lt hr]⟩
  · rintro ⟨hi, hm⟩
    have hd := Nat.div_add_mod i s
    rw [Nat.mul_comm] at hd
    exact ⟨i / s, by rw [ceilDiv_mul_bound hs]; omega, by omega⟩

theorem mem_order {n s i : Nat} (hs : 0 < s) : i ∈ order n s ↔ i < n := by
  simp only [order, List.mem_flatMap, List.mem_range]
  constructor
  · rintro ⟨r, hr, hi⟩
    exact ((mem_residueClass hs (by omega)).1 hi).1
  · intro hi
    have h1 := Nat.mod_lt i hs
    have h2 := Nat.mod_le i s
    exact ⟨i % s, by omega, (mem_residueClass hs h1).2 ⟨hi, rfl⟩⟩

theorem order_nodup (n s : Nat) (hs : 0 < s) : (order n s).Nodup := by
  rw [order, List.nodup_flatMap]
  constructor
  · intro r _
    exact List.nodup_range.map fun a b hab => by
      have : a * s = b * s := by omega
      exact Nat.eq_of_mul_eq_mul_right hs this
  · refine List.nodup_range.pairwise_of_forall_ne ?_
    intro a ha b hb hab i hia hib
    rw [List.mem_range] at ha hb
    have h1 := ((mem_residueClass hs (by omega)).1 hia).2
    have h2 := ((mem_residueClass hs (by omega)).1 hib).2
    exact hab (h1.symm.trans h2)

theorem order_length (n s : Nat) (hs : 0 < s) : (order n s).length = n := by
  have h := (List.perm_ext_iff_of_nodup (order_nodup n s hs) List.nodup_range).2
    fun i => by rw [mem_order hs, List.mem_range (m := i) (n := n)]
  rw [h.length_eq, List.length_range]

/-! ### The page loop -/

/-- The loop over `SEQ` is one pass over the positions of the order still to come (42_word_classifier.md R158). -/
theorem modelLoop_eq_foldl (p : Params) (c : Cfg) (page : List Word) (ord : List Nat) (fuel : Nat) (m : ModelRun)
    (hf : ord.length ≤ m.run.seq + fuel) :
    modelLoop p c page ord fuel m = (ord.drop m.run.seq).foldl (fun m i => modelStep p c page i m) m := by
  induction fuel generalizing m with
  | zero => rw [List.drop_eq_nil_of_le (by omega)]; rfl
  | succ fuel ih =>
    unfold modelLoop
    by_cases h : m.run.seq < ord.length
    · rw [List.getElem?_eq_getElem h, List.drop_eq_getElem_cons h, List.foldl_cons]
      exact ih _ (by simp [modelStep]; omega)
    · rw [List.getElem?_eq_none (by omega), List.drop_eq_nil_of_le (by omega)]; rfl

theorem modelPage_eq_foldl (p : Params) (c : Cfg) (page : List Word) (hs : 0 < c.stride) :
    modelPage p c page =
      (order page.length c.stride).foldl (fun m i => modelStep p c page i m)
        { dict := fresh c, run := emptyRun page.length } := by
  unfold modelPage
  rw [modelLoop_eq_foldl _ _ _ _ _ _ (by rw [order_length _ _ hs]; simp [emptyRun])]
  rfl

/-! ### Slots -/

theorem definedSlots_eq_some {α : Type} {l : List (Option α)} {r : List α} :
    definedSlots l = some r ↔ l = r.map some := by
  induction l generalizing r with
  | nil => cases r <;> simp [definedSlots]
  | cons a l ih =>
    cases a with
    | none => cases r <;> simp [definedSlots]
    | some a =>
      cases r with
      | nil => simp [definedSlots]
      | cons b r => simp [definedSlots, ih]; tauto

/-- A list of slots that are all written is defined. -/
theorem definedSlots_of_forall {α : Type} (l : List (Option α)) (h : ∀ x ∈ l, x ≠ none) :
    ∃ r, definedSlots l = some r ∧ l = r.map some := by
  induction l with
  | nil => exact ⟨[], rfl, rfl⟩
  | cons a l ih =>
    obtain ⟨r, hr, hl⟩ := ih fun x hx => h x (List.mem_cons_of_mem _ hx)
    obtain ⟨b, rfl⟩ := Option.ne_none_iff_exists'.1 (h a List.mem_cons_self)
    exact ⟨b :: r, by simp [definedSlots, hr], by simp [hl]⟩

end Sys2Proof.Machine
end

