-- ==== Sys2Proof/Laws/Packer.lean ====
section
/-!
SUPPORT. Lanes of packed words, and when the sequence functions have a value.
-/

namespace Sys2Proof.Machine

/-- Shift and OR of lanes that fit is the sum (40_bit_packer.md R101). -/
theorem packLanes_cons {k v : Nat} (vs : List Nat) (hv : v < 2 ^ k) :
    packLanes k (v :: vs) = 2 ^ k * packLanes k vs + v := by
  rw [packLanes, Nat.shiftLeft_eq, Nat.mul_comm, Nat.two_pow_add_eq_or_of_lt hv, Nat.or_comm]

theorem packLanes_lt {k : Nat} (vs : List Nat) (h : ∀ v ∈ vs, v < 2 ^ k) :
    packLanes k vs < 2 ^ (vs.length * k) := by
  induction vs with
  | nil => simp [packLanes]
  | cons v vs ih =>
    have hv := h v List.mem_cons_self
    have ih := ih fun u hu => h u (List.mem_cons_of_mem _ hu)
    rw [packLanes_cons vs hv, List.length_cons, Nat.succ_mul, Nat.pow_add, Nat.mul_comm (2 ^ (vs.length * k))]
    calc _ < 2 ^ k * packLanes k vs + 2 ^ k := by omega
      _ = 2 ^ k * (packLanes k vs + 1) := by ring
      _ ≤ _ := Nat.mul_le_mul_left _ ih

/-- Lane `j` of the packed lanes is value `j` (30_encoding.md R77). -/
theorem packLanes_lane {k : Nat} (vs : List Nat) (h : ∀ v ∈ vs, v < 2 ^ k) (j : Nat) :
    packLanes k vs / 2 ^ (j * k) % 2 ^ k = vs.getD j 0 := by
  induction vs generalizing j with
  | nil => simp [packLanes]
  | cons v vs ih =>
    have hv := h v List.mem_cons_self
    rw [packLanes_cons vs hv]
    cases j with
    | zero => simp [Nat.mod_eq_of_lt hv]
    | succ j =>
      rw [Nat.succ_mul, Nat.add_comm (j * k), Nat.pow_add, ← Nat.div_div_eq_div_mul,
        Nat.mul_add_div (Nat.two_pow_pos k), Nat.div_eq_of_lt hv, Nat.add_zero,
        ih fun u hu => h u (List.mem_cons_of_mem _ hu)]
      simp

theorem unpackLane_eq (k : Nat) (x : Word) (j : Nat) : unpackLane k x j = x.toNat / 2 ^ (j * k) % 2 ^ k := by
  rw [unpackLane, Nat.shiftRight_eq_div_pow, Nat.and_two_pow_sub_one_eq_mod]

theorem unpackLane_lt (k : Nat) (x : Word) (j : Nat) : unpackLane k x j < 2 ^ k := by
  rw [unpackLane_eq]; exact Nat.mod_lt _ (Nat.two_pow_pos _)

/-- A group of at most `reps(k)` values that fit packs without loss. -/
theorem packWord_toNat (c : Cfg) {k : Nat} {g : List Nat} (hl : g.length ≤ reps c k) (h : ∀ v ∈ g, v < 2 ^ k) :
    (packWord k g).toNat = packLanes k g := by
  have h1 : g.length * k ≤ 64 :=
    le_trans (Nat.mul_le_mul_right k hl) (le_trans (reps_mul_le c k) (Width.bits_bounds c.W).2)
  rw [packWord, BitVec.toNat_ofNat]
  exact Nat.mod_eq_of_lt (lt_of_lt_of_le (packLanes_lt g h) (Nat.pow_le_pow_right (by omega) h1))

/-- A packed word has `W` bits. -/
theorem packWord_wordOk (c : Cfg) {k : Nat} {g : List Nat} (hl : g.length ≤ reps c k) (h : ∀ v ∈ g, v < 2 ^ k) :
    WordOk c (packWord k g) := by
  rw [WordOk, packWord_toNat c hl h]
  exact lt_of_lt_of_le (packLanes_lt g h) (Nat.pow_le_pow_right (by omega)
    (le_trans (Nat.mul_le_mul_right k hl) (reps_mul_le c k)))

@[simp] theorem unpackWord_length (c : Cfg) (k : Nat) (x : Word) : (unpackWord c k x).length = reps c k := by
  simp [unpackWord]

@[simp] theorem unpack_length (c : Cfg) (k : Nat) (xs : List Word) :
    (unpack c k xs).length = xs.length * reps c k := by
  simp [unpack]

theorem unpack_lt {c : Cfg} {k : Nat} {xs : List Word} {v : Nat} (h : v ∈ unpack c k xs) : v < 2 ^ k := by
  simp only [unpack, List.mem_flatMap, unpackWord, List.mem_map] at h
  obtain ⟨x, -, j, -, rfl⟩ := h
  exact unpackLane_lt k x j

/-- The padded length is the next multiple of `reps(k)` (40_bit_packer.md R105). -/
theorem pad_length (c : Cfg) (k : Nat) (v : List Nat) (hr : 0 < reps c k) :
    (pad c k v).length = ceilDiv v.length (reps c k) * reps c k := by
  simp only [pad, List.length_append, List.length_replicate, ceilDiv]
  generalize reps c k = r at hr
  have hd := Nat.div_add_mod v.length r
  have hm := Nat.mod_lt v.length hr
  have hmul : r * (v.length / r) = v.length / r * r := Nat.mul_comm _ _
  by_cases h0 : v.length % r = 0
  · have h2 : (v.length + r - 1) / r = v.length / r :=
      Nat.div_eq_of_lt_le (by omega) (by rw [Nat.succ_mul]; omega)
    rw [h2, h0]; simp; omega
  · have h2 : (v.length + r - 1) / r = v.length / r + 1 :=
      Nat.div_eq_of_lt_le (by rw [Nat.succ_mul]; omega) (by rw [Nat.succ_mul, Nat.succ_mul]; omega)
    rw [h2, Nat.mod_eq_of_lt (by omega), Nat.succ_mul]; omega

theorem packDomain_iff (c : Cfg) (k : Nat) (v : List Nat) :
    packDomain c k v = true ↔ v.length % reps c k = 0 ∧ ∀ x ∈ v, x < 2 ^ k := by
  simp [packDomain]

/-- Padding brings values that fit into the domain of `pack` (43_layout_encoder.md R172). -/
theorem pad_packDomain (c : Cfg) {k : Nat} {v : List Nat} (hr : 0 < reps c k) (h : ∀ x ∈ v, x < 2 ^ k) :
    packDomain c k (pad c k v) = true := by
  rw [packDomain_iff]
  refine ⟨by rw [pad_length c k v hr]; exact Nat.mul_mod_left _ _, fun x hx => ?_⟩
  rcases List.mem_append.1 hx with hx | hx
  · exact h x hx
  · rw [List.eq_of_mem_replicate hx]; exact Nat.two_pow_pos _

/-- What `pack` answers: one word per group, and only on its domain (40_bit_packer.md R103). -/
theorem pack_eq_some {c : Cfg} {k : Nat} {v : List Nat} {ws : List Word} (h : pack c k v = some ws) :
    packDomain c k v = true ∧ ws = (List.range (v.length / reps c k)).map fun r =>
      packWord k ((v.drop (r * reps c k)).take (reps c k)) := by
  unfold pack at h
  split at h
  · exact ⟨‹_›, (Option.some.inj h).symm⟩
  · cases h

theorem pack_wordOk {c : Cfg} {k : Nat} {v : List Nat} {ws : List Word} (h : pack c k v = some ws) :
    ∀ w ∈ ws, WordOk c w := by
  obtain ⟨hd, rfl⟩ := pack_eq_some h
  rw [packDomain_iff] at hd
  intro w hw
  obtain ⟨r, -, rfl⟩ := List.mem_map.1 hw
  exact packWord_wordOk c (by simp) fun x hx => hd.2 x (List.mem_of_mem_drop (List.mem_of_mem_take hx))

/-- A packed area exists for values that fit and has `ceil(len / reps(k))` words (30_encoding.md R80). -/
theorem packedArea_some (c : Cfg) {k : Nat} {v : List Nat} (hr : 0 < reps c k) (h : ∀ x ∈ v, x < 2 ^ k) :
    ∃ ws, packedArea c k v = some ws ∧ ws.length = ceilDiv v.length (reps c k) ∧ ∀ w ∈ ws, WordOk c w := by
  have hd := pad_packDomain c hr h
  refine ⟨_, by rw [packedArea, pack, if_pos hd], ?_, ?_⟩
  · rw [List.length_map, List.length_range, pad_length c k v hr, Nat.mul_div_cancel _ hr]
  · exact pack_wordOk (by rw [pack, if_pos hd])

/-- Unpacking a packed group gives it back (40_bit_packer.md R106). -/
theorem unpackWord_packWord (c : Cfg) {k : Nat} {g : List Nat} (hl : g.length = reps c k) (h : ∀ v ∈ g, v < 2 ^ k) :
    unpackWord c k (packWord k g) = g := by
  apply List.ext_getElem (by simp [hl])
  intro j h1 h2
  simp only [unpackWord, List.getElem_map, List.getElem_range, unpackLane_eq]
  rw [packWord_toNat c (le_of_eq hl) h, packLanes_lane g h, List.getD_eq_getElem _ _ h2]

/-! ### The lanes of `PACKW` and `UNPACKW` -/

theorem laneGroup_length (s : State) (k : Nat) : (laneGroup s k).length = reps s.cfg k := by simp [laneGroup]

theorem laneGroup_lt (s : State) (k : Nat) : ∀ v ∈ laneGroup s k, v < 2 ^ k := by
  intro v hv
  obtain ⟨j, -, rfl⟩ := List.mem_map.1 hv
  exact Nat.mod_lt _ (Nat.two_pow_pos _)

/-- A lane after `UNPACKW` (40_bit_packer.md R108). -/
theorem lane_setLanes_lanesUnpacked (s : State) {j k : Nat} (hj : j < 64) :
    lane (s.setLanes (lanesUnpacked s k)) j =
      if j < reps s.cfg k then BitVec.ofNat 16 (unpackLane k (argWord s) j) else lane s j := by
  simp [lane, hj, lanesUnpacked]

end Sys2Proof.Machine
end

