-- ==== Sys2Proof/Laws/PageModel.lean ====
section
/-!
SUPPORT. What `model_page` returns (42_word_classifier.md R158): every slot of `TAGS` written, the lengths of the other
three streams, every item in its lane, a well-formed dictionary.
-/

namespace Sys2Proof.Machine

/-- Writing an undefined slot adds one occurrence of what is written. -/
theorem count_set_none {α : Type} [DecidableEq α] (l : List (Option α)) (i : Nat) (a b : α) (h : l[i]? = some none) :
    (l.set i (some a)).count (some b) = l.count (some b) + if a = b then 1 else 0 := by
  induction l generalizing i with
  | nil => simp at h
  | cons x l ih =>
    cases i with
    | zero =>
      simp only [List.getElem?_cons_zero, Option.some.injEq] at h
      subst h
      simp [List.set_cons_zero, List.count_cons]
    | succ i =>
      simp only [List.getElem?_cons_succ] at h
      simp only [List.set_cons_succ, List.count_cons, ih i h]
      omega

/-- The state of the page loop after the positions `rest` are still to come: what is undefined, how long the streams
are, and that every item fits (42_word_classifier.md R158, 43_layout_encoder.md R172). -/
structure ModelOk (c : Cfg) (n : Nat) (rest : List Nat) (m : ModelRun) : Prop where
  dict : DictOk c m.dict
  tagsLength : m.run.tags.length = n
  undefined : ∀ i, i < n → (m.run.tags[i]? = some none ↔ i ∈ rest)
  idxLength : m.run.idx.length = m.run.tags.count (some .EXACT) + m.run.tags.count (some .PARTIAL)
  lowLength : m.run.low.length = m.run.tags.count (some .PARTIAL)
  fullLength : m.run.full.length = m.run.tags.count (some .MISS)
  idxLt : ∀ e ∈ m.run.idx, e < cap c
  lowLt : ∀ l ∈ m.run.low, l < 2 ^ c.L
  fullOk : ∀ x ∈ m.run.full, WordOk c x

theorem emittedIdx_length (e : Emitted) :
    (emittedIdx e).length =
      (if emittedTag e = .EXACT then 1 else 0) + if emittedTag e = .PARTIAL then 1 else 0 := by
  cases e <;> simp [emittedIdx, emittedTag]

theorem emittedLow_length (e : Emitted) : (emittedLow e).length = if emittedTag e = .PARTIAL then 1 else 0 := by
  cases e <;> simp [emittedLow, emittedTag]

theorem emittedFull_length (e : Emitted) : (emittedFull e).length = if emittedTag e = .MISS then 1 else 0 := by
  cases e <;> simp [emittedFull, emittedTag]

/-- One pass keeps the loop invariant and takes its position off the list still to come. -/
theorem modelStep_ok {p : Params} {c : Cfg} {page : List Word} {n i : Nat} {rest : List Nat} {m : ModelRun}
    (hp : ∀ c h, 0 < c.M → p.hash c h < c.M) (hc : CfgFacts p c) (hpage : ∀ w ∈ page, WordOk c w)
    (hi : i < n) (hn : i ∉ rest) (h : ModelOk c n (i :: rest) m) : ModelOk c n rest (modelStep p c page i m) := by
  have hw : WordOk c (page.getD i 0) := by
    by_cases hl : i < page.length
    · rw [List.getD_eq_getElem _ _ hl]; exact hpage _ (List.getElem_mem hl)
    · rw [List.getD_eq_default _ _ (by omega)]; exact Nat.two_pow_pos _
  have hs := setOf_lt hp hc.numSets_pos (page.getD i 0)
  have hitems := classify_items (p := p) h.dict hw hs hc.setSize_pos hc.lowBits.2
  have hnone : m.run.tags[i]? = some none := (h.undefined i hi).2 List.mem_cons_self
  refine ⟨classify_dictOk h.dict hw hs hc.setSize_pos, ?_, ?_, ?_, ?_, ?_, ?_, ?_, ?_⟩
  · simp [modelStep, h.tagsLength]
  · intro j hj
    simp only [modelStep, List.getElem?_set]
    have hu := h.undefined j hj
    by_cases hij : i = j
    · subst hij; simp [hn, h.tagsLength, hj]
    · simp only [hij, if_false]
      rw [hu, List.mem_cons]
      exact ⟨fun hm => hm.resolve_left (fun h => hij h.symm), Or.inr⟩
  · simp only [modelStep, List.length_append, h.idxLength, count_set_none _ _ _ _ hnone, emittedIdx_length]; omega
  · simp only [modelStep, List.length_append, h.lowLength, count_set_none _ _ _ _ hnone, emittedLow_length]
  · simp only [modelStep, List.length_append, h.fullLength, count_set_none _ _ _ _ hnone, emittedFull_length]
  · intro e he
    rcases List.mem_append.1 he with he | he
    · exact h.idxLt e he
    · exact hitems.1 e he
  · intro l hl
    rcases List.mem_append.1 hl with hl | hl
    · exact h.lowLt l hl
    · exact hitems.2.1 l hl
  · intro x hx
    rcases List.mem_append.1 hx with hx | hx
    · exact h.fullOk x hx
    · exact hitems.2.2 x hx

theorem modelFold_ok {p : Params} {c : Cfg} {page : List Word} {n : Nat} (rest : List Nat) {m : ModelRun}
    (hp : ∀ c h, 0 < c.M → p.hash c h < c.M) (hc : CfgFacts p c) (hpage : ∀ w ∈ page, WordOk c w)
    (hlt : ∀ i ∈ rest, i < n) (hnd : rest.Nodup) (h : ModelOk c n rest m) :
    ModelOk c n [] (rest.foldl (fun m i => modelStep p c page i m) m) := by
  induction rest generalizing m with
  | nil => exact h
  | cons i rest ih =>
    have hnd := List.nodup_cons.1 hnd
    exact ih (fun j hj => hlt j (List.mem_cons_of_mem _ hj)) hnd.2
      (modelStep_ok hp hc hpage (hlt i List.mem_cons_self) hnd.1 h)

/-- The page loop over the positions `rest` classifies their words one after another: what it appends to the streams, the
dictionary it leaves, and the tag it writes at each position (42_word_classifier.md R158). -/
theorem modelFold_emitted (p : Params) (c : Cfg) (page : List Word) (rest : List Nat) (m : ModelRun) :
    let ws := rest.map fun i => page.getD i 0
    let es := emittedAll p c m.dict ws
    let m' := rest.foldl (fun m i => modelStep p c page i m) m
    m'.dict = classifyAll p c m.dict ws ∧ m'.run.seq = m.run.seq + rest.length ∧
    m'.run.tags.length = m.run.tags.length ∧
    m'.run.idx = m.run.idx ++ es.flatMap emittedIdx ∧ m'.run.low = m.run.low ++ es.flatMap emittedLow ∧
    m'.run.full = m.run.full ++ es.flatMap emittedFull ∧
    (∀ i, i ∉ rest → m'.run.tags[i]? = m.run.tags[i]?) ∧
    (rest.Nodup → (∀ i ∈ rest, i < m.run.tags.length) → ∀ t i : Nat, rest[t]? = some i →
      ∃ e, es[t]? = some e ∧ m'.run.tags[i]? = some (some (emittedTag e))) := by
  induction rest generalizing m with
  | nil => exact ⟨rfl, rfl, rfl, by simp [emittedAll], by simp [emittedAll], by simp [emittedAll], fun _ _ => rfl, by simp⟩
  | cons a rest ih =>
    obtain ⟨h1, h2, h3, h4, h5, h6, h7, h8⟩ := ih (modelStep p c page a m)
    have ht : (modelStep p c page a m).run.tags.length = m.run.tags.length := by simp [modelStep]
    refine ⟨h1, by rw [List.foldl_cons, h2]; simp [modelStep]; omega, h3.trans ht, ?_, ?_, ?_, ?_, ?_⟩
    · rw [List.foldl_cons, h4]; simp [modelStep, emittedAll]
    · rw [List.foldl_cons, h5]; simp [modelStep, emittedAll]
    · rw [List.foldl_cons, h6]; simp [modelStep, emittedAll]
    · intro i hi
      rw [List.mem_cons, not_or] at hi
      rw [List.foldl_cons, h7 i hi.2]
      simp [modelStep, List.getElem?_set_ne (Ne.symm hi.1)]
    · intro hnd hlt t i hti
      obtain ⟨hn, hnd⟩ := List.nodup_cons.1 hnd
      cases t with
      | zero =>
        obtain rfl : a = i := by simpa using hti
        refine ⟨_, rfl, ?_⟩
        rw [List.foldl_cons, h7 a hn]
        have := hlt a List.mem_cons_self
        simp [modelStep, this]
      | succ t =>
        exact h8 hnd (fun j hj => by rw [ht]; exact hlt j (List.mem_cons_of_mem _ hj)) t i (by simpa using hti)

/-- What `model_page` returns, said once (42_word_classifier.md R158). -/
theorem modelPage_spec {p : Params} {c : Cfg} {page : List Word}
    (hp : ∀ c h, 0 < c.M → p.hash c h < c.M) (hc : CfgFacts p c) (hpage : ∀ w ∈ page, WordOk c w) :
    ∃ tags : List Tag,
      (modelPage p c page).run.tags = tags.map some ∧
      definedSlots (modelPage p c page).run.tags = some tags ∧
      tags.length = page.length ∧
      (modelPage p c page).run.idx.length = tags.count .EXACT + tags.count .PARTIAL ∧
      (modelPage p c page).run.low.length = tags.count .PARTIAL ∧
      (modelPage p c page).run.full.length = tags.count .MISS ∧
      (∀ e ∈ (modelPage p c page).run.idx, e < cap c) ∧
      (∀ l ∈ (modelPage p c page).run.low, l < 2 ^ c.L) ∧
      (∀ x ∈ (modelPage p c page).run.full, WordOk c x) := by
  have h0 : ModelOk c page.length (order page.length c.stride) { dict := fresh c, run := emptyRun page.length } := by
    refine ⟨fresh_dictOk c, by simp [emptyRun], ?_, ?_, ?_, ?_, ?_, ?_, ?_⟩ <;>
      simp [emptyRun, List.count_replicate, List.getElem?_replicate, mem_order hc.stride]
  have h := modelFold_ok (page := page) _ hp hc hpage (fun i hi => (mem_order hc.stride).1 hi)
    (order_nodup _ _ hc.stride) h0
  rw [← modelPage_eq_foldl p c page hc.stride] at h
  obtain ⟨tags, hd, ht⟩ := definedSlots_of_forall (modelPage p c page).run.tags (by
    intro x hx hnone
    obtain ⟨i, hi, rfl⟩ := List.mem_iff_getElem.1 hx
    have := (h.undefined i (by rw [← h.tagsLength]; exact hi)).1 (by rw [List.getElem?_eq_getElem hi, hnone])
    simp at this)
  have hcount : ∀ a : Tag, (modelPage p c page).run.tags.count (some a) = tags.count a := by
    intro a; rw [ht]; exact List.count_map_of_injective _ _ (Option.some_injective _) _
  refine ⟨tags, ht, hd, ?_, ?_, ?_, ?_, h.idxLt, h.lowLt, h.fullOk⟩
  · have := h.tagsLength; rw [ht] at this; simpa using this
  · rw [h.idxLength, hcount, hcount]
  · rw [h.lowLength, hcount]
  · rw [h.fullLength, hcount]

end Sys2Proof.Machine
end

