-- ==== Sys2Proof/Laws/Layout.lean ====
section
/-!
SUPPORT. What `encode` returns (43_layout_encoder.md R170): for items that fit it has a value, with areas of the sizes of
30_encoding.md R80, every word of `W` bits.
-/

namespace Sys2Proof.Machine

theorem ceilDiv_le_iff {m r k : Nat} (hr : 0 < r) : ceilDiv m r ≤ k ↔ m ≤ k * r := by
  rw [← not_lt, ceilDiv_mul_bound hr]; omega

/-- The packed tags area has `T(n)` words (30_encoding.md R81). -/
theorem tagWords_eq (c : Cfg) (n : Nat) : ceilDiv n (reps c 2) = tagWords c n := by
  unfold tagWords reps ceilDiv
  cases c.W <;> simp only [Width.bits] <;> omega

theorem tagCode_lt (t : Tag) : tagCode t < 2 ^ 2 := by cases t <;> decide

theorem tagOfCode_tagCode (t : Tag) : tagOfCode (tagCode t) = t := by cases t <;> rfl

theorem assembleBuffer_length (n : Nat) (ta fa ia la : List Word) :
    (assembleBuffer n ta fa ia la).length = 4 + ta.length + fa.length + ia.length + la.length := by
  simp [assembleBuffer]; omega

/-- A counter below `2^32` is a word of either width. -/
theorem ofNat_wordOk (c : Cfg) {n : Nat} (h : n < 2 ^ 32) : WordOk c (BitVec.ofNat 64 n) :=
  wordOk_of_lt (by rw [BitVec.toNat_ofNat]; omega)

theorem assembleBuffer_wordOk {c : Cfg} {n : Nat} {ta fa ia la : List Word} (hn : n < 2 ^ 32)
    (hlen : (assembleBuffer n ta fa ia la).length < 2 ^ 32) (hta : ∀ w ∈ ta, WordOk c w) (hfa : ∀ w ∈ fa, WordOk c w)
    (hia : ∀ w ∈ ia, WordOk c w) (hla : ∀ w ∈ la, WordOk c w) :
    ∀ w ∈ assembleBuffer n ta fa ia la, WordOk c w := by
  rw [assembleBuffer_length] at hlen
  intro w hw
  simp only [assembleBuffer, List.cons_append, List.nil_append, List.mem_cons, List.mem_append] at hw
  rcases hw with rfl | rfl | rfl | rfl | ((hw | hw) | hw) | hw
  · exact ofNat_wordOk c hn
  · exact ofNat_wordOk c (by omega)
  · exact ofNat_wordOk c (by omega)
  · exact ofNat_wordOk c (by omega)
  · exact hta w hw
  · exact hfa w hw
  · exact hia w hw
  · exact hla w hw

/-- What `encode` returns for items that fit (43_layout_encoder.md R170, R172). -/
theorem encodeBuffer_spec {p : Params} {c : Cfg} (hc : CfgFacts p c) (n : Nat) (tags : List Tag) {idx low : List Nat}
    (full : List Word) (hi : ∀ e ∈ idx, e < cap c) (hl : ∀ l ∈ low, l < 2 ^ c.L) :
    ∃ ta ia la, packedArea c 2 (tags.map tagCode) = some ta ∧ packedArea c (indexBits c) idx = some ia ∧
      packedArea c c.L low = some la ∧
      encodeBuffer c n tags idx low full = some (assembleBuffer n ta full ia la) ∧
      ta.length = tagWords c tags.length ∧ ia.length = ceilDiv idx.length (reps c (indexBits c)) ∧
      la.length = ceilDiv low.length (reps c c.L) ∧
      (∀ w ∈ ta, WordOk c w) ∧ (∀ w ∈ ia, WordOk c w) ∧ (∀ w ∈ la, WordOk c w) := by
  obtain ⟨hcap, hib1, hib16⟩ := hc.indexBits
  have r2 := (reps_bounds c (k := 2) (by omega) (by omega)).1
  have rI := (reps_bounds c hib1 hib16).1
  have rL := (reps_bounds c (k := c.L) (by have := hc.lowBits; omega) hc.lowBits.2).1
  obtain ⟨ta, h1, h2, h3⟩ := packedArea_some c (k := 2) (v := tags.map tagCode) (by omega) (by
    intro x hx; obtain ⟨t, -, rfl⟩ := List.mem_map.1 hx; exact tagCode_lt t)
  obtain ⟨ia, h4, h5, h6⟩ := packedArea_some c (k := indexBits c) (v := idx) (by omega) (by rw [← hcap]; exact hi)
  obtain ⟨la, h7, h8, h9⟩ := packedArea_some c (k := c.L) (v := low) (by omega) hl
  refine ⟨ta, ia, la, h1, h4, h7, ?_, ?_, h5, h8, h3, h6, h9⟩
  · simp only [encodeBuffer, h1, h4, h7]
  · rw [h2, List.length_map, tagWords_eq]

end Sys2Proof.Machine
end

