-- ==== Sys2Proof/Laws/Replay.lean ====
section
/-!
SUPPORT. What the reconstruction step and the replay loop do (44_layout_decoder.md R192, R193): given streams of the right
lengths the replay runs to its end, writes every slot, and keeps the dictionary well formed.
-/

namespace Sys2Proof.Machine

/-- `recon` gives a word of `W` bits and keeps the dictionary invariant, whatever the buffer (44_layout_decoder.md R198). -/
theorem recon_ok {p : Params} {c : Cfg} {d : Dict} (h : DictOk c d) (hp : ∀ c h, 0 < c.M → p.hash c h < c.M)
    (hc : CfgFacts p c) (t : Tag) {idx : Nat} (x : Word) (hi : t = .EXACT ∨ t = .PARTIAL → idx < cap c) :
    WordOk c (recon p c d t idx x).1 ∧ DictOk c (recon p c d t idx x).2 := by
  cases t with
  | ZERO => exact ⟨Nat.two_pow_pos _, h⟩
  | EXACT => exact ⟨h.valAt_wordOk _, promote_dictOk h (hi (.inl rfl))⟩
  | PARTIAL =>
    have hw := rebuilt_wordOk c (valAt d idx) x hc.lowBits.2 (h.valAt_wordOk idx)
    exact ⟨hw, install_dictOk h (hi (.inr rfl)) hw⟩
  | MISS =>
    have hw := truncW_wordOk c x
    exact ⟨hw, install_dictOk h (victim_lt h _ (setOf_lt hp hc.numSets_pos _) hc.setSize_pos) hw⟩

/-- The tag of page position `i`. -/
def tagAt (tags : List Tag) (i : Nat) : Tag := tags.getD i .ZERO

/-- What the replay loop keeps while the positions `rest` are still to come: the streams hold exactly the items those
positions need, the other slots are written, the dictionary is well formed (44_layout_decoder.md R191). -/
structure ReplayOk (c : Cfg) (tags : List Tag) (rest : List Nat) (r : ReplayRun) : Prop where
  dict : DictOk c r.dict
  tagsSame : r.run.tags = tags.map some
  outLength : r.out.length = tags.length
  undefined : ∀ i, i < tags.length → (r.out[i]? = some none ↔ i ∈ rest)
  outOk : ∀ w, some w ∈ r.out → WordOk c w
  idxLength : r.run.idx.length = (rest.map (tagAt tags)).count .EXACT + (rest.map (tagAt tags)).count .PARTIAL
  lowLength : r.run.low.length = (rest.map (tagAt tags)).count .PARTIAL
  fullLength : r.run.full.length = (rest.map (tagAt tags)).count .MISS
  idxLt : ∀ e ∈ r.run.idx, e < cap c

theorem replayPut_ok {c : Cfg} {tags : List Tag} {i : Nat} {rest : List Nat} {r : ReplayRun} {w : Word × Dict}
    {idx low : List Nat} {full : List Word} (hn : i ∉ rest)
    (h : ReplayOk c tags (i :: rest) r) (hw : WordOk c w.1) (hd : DictOk c w.2)
    (h1 : idx.length = (rest.map (tagAt tags)).count .EXACT + (rest.map (tagAt tags)).count .PARTIAL)
    (h2 : low.length = (rest.map (tagAt tags)).count .PARTIAL)
    (h3 : full.length = (rest.map (tagAt tags)).count .MISS) (h4 : ∀ e ∈ idx, e < cap c) :
    ReplayOk c tags rest (replayPut r i w idx low full) := by
  refine ⟨hd, h.tagsSame, by simp [replayPut, h.outLength], ?_, ?_, h1, h2, h3, h4⟩
  · intro j hj
    simp only [replayPut, List.getElem?_set]
    have hu := h.undefined j hj
    by_cases hij : i = j
    · subst hij; simp [hn, h.outLength, hj]
    · simp only [hij, if_false]
      rw [hu, List.mem_cons]
      exact ⟨fun hm => hm.resolve_left (fun h => hij h.symm), Or.inr⟩
  · intro x hx
    rcases List.mem_or_eq_of_mem_set hx with hx | hx
    · exact h.outOk x hx
    · rw [Option.some.inj hx]; exact hw

/-- One pass finds the items it needs (44_layout_decoder.md R191). -/
theorem replayStep_ok {p : Params} {c : Cfg} {tags : List Tag} {i : Nat} {rest : List Nat} {r : ReplayRun}
    (hp : ∀ c h, 0 < c.M → p.hash c h < c.M) (hc : CfgFacts p c) (hi : i < tags.length) (hn : i ∉ rest)
    (h : ReplayOk c tags (i :: rest) r) :
    ∃ r', replayStep p c i r = some r' ∧ r'.run.seq = r.run.seq + 1 ∧ ReplayOk c tags rest r' := by
  have ht : (r.run.tags[i]?).join = some (tagAt tags i) := by
    rw [h.tagsSame, tagAt]; simp [hi]
  have e1 := h.idxLength
  have e2 := h.lowLength
  have e3 := h.fullLength
  simp only [List.map_cons, List.count_cons] at e1 e2 e3
  have hlt := h.idxLt
  cases hT : tagAt tags i with
  | ZERO =>
    simp [hT] at e1 e2 e3
    have ho := recon_ok h.dict hp hc .ZERO (idx := 0) 0 (by simp)
    exact ⟨_, by simp [replayStep, ht, hT], rfl, replayPut_ok hn h ho.1 ho.2 e1 e2 e3 hlt⟩
  | EXACT =>
    simp [hT] at e1 e2 e3
    cases hidx : r.run.idx with
    | nil => simp [hidx] at e1; omega
    | cons e is =>
      rw [hidx] at hlt e1
      have ho := recon_ok h.dict hp hc .EXACT (idx := e) 0 (fun _ => hlt e List.mem_cons_self)
      exact ⟨_, by simp only [replayStep, ht, hT, hidx], rfl,
        replayPut_ok hn h ho.1 ho.2 (by simp at e1; omega) e2 e3 fun x hx => hlt x (List.mem_cons_of_mem _ hx)⟩
  | PARTIAL =>
    simp [hT] at e1 e2 e3
    cases hidx : r.run.idx with
    | nil => simp [hidx] at e1
    | cons e is =>
      cases hlow : r.run.low with
      | nil => simp [hlow] at e2
      | cons l ls =>
        rw [hidx] at hlt e1
        rw [hlow] at e2
        have ho := recon_ok h.dict hp hc .PARTIAL (idx := e) (BitVec.ofNat 64 l) (fun _ => hlt e List.mem_cons_self)
        exact ⟨_, by simp only [replayStep, ht, hT, hidx, hlow]; rfl, rfl,
          replayPut_ok hn h ho.1 ho.2 (by simp at e1; omega) (by simp at e2; omega) e3
            fun x hx => hlt x (List.mem_cons_of_mem _ hx)⟩
  | MISS =>
    simp [hT] at e1 e2 e3
    cases hfull : r.run.full with
    | nil => simp [hfull] at e3
    | cons w fs =>
      rw [hfull] at e3
      have ho := recon_ok h.dict hp hc .MISS (idx := 0) w (by simp)
      exact ⟨_, by simp only [replayStep, ht, hT, hfull]; rfl, rfl,
        replayPut_ok hn h ho.1 ho.2 e1 e2 (by simp at e3; omega) hlt⟩

theorem replayLoop_ok {p : Params} {c : Cfg} {tags : List Tag} {ord : List Nat} (fuel : Nat) {r : ReplayRun}
    (hp : ∀ c h, 0 < c.M → p.hash c h < c.M) (hc : CfgFacts p c) (hlt : ∀ i ∈ ord, i < tags.length)
    (hnd : ord.Nodup) (hf : ord.length ≤ r.run.seq + fuel) (h : ReplayOk c tags (ord.drop r.run.seq) r) :
    ∃ r', replayLoop p c ord fuel r = some r' ∧ ReplayOk c tags [] r' := by
  induction fuel generalizing r with
  | zero =>
    rw [List.drop_eq_nil_of_le (by omega)] at h
    exact ⟨r, rfl, h⟩
  | succ fuel ih =>
    by_cases hs : r.run.seq < ord.length
    · have hd := List.drop_eq_getElem_cons hs
      rw [hd] at h
      have hnd' : (ord.drop r.run.seq).Nodup := hnd.sublist (List.drop_sublist _ _)
      rw [hd] at hnd'
      obtain ⟨r', h1, h2, h3⟩ := replayStep_ok hp hc (hlt _ (List.getElem_mem hs)) (List.nodup_cons.1 hnd').1 h
      rw [← h2] at h3
      obtain ⟨r'', h4, h5⟩ := ih (by rw [h2]; omega) h3
      exact ⟨r'', by simp only [replayLoop, List.getElem?_eq_getElem hs, h1, h4], h5⟩
    · rw [List.drop_eq_nil_of_le (by omega)] at h
      exact ⟨r, by simp only [replayLoop, List.getElem?_eq_none (Nat.le_of_not_lt hs)], h⟩

/-- The tags met along the order are the tags of the page. -/
theorem order_tags_perm {tags : List Tag} {s : Nat} (hs : 0 < s) :
    ((order tags.length s).map (tagAt tags)).Perm tags := by
  have h : (order tags.length s).Perm (List.range tags.length) :=
    (List.perm_ext_iff_of_nodup (order_nodup _ s hs) List.nodup_range).2
      fun i => by rw [mem_order hs, List.mem_range]
  have he : (List.range tags.length).map (tagAt tags) = tags := by
    apply List.ext_getElem (by simp)
    intro i h1 h2
    simp [tagAt, h2]
  have hm := h.map (tagAt tags)
  rwa [he] at hm

/-- For streams of the right lengths the replay runs to its end with nothing left over (44_layout_decoder.md R193). -/
theorem replay_ok {p : Params} {c : Cfg} {x : Parsed} (hp : ∀ c h, 0 < c.M → p.hash c h < c.M) (hc : CfgFacts p c)
    (hn : x.tags.length = x.n) (h1 : x.idx.length = x.tags.count .EXACT + x.tags.count .PARTIAL)
    (h2 : x.low.length = x.tags.count .PARTIAL) (h3 : x.full.length = x.tags.count .MISS)
    (h4 : ∀ e ∈ x.idx, e < cap c) : ∃ r, replay p c x = some r ∧ ReplayOk c x.tags [] r := by
  have hperm := order_tags_perm (tags := x.tags) hc.stride
  rw [hn] at hperm
  exact replayLoop_ok (p := p) (tags := x.tags) (ord := order x.n c.stride) x.n hp hc
    (r := { dict := fresh c
            run := { seq := 0, tags := x.tags.map some, idx := x.idx, low := x.low, full := x.full }
            out := List.replicate x.n none })
    (fun i hi => by rw [hn]; exact (mem_order hc.stride).1 hi) (order_nodup _ _ hc.stride)
    (by rw [order_length _ _ hc.stride]; simp)
    { dict := fresh_dictOk c
      tagsSame := rfl
      outLength := by simp [hn]
      undefined := by
        intro i hi; rw [hn] at hi
        simp [hi, mem_order hc.stride]
      outOk := by intro w hw; simp at hw
      idxLength := by simp only [List.drop_zero, hperm.count_eq, h1]
      lowLength := by simp only [List.drop_zero, hperm.count_eq, h2]
      fullLength := by simp only [List.drop_zero, hperm.count_eq, h3]
      idxLt := h4 }

/-- What `replay` returns for streams of the right lengths, said once (44_layout_decoder.md R193). -/
theorem replay_spec {p : Params} {c : Cfg} {x : Parsed} (hp : ∀ c h, 0 < c.M → p.hash c h < c.M) (hc : CfgFacts p c)
    (hn : x.tags.length = x.n) (h1 : x.idx.length = x.tags.count .EXACT + x.tags.count .PARTIAL)
    (h2 : x.low.length = x.tags.count .PARTIAL) (h3 : x.full.length = x.tags.count .MISS)
    (h4 : ∀ e ∈ x.idx, e < cap c) :
    ∃ r out, replay p c x = some r ∧ definedSlots r.out = some out ∧ r.out = out.map some ∧ out.length = x.n ∧
      ∀ w ∈ out, WordOk c w := by
  obtain ⟨r, hr, ho⟩ := replay_ok hp hc hn h1 h2 h3 h4
  obtain ⟨out, hd, hout⟩ := definedSlots_of_forall r.out (by
    intro y hy hnone
    obtain ⟨i, hi, rfl⟩ := List.mem_iff_getElem.1 hy
    have := (ho.undefined i (by rw [← ho.outLength]; exact hi)).1 (by rw [List.getElem?_eq_getElem hi, hnone])
    simp at this)
  refine ⟨r, out, hr, hd, hout, ?_, ?_⟩
  · have := ho.outLength; rw [hout, hn] at this; simpa using this
  · intro w hw
    exact ho.outOk w (by rw [hout]; exact List.mem_map.2 ⟨w, hw, rfl⟩)

/-! ### What each pass takes from the streams -/

theorem seenTags_succ {tags : List Tag} {ord : List Nat} {t i : Nat} {g : Tag} (hi : ord[t]? = some i)
    (hg : tags[i]? = some g) (g' : Tag) :
    seenTags tags ord (t + 1) g' = seenTags tags ord t g' + if g = g' then 1 else 0 := by
  unfold seenTags
  rw [List.take_add_one, hi, List.filter_append, List.length_append]
  by_cases h : g = g' <;> simp [hg, h]

/-- All that one pass of the replay loop can do, by the tag of its position (44_layout_decoder.md R193). -/
theorem replayStep_some {p : Params} {c : Cfg} {i : Nat} {r r' : ReplayRun} (h : replayStep p c i r = some r') :
    ((r.run.tags[i]?).join = some .ZERO ∧
      r' = replayPut r i (recon p c r.dict .ZERO 0 0) r.run.idx r.run.low r.run.full) ∨
    (∃ e is, (r.run.tags[i]?).join = some .EXACT ∧ r.run.idx = e :: is ∧
      r' = replayPut r i (recon p c r.dict .EXACT e 0) is r.run.low r.run.full) ∨
    (∃ e is l ls, (r.run.tags[i]?).join = some .PARTIAL ∧ r.run.idx = e :: is ∧ r.run.low = l :: ls ∧
      r' = replayPut r i (recon p c r.dict .PARTIAL e (BitVec.ofNat 64 l)) is ls r.run.full) ∨
    (∃ w fs, (r.run.tags[i]?).join = some .MISS ∧ r.run.full = w :: fs ∧
      r' = replayPut r i (recon p c r.dict .MISS 0 w) r.run.idx r.run.low fs) := by
  unfold replayStep at h
  split at h
  · exact .inl ⟨‹_›, (Option.some.inj h).symm⟩
  · exact .inr (.inl ⟨_, _, ‹_›, ‹_›, (Option.some.inj h).symm⟩)
  · exact .inr (.inr (.inl ⟨_, _, _, _, ‹_›, ‹_›, ‹_›, (Option.some.inj h).symm⟩))
  · exact .inr (.inr (.inr ⟨_, _, ‹_›, ‹_›, (Option.some.inj h).symm⟩))
  · cases h

/-- What a pass takes and leaves, against the streams `x` it started from. -/
theorem replayStep_takes {p : Params} {c : Cfg} {x : Parsed} {ord : List Nat} {a : Nat} {g : Tag} {r r1 : ReplayRun}
    (hst : replayStep p c a r = some r1) (hget : ord[r.run.seq]? = some a) (hg : x.tags[a]? = some g)
    (htags : r.run.tags = x.tags.map some)
    (hi : r.run.idx = x.idx.drop (seenTags x.tags ord r.run.seq .EXACT + seenTags x.tags ord r.run.seq .PARTIAL))
    (hl : r.run.low = x.low.drop (seenTags x.tags ord r.run.seq .PARTIAL))
    (hfu : r.run.full = x.full.drop (seenTags x.tags ord r.run.seq .MISS)) :
    ∃ w : Word, r1.out = r.out.set a (some w) ∧ r1.run.seq = r.run.seq + 1 ∧ r1.run.tags = r.run.tags ∧
      r1.run.idx =
        x.idx.drop (seenTags x.tags ord (r.run.seq + 1) .EXACT + seenTags x.tags ord (r.run.seq + 1) .PARTIAL) ∧
      r1.run.low = x.low.drop (seenTags x.tags ord (r.run.seq + 1) .PARTIAL) ∧
      r1.run.full = x.full.drop (seenTags x.tags ord (r.run.seq + 1) .MISS) ∧
      ReplayTakes p c x ord r.run.seq g r.dict r1.dict w := by
  have hd1 : ∀ {α : Type} {l : List α} {k : Nat} {e : α} {es : List α}, l.drop k = e :: es →
      l[k]? = some e ∧ es = l.drop (k + 1) := by
    intro α l k e es hh
    have h0 := congrArg (·[0]?) hh
    have h1 := congrArg List.tail hh
    exact ⟨by simpa using h0, by simpa using h1.symm⟩
  have hjoin : (r.run.tags[a]?).join = some g := by rw [htags]; simp [hg]
  have hsucc := fun g' => seenTags_succ hget hg g'
  rcases replayStep_some hst with ⟨hj, rfl⟩ | ⟨e, is, hj, h1, rfl⟩ | ⟨e, is, l, ls, hj, h1, h2, rfl⟩ |
      ⟨v, fs, hj, h1, rfl⟩ <;>
    (rw [hjoin] at hj; obtain rfl := Option.some.inj hj) <;>
    refine ⟨_, rfl, rfl, rfl, ?_⟩ <;> simp only [hsucc, replayPut, ReplayTakes]
  · simp [hi, hl, hfu]
  · rw [hi] at h1
    obtain ⟨k1, k2⟩ := hd1 h1
    simp [hl, hfu, k1, k2, Nat.add_right_comm]
  · rw [hi] at h1
    rw [hl] at h2
    obtain ⟨k1, k2⟩ := hd1 h1
    obtain ⟨k3, k4⟩ := hd1 h2
    simp [hfu, k1, k2, k3, k4, Nat.add_assoc]
  · rw [hfu] at h1
    obtain ⟨k1, k2⟩ := hd1 h1
    simp [hi, hl, k1, k2]

/-- The dictionary before each pass of the loop, and what the pass takes and writes (44_layout_decoder.md R193). -/
theorem replayLoop_trace {p : Params} {c : Cfg} (x : Parsed) {ord : List Nat} (hnd : ord.Nodup)
    (hlt : ∀ i ∈ ord, i < x.tags.length) (fuel : Nat) {r r' : ReplayRun} (h : replayLoop p c ord fuel r = some r')
    (hf : ord.length ≤ r.run.seq + fuel) (hle : r.run.seq ≤ ord.length) (htags : r.run.tags = x.tags.map some)
    (hol : r.out.length = x.tags.length)
    (hi : r.run.idx = x.idx.drop (seenTags x.tags ord r.run.seq .EXACT + seenTags x.tags ord r.run.seq .PARTIAL))
    (hl : r.run.low = x.low.drop (seenTags x.tags ord r.run.seq .PARTIAL))
    (hfu : r.run.full = x.full.drop (seenTags x.tags ord r.run.seq .MISS)) :
    ∃ d : Nat → Dict, d r.run.seq = r.dict ∧ d ord.length = r'.dict ∧ r'.run.seq = ord.length ∧
      (∀ i, i ∉ ord.drop r.run.seq → r'.out[i]? = r.out[i]?) ∧
      ∀ (t i : Nat) (g : Tag), r.run.seq ≤ t → ord[t]? = some i → x.tags[i]? = some g →
        ∃ w, r'.out[i]? = some (some w) ∧ ReplayTakes p c x ord t g (d t) (d (t + 1)) w := by
  have stop : r = r' → r.run.seq = ord.length → ∃ d : Nat → Dict, d r.run.seq = r.dict ∧ d ord.length = r'.dict ∧
      r'.run.seq = ord.length ∧ (∀ i, i ∉ ord.drop r.run.seq → r'.out[i]? = r.out[i]?) ∧
      ∀ (t i : Nat) (g : Tag), r.run.seq ≤ t → ord[t]? = some i → x.tags[i]? = some g →
        ∃ w, r'.out[i]? = some (some w) ∧ ReplayTakes p c x ord t g (d t) (d (t + 1)) w := by
    rintro rfl e
    refine ⟨fun _ => r.dict, rfl, rfl, e, fun _ _ => rfl, fun t i g ht hti => ?_⟩
    rw [List.getElem?_eq_none (by omega)] at hti; cases hti
  induction fuel generalizing r with
  | zero => exact stop (Option.some.inj h) (by omega)
  | succ fuel ih =>
    by_cases hs : r.run.seq < ord.length
    · have hget := List.getElem?_eq_getElem hs
      have hdrop := List.drop_eq_getElem_cons hs
      generalize ord[r.run.seq] = a at hget hdrop
      have ha : a < x.tags.length := hlt a (List.mem_of_getElem? hget)
      have hta : x.tags[a]? = some x.tags[a] := List.getElem?_eq_getElem ha
      have hnin : a ∉ ord.drop (r.run.seq + 1) := by
        have := hnd.sublist (List.drop_sublist r.run.seq ord)
        rw [hdrop] at this; exact (List.nodup_cons.1 this).1
      simp only [replayLoop, hget] at h
      cases hst : replayStep p c a r with
      | none => rw [hst] at h; cases h
      | some r1 =>
        rw [hst] at h
        obtain ⟨w, e1, e3, e4, e5, e6, e7, e8⟩ := replayStep_takes hst hget hta htags hi hl hfu
        rw [← e3] at e5 e6 e7
        obtain ⟨d, d1, d2, d3, d4, d5⟩ := ih h (by omega) (by omega) (by rw [e4, htags]) (by rw [e1]; simpa using hol)
          e5 e6 e7 fun he hq => by
            subst he
            refine ⟨fun _ => r1.dict, rfl, rfl, hq, fun _ _ => rfl, fun t i g ht hti => ?_⟩
            rw [List.getElem?_eq_none (by omega)] at hti; cases hti
        rw [e3] at d1 d4 d5
        refine ⟨fun t => if t = r.run.seq then r.dict else d t, if_pos rfl, ?_, d3, ?_, ?_⟩
        · simp only [if_neg (show ¬ ord.length = r.run.seq by omega), d2]
        · intro i hin
          rw [hdrop, List.mem_cons, not_or] at hin
          rw [d4 i hin.2, e1, List.getElem?_set_ne (Ne.symm hin.1)]
        · intro t i g ht hti hg
          by_cases htt : t = r.run.seq
          · subst htt
            rw [hget] at hti; cases hti
            rw [hta] at hg; cases hg
            refine ⟨w, ?_, ?_⟩
            · rw [d4 a hnin, e1]; simp [hol, ha]
            · simpa only [if_true, if_neg (show ¬ r.run.seq + 1 = r.run.seq by omega), d1] using e8
          · obtain ⟨w', q1, q2⟩ := d5 t i g (by omega) hti hg
            refine ⟨w', q1, ?_⟩
            simpa only [if_neg htt, if_neg (show ¬ t + 1 = r.run.seq by omega)] using q2
    · simp only [replayLoop, List.getElem?_eq_none (Nat.le_of_not_lt hs)] at h
      exact stop (Option.some.inj h) (by omega)

end Sys2Proof.Machine
end

