-- ==== Sys2Proof/Laws/Commands.lean ====
section
/-!
SUPPORT. All that each command can answer, once per command: with which code it ends, under which condition, in which
state. The statements about commands cite these and do not unfold the meanings.
-/

namespace Sys2Proof.Machine

/-! ### System commands and the packer -/

theorem execNop_eq (s : State) : execNop s = .next (endWith .ok s) := rfl

/-- The staging values that pass, and the record they describe (45_system.md R212). -/
theorem proposedCfg_eq_some {p : Params} {g : Staging} {c : Cfg} (h : proposedCfg p g = some c) :
    cfgLegal p c = true ∧ c.stride < 2 ^ 32 ∧ c.W.bits = g.wordWidth.toNat ∧ c.L = g.lowBits.toNat ∧
      orgCode c.org = g.org.toNat ∧ c.S = g.setSize.toNat ∧ c.M = g.numSets.toNat ∧ c.stride = g.stride.toNat ∧
      c.N = g.pageWords.toNat := by
  unfold proposedCfg at h
  split at h
  · rename_i w o hw ho
    dsimp only at h
    split at h
    · rename_i hl
      cases h
      refine ⟨hl, g.stride.isLt, ?_, rfl, ?_, rfl, rfl, rfl, rfl⟩
      · unfold widthOf at hw
        split_ifs at hw with h1 h2
        · cases hw; exact h1.symm
        · cases hw; exact h2.symm
      · unfold orgOf at ho
        split_ifs at ho with h1 h2 h3 h4
        · cases ho; exact h1.symm
        · cases ho; exact h2.symm
        · cases ho; exact h3.symm
        · cases ho; exact h4.symm
    · cases h
  · cases h

/-- A proposed configuration is legal. -/
theorem proposedCfg_cfgOk {p : Params} {g : Staging} {c : Cfg} (h : proposedCfg p g = some c) : CfgOk p c :=
  ⟨(proposedCfg_eq_some h).1, (proposedCfg_eq_some h).2.1⟩

theorem configureOn_next {p : Params} {s t : State} (h : configureOn p s = .next t) :
    (∃ c, proposedCfg p s.stage = some c ∧
      t = endWith .ok (setDictValid true (setCfgValid true ((s.setCfg c).setDict (fresh c))))) ∨
    (proposedCfg p s.stage = none ∧
      t = endWith .invalidConfiguration (setDictValid false (setCfgValid false s))) := by
  unfold configureOn at h
  split at h
  · exact .inl ⟨_, ‹_›, finishOk_next h⟩
  · exact .inr ⟨‹_›, raiseError_next h⟩

theorem execPackw_next {k : Nat} {s t : State} (h : execPackw k s = .next t) :
    (s.status.cfgValid = true ∧ legalK k = true ∧ t = endWith .ok (s.setRes0 (packWord k (laneGroup s k)))) ∨
    ((legalK k = false ∨ s.status.cfgValid = false) ∧ t = endWith .badCommand s) := by
  unfold execPackw at h
  split at h
  · rcases needCfg_next h with ⟨hc, h⟩ | ⟨hc, rfl⟩
    · exact .inl ⟨hc, ‹_›, finishOk_next h⟩
    · exact .inr ⟨.inr hc, rfl⟩
  · exact .inr ⟨.inl (Bool.eq_false_iff.2 ‹_›), raiseError_next h⟩

theorem execUnpackw_next {k : Nat} {s t : State} (h : execUnpackw k s = .next t) :
    (s.status.cfgValid = true ∧ legalK k = true ∧ t = endWith .ok (s.setLanes (lanesUnpacked s k))) ∨
    ((legalK k = false ∨ s.status.cfgValid = false) ∧ t = endWith .badCommand s) := by
  unfold execUnpackw at h
  split at h
  · rcases needCfg_next h with ⟨hc, h⟩ | ⟨hc, rfl⟩
    · exact .inl ⟨hc, ‹_›, finishOk_next h⟩
    · exact .inr ⟨.inr hc, rfl⟩
  · exact .inr ⟨.inl (Bool.eq_false_iff.2 ‹_›), raiseError_next h⟩

/-! ### Dictionary commands -/

theorem execDinit_next {s t : State} (h : execDinit s = .next t) :
    (s.status.cfgValid = true ∧ t = endWith .ok (setDictValid true (s.setDict (fresh s.cfg)))) ∨
    (s.status.cfgValid = false ∧ t = endWith .badCommand s) := by
  rcases needCfg_next h with ⟨hc, h⟩ | h
  · exact .inl ⟨hc, finishOk_next h⟩
  · exact .inr h

theorem dlookupOn_next {p : Params} {s t : State} (h : dlookupOn p s = .next t) :
    (s.status.cfgValid = true ∧ s.status.dictValid = true ∧
      t = endWith .ok ((s.setRes1 (BitVec.ofNat 32 (lookup p s.cfg s.dict (argWord s)).1)).setRes0
        (lookup p s.cfg s.dict (argWord s)).2)) ∨
    ((s.status.cfgValid = false ∨ s.status.dictValid = false) ∧ t = endWith .badCommand s) := by
  rcases needDict_next h with ⟨hc, hd, h⟩ | h
  · exact .inl ⟨hc, hd, finishOk_next h⟩
  · exact .inr h

theorem execDpromote_next {s t : State} (h : execDpromote s = .next t) :
    (s.status.cfgValid = true ∧ s.status.dictValid = true ∧ s.arg1.toNat < cap s.cfg ∧
      t = endWith .ok (s.setDict (promote s.cfg s.dict (argEntry s)))) ∨
    ((s.status.cfgValid = false ∨ s.status.dictValid = false ∨ cap s.cfg ≤ s.arg1.toNat) ∧
      t = endWith .badCommand s) := by
  rcases needDict_next h with ⟨hc, hd, h⟩ | ⟨hb, rfl⟩
  · rcases needEntry_next h with ⟨he, h⟩ | ⟨he, rfl⟩
    · exact .inl ⟨hc, hd, he, finishOk_next h⟩
    · exact .inr ⟨.inr (.inr he), rfl⟩
  · exact .inr ⟨hb.imp_right .inl, rfl⟩

theorem execDsetval_next {s t : State} (h : execDsetval s = .next t) :
    (s.status.cfgValid = true ∧ s.status.dictValid = true ∧ s.arg1.toNat < cap s.cfg ∧
      t = endWith .ok (s.setDict (setValue s.dict (argEntry s) (argWord s)))) ∨
    ((s.status.cfgValid = false ∨ s.status.dictValid = false ∨ cap s.cfg ≤ s.arg1.toNat) ∧
      t = endWith .badCommand s) := by
  rcases needDict_next h with ⟨hc, hd, h⟩ | ⟨hb, rfl⟩
  · rcases needEntry_next h with ⟨he, h⟩ | ⟨he, rfl⟩
    · exact .inl ⟨hc, hd, he, finishOk_next h⟩
    · exact .inr ⟨.inr (.inr he), rfl⟩
  · exact .inr ⟨hb.imp_right .inl, rfl⟩

/-! ### `CLASSIFY` and `RECON` -/

/-- The state `CLASSIFY` leaves, before `STATUS.RESULT` (42_word_classifier.md R156). -/
abbrev classified (p : Params) (s : State) : State :=
  ((((s.setDict (classify p s.cfg s.dict (argWord s)).2).setResTag
    (tagWord (emittedTag (classify p s.cfg s.dict (argWord s)).1))).setRes1
      (BitVec.ofNat 32 (candidate p s.cfg s.dict (argWord s)))).setRes0
        (classifyRes0 s.cfg (argWord s) (emittedTag (classify p s.cfg s.dict (argWord s)).1)))

theorem classifyOn_next {p : Params} {s t : State} (h : classifyOn p s = .next t) :
    (s.status.cfgValid = true ∧ s.status.dictValid = true ∧ t = endWith .ok (classified p s)) ∨
    ((s.status.cfgValid = false ∨ s.status.dictValid = false) ∧ t = endWith .badCommand s) := by
  rcases needDict_next h with ⟨hc, hd, h⟩ | h
  · exact .inl ⟨hc, hd, finishOk_next h⟩
  · exact .inr h

/-- The state `RECON t` leaves, before `STATUS.RESULT` (44_layout_decoder.md R195). -/
abbrev reconned (p : Params) (t : Tag) (s : State) : State :=
  ((s.setDict (recon p s.cfg s.dict t (argEntry s) s.arg0).2).setRes1
    (BitVec.ofNat 32 (reconEntry p s.cfg s.dict t (argEntry s) s.arg0))).setRes0
      (recon p s.cfg s.dict t (argEntry s) s.arg0).1

theorem reconOn_next {p : Params} {tag : Tag} {s t : State} (h : reconOn p tag s = .next t) :
    (s.status.cfgValid = true ∧ s.status.dictValid = true ∧
      (tag = .EXACT ∨ tag = .PARTIAL → s.arg1.toNat < cap s.cfg) ∧ t = endWith .ok (reconned p tag s)) ∨
    ((s.status.cfgValid = false ∨ s.status.dictValid = false ∨
      ((tag = .EXACT ∨ tag = .PARTIAL) ∧ cap s.cfg ≤ s.arg1.toNat)) ∧ t = endWith .badCommand s) := by
  rcases needDict_next h with ⟨hc, hd, h⟩ | ⟨hb, rfl⟩
  · cases tag with
    | ZERO => exact .inl ⟨hc, hd, by simp, finishOk_next h⟩
    | MISS => exact .inl ⟨hc, hd, by simp, finishOk_next h⟩
    | EXACT =>
      rcases needEntry_next h with ⟨he, h⟩ | ⟨he, rfl⟩
      · exact .inl ⟨hc, hd, fun _ => he, finishOk_next h⟩
      · exact .inr ⟨.inr (.inr ⟨.inl rfl, he⟩), rfl⟩
    | PARTIAL =>
      rcases needEntry_next h with ⟨he, h⟩ | ⟨he, rfl⟩
      · exact .inl ⟨hc, hd, fun _ => he, finishOk_next h⟩
      · exact .inr ⟨.inr (.inr ⟨.inr rfl, he⟩), rfl⟩
  · exact .inr ⟨hb.imp_right .inl, rfl⟩

/-! ### Macro commands -/

/-- All that `COMPRESS` can answer with a next state (43_layout_encoder.md R177, R178). -/
theorem compressOn_next {p : Params} {s t : State} (h : compressOn p s = .next t) :
    ((s.status.cfgValid = false ∨ p.maxCbufWords < s.cbufLen.toNat) ∧ t = endWith .badCommand s) ∨
    (s.status.cfgValid = true ∧ s.cbufLen.toNat ≤ p.maxCbufWords ∧
      ((s.cbufLen.toNat < worstCase s.cfg s.cfg.N ∧ t = endWith .bufferTooSmall s) ∨
        (worstCase s.cfg s.cfg.N ≤ s.cbufLen.toNat ∧ ∃ tags b,
          definedSlots (modelPage p s.cfg (pageWordsOf s)).run.tags = some tags ∧
          encodeBuffer s.cfg s.cfg.N tags (modelPage p s.cfg (pageWordsOf s)).run.idx
            (modelPage p s.cfg (pageWordsOf s)).run.low (modelPage p s.cfg (pageWordsOf s)).run.full = some b ∧
          t = endWith .ok (commitCompress s b)))) := by
  rcases needCfg_next h with ⟨hc, h⟩ | ⟨hc, rfl⟩
  · rcases needCbufLen_next h with ⟨hl, h⟩ | ⟨hl, rfl⟩
    · right
      refine ⟨hc, hl, ?_⟩
      split at h
      · exact .inl ⟨‹_›, raiseError_next h⟩
      · right
        refine ⟨by omega, ?_⟩
        dsimp only at h
        split at h
        · cases h
        · rename_i tags ht
          split at h
          · cases h
          · rename_i b hb
            exact ⟨tags, b, ht, hb, finishOk_next h⟩
    · exact .inl ⟨.inr hl, rfl⟩
  · exact .inl ⟨.inl hc, rfl⟩

/-- All that `DECOMPRESS` can answer with a next state (44_layout_decoder.md R194). -/
theorem decompressOn_next {p : Params} {s t : State} (h : decompressOn p s = .next t) :
    ((s.status.cfgValid = false ∨ p.maxCbufWords < s.cbufLen.toNat) ∧ t = endWith .badCommand s) ∨
    (s.status.cfgValid = true ∧ s.cbufLen.toNat ≤ p.maxCbufWords ∧
      ((∃ code, parse p s.cfg (cbufWordsOf s) s.cbufLen.toNat = .error code ∧ t = endWith code s) ∨
        (∃ x r out, parse p s.cfg (cbufWordsOf s) s.cbufLen.toNat = .ok x ∧ replay p s.cfg x = some r ∧
          definedSlots r.out = some out ∧ t = endWith .ok (commitDecompress s x.n out)))) := by
  rcases needCfg_next h with ⟨hc, h⟩ | ⟨hc, rfl⟩
  · rcases needCbufLen_next h with ⟨hl, h⟩ | ⟨hl, rfl⟩
    · right
      refine ⟨hc, hl, ?_⟩
      split at h
      · exact .inl ⟨_, ‹_›, raiseError_next h⟩
      · right
        rename_i x hx
        split at h
        · cases h
        · rename_i r hr
          split at h
          · cases h
          · rename_i out ho
            exact ⟨x, r, out, hx, hr, ho, finishOk_next h⟩
    · exact .inl ⟨.inr hl, rfl⟩
  · exact .inl ⟨.inl hc, rfl⟩

/-- `parse` fails only with two of the codes (60_exceptions.md R228, R230). -/
theorem parse_error {p : Params} {c : Cfg} {b : List Word} {len : Nat} {code : ResultCode}
    (h : parse p c b len = .error code) : code = .malformedInput ∨ code = .bufferTooSmall := by
  simp only [parse, parseAreas] at h
  split_ifs at h <;> cases h <;> simp

/-- What `parse` has tested when it succeeds, and what it returns (44_layout_decoder.md R190). -/
theorem parse_ok {p : Params} {c : Cfg} {b : List Word} {len : Nat} {x : Parsed} (h : parse p c b len = .ok x) :
    4 ≤ len ∧ 4 + tagWords c (headerField b 0) ≤ len ∧ headerField b 0 ≤ p.maxPageWords ∧
    4 + tagWords c (headerField b 0) ≤ headerField b 1 ∧ headerField b 1 ≤ headerField b 2 ∧
    headerField b 2 ≤ headerField b 3 ∧ headerField b 3 ≤ len ∧
    x.n = headerField b 0 ∧ x.tags = tagsOfArea c x.n (slice b 4 (4 + tagWords c x.n)) ∧
    headerField b 1 - (4 + tagWords c x.n) = x.tags.count .MISS ∧
    headerField b 2 - headerField b 1 =
      ceilDiv (x.tags.count .EXACT + x.tags.count .PARTIAL) (reps c (indexBits c)) ∧
    headerField b 3 - headerField b 2 = ceilDiv (x.tags.count .PARTIAL) (reps c c.L) ∧
    x.idx = (unpack c (indexBits c) (slice b (headerField b 1) (headerField b 2))).take
      (x.tags.count .EXACT + x.tags.count .PARTIAL) ∧
    x.low = (unpack c c.L (slice b (headerField b 2) (headerField b 3))).take (x.tags.count .PARTIAL) ∧
    x.full = slice b (4 + tagWords c x.n) (headerField b 1) := by
  simp only [parse, parseAreas] at h
  split_ifs at h with h1 h2 h3 h4 h5 h6 h7
  cases h
  simp only [not_not] at h4 h5 h6 h7
  exact ⟨by omega, by omega, by omega, h4.1, h4.2.1, h4.2.2.1, h4.2.2.2, rfl, rfl, h5, h6, h7, rfl, rfl, rfl⟩

/-! ### What the macro commands work on -/

theorem pageWordsOf_length (s : State) : (pageWordsOf s).length = s.cfg.N := by simp [pageWordsOf]

theorem pageWordsOf_wordOk (s : State) : ∀ w ∈ pageWordsOf s, WordOk s.cfg w := by
  intro w hw
  obtain ⟨i, -, rfl⟩ := List.mem_map.1 hw
  exact truncW_wordOk _ _

theorem cbufWordsOf_length (s : State) : (cbufWordsOf s).length = s.cbufLen.toNat := by simp [cbufWordsOf]

theorem slice_length (b : List Word) {lo hi : Nat} (h : hi ≤ b.length) : (slice b lo hi).length = hi - lo := by
  simp [slice]; omega

/-- The streams `parse` returns have the lengths the tags need and every item is in range (44_layout_decoder.md R191). -/
theorem parse_streams {p : Params} {c : Cfg} {b : List Word} {x : Parsed} (hc : CfgFacts p c)
    (h : parse p c b b.length = .ok x) :
    x.tags.length = x.n ∧ x.full.length = x.tags.count .MISS ∧
    x.idx.length = x.tags.count .EXACT + x.tags.count .PARTIAL ∧ x.low.length = x.tags.count .PARTIAL ∧
    (∀ e ∈ x.idx, e < cap c) ∧ (∀ l ∈ x.low, l < 2 ^ c.L) ∧ x.n ≤ p.maxPageWords := by
  obtain ⟨-, h2, h3, h4, h5, h6, h7, hn, ht, hm, hq, hr, hi, hl, hf⟩ := parse_ok h
  obtain ⟨hcap, hib1, hib16⟩ := hc.indexBits
  have r2 := (reps_bounds c (k := 2) (by omega) (by omega)).1
  have rI := (reps_bounds c hib1 hib16).1
  have rL := (reps_bounds c (k := c.L) (by have := hc.lowBits; omega) hc.lowBits.2).1
  rw [← hn] at h2 h3 h4
  refine ⟨?_, ?_, ?_, ?_, ?_, ?_, h3⟩
  · have hT : x.n ≤ tagWords c x.n * reps c 2 := (ceilDiv_le_iff (by omega)).1 (le_of_eq (tagWords_eq c x.n))
    rw [ht, tagsOfArea, List.length_map, List.length_take, unpack_length, slice_length b (by omega)]
    rw [Nat.add_sub_cancel_left]; omega
  · rw [hf, slice_length b (by omega), hm]
  · have := (ceilDiv_le_iff (by omega)).1 (le_of_eq hq.symm)
    rw [hi, List.length_take, unpack_length, slice_length b (by omega)]; omega
  · have := (ceilDiv_le_iff (by omega)).1 (le_of_eq hr.symm)
    rw [hl, List.length_take, unpack_length, slice_length b (by omega)]; omega
  · intro e he
    rw [hi] at he
    rw [hcap]; exact unpack_lt (List.mem_of_mem_take he)
  · intro l h'
    rw [hl] at h'
    exact unpack_lt (List.mem_of_mem_take h')

/-- A packed pair of areas and the full words of a page never exceed the worst case (43_layout_encoder.md R174, R179). -/
theorem areas_le {r1 r2 m q r n : Nat} (h1 : 2 ≤ r1) (h2 : 2 ≤ r2) (hr : r ≤ q) (hn : m + q ≤ n) :
    m + ceilDiv q r1 + ceilDiv r r2 ≤ n + 1 := by
  have hq : ceilDiv q r1 ≤ (q + 1) / 2 := (ceilDiv_le_iff (by omega)).2
    (le_trans (by omega : q ≤ (q + 1) / 2 * 2) (Nat.mul_le_mul_left _ h1))
  have hr' : ceilDiv r r2 ≤ (r + 1) / 2 := (ceilDiv_le_iff (by omega)).2
    (le_trans (by omega : r ≤ (r + 1) / 2 * 2) (Nat.mul_le_mul_left _ h2))
  omega

theorem count_tags (l : List Tag) :
    l.count .ZERO + l.count .EXACT + l.count .PARTIAL + l.count .MISS = l.length := by
  induction l with
  | nil => rfl
  | cons t l ih => cases t <;> simp <;> omega

/-- On a legal configuration `COMPRESS` finds an encoding of the page, whose size lies between the header with the tags
area and the worst case, every word of `W` bits (43_layout_encoder.md R172, R173). -/
theorem compressOn_encodes {p : Params} {s : State} (hp : p.Legal) (hc : CfgOk p s.cfg) :
    ∃ tags b,
      (modelPage p s.cfg (pageWordsOf s)).run.tags = tags.map some ∧ tags.length = s.cfg.N ∧
      definedSlots (modelPage p s.cfg (pageWordsOf s)).run.tags = some tags ∧
      encodeBuffer s.cfg s.cfg.N tags (modelPage p s.cfg (pageWordsOf s)).run.idx
        (modelPage p s.cfg (pageWordsOf s)).run.low (modelPage p s.cfg (pageWordsOf s)).run.full = some b ∧
      4 + tagWords s.cfg s.cfg.N ≤ b.length ∧ b.length ≤ worstCase s.cfg s.cfg.N ∧ ∀ w ∈ b, WordOk s.cfg w := by
  have hf := hc.facts
  obtain ⟨tags, h1, h2, h3, h4, h5, h6, h7, h8, h9⟩ :=
    modelPage_spec (p := p) hp.hashInRange hf (pageWordsOf_wordOk s)
  rw [pageWordsOf_length] at h3
  obtain ⟨ta, ia, la, -, -, -, he, l1, l2, l3, w1, w2, w3⟩ :=
    encodeBuffer_spec hf s.cfg.N tags (modelPage p s.cfg (pageWordsOf s)).run.full h7 h8
  obtain ⟨-, hib1, hib16⟩ := hf.indexBits
  have rI := (reps_bounds s.cfg hib1 hib16).1
  have rL := (reps_bounds s.cfg (k := s.cfg.L) (by have := hf.lowBits; omega) hf.lowBits.2).1
  have hcount := count_tags tags
  have hareas := areas_le (m := tags.count .MISS) (q := tags.count .EXACT + tags.count .PARTIAL)
    (r := tags.count .PARTIAL) (n := s.cfg.N) rI rL (by omega) (by omega)
  have hlen := assembleBuffer_length s.cfg.N ta (modelPage p s.cfg (pageWordsOf s)).run.full ia la
  rw [l1, l2, l3, h3, h4, h5, h6] at hlen
  have hT : tagWords s.cfg s.cfg.N ≤ s.cfg.N :=
    (ceilDiv_le_iff (by have := Width.bits_bounds s.cfg.W; omega)).2
      (by have := Width.bits_bounds s.cfg.W; nlinarith)
  have hN := hf.pageWords
  have hmax := hp.pageHigh
  refine ⟨tags, _, h1, h3, h2, he, by omega, by unfold worstCase; omega, ?_⟩
  exact assembleBuffer_wordOk (by omega) (by rw [hlen]; omega) w1 h9 w2 w3

end Sys2Proof.Machine
end

