-- ==== Sys2Proof/Laws/Decode.lean ====
section
/-!
SUPPORT. What the decoder's table lookup and the encoder's format say, once each (30_encoding.md R70, R71).
-/

namespace Sys2Proof

/-- One row of the operation table either answers or leaves the rest of the table. -/
theorem opcRow_cases {P : Prop} [Decidable P] {a o : Opc} {x : Option Opc}
    (h : (if P then some a else x) = some o) : (P ∧ a = o) ∨ x = some o := by
  split at h
  · exact .inl ⟨‹_›, Option.some.inj h⟩
  · exact .inr h

/-- The number that names an operation is its code (30_encoding.md R71). -/
theorem opcOf_some {n : Nat} {o : Opc} (h : opcOf n = some o) : (opcCode o).toNat = n := by
  unfold opcOf at h
  iterate 12
    rcases opcRow_cases h with ⟨h1, h2⟩ | h'
    · subst h1; subst h2; rfl
    clear h
    rename _ => h
  cases h

/-- Every operation is named by its code. -/
theorem opcOf_opcCode (o : Opc) : opcOf (opcCode o).toNat = some o := by cases o <;> rfl

/-- A number names an operation exactly when it is one of the twelve codes. -/
theorem opcOf_eq_none_iff (n : Nat) :
    opcOf n = none ↔
      n ∉ [0x00, 0x01, 0x02, 0x10, 0x11, 0x12, 0x20, 0x21, 0x30, 0x31, 0x40, 0x41] := by
  constructor
  · intro h hn
    have h2 : ∀ n ∈ [0x00, 0x01, 0x02, 0x10, 0x11, 0x12, 0x20, 0x21, 0x30, 0x31, 0x40, 0x41],
      opcOf n ≠ none := by decide
    exact h2 n hn h
  · intro hn
    cases h : opcOf n with
    | none => rfl
    | some o => exact absurd (opcOf_some h ▸ by cases o <;> decide) hn

/-- Codes and tags correspond, code by code (30_encoding.md R74). -/
theorem tagCode_tagOfCode (n : Nat) : tagCode (tagOfCode n) = n % 4 := by
  have h : ∀ m < 4, tagCode (tagOfCode m) = m := by decide
  have hm := h (n % 4) (Nat.mod_lt _ (by omega))
  rwa [show tagOfCode (n % 4) = tagOfCode n by rw [tagOfCode, Nat.mod_mod]; rfl] at hm

/-- The format `CMD32` as a number. -/
theorem cmd32_toNat (o : Opc) (k : BitVec 5) (t : BitVec 2) :
    (cmd32 o k t).toNat = t.toNat * 65536 + k.toNat * 256 + (opcCode o).toNat := by
  have h1 := k.isLt
  have h2 := t.isLt
  have h3 := (opcCode o).isLt
  simp only [cmd32, BitVec.toNat_append]
  rw [← Nat.shiftLeft_add_eq_or_of_lt h3, ← Nat.shiftLeft_add_eq_or_of_lt h1]
  simp [Nat.shiftLeft_eq]; omega

end Sys2Proof
end

