-- ==== Sys2Proof/Laws/HostPort.lean ====
section
/-!
SUPPORT. The register map at each of its ranges (10_state.md R41), the host's loads, and a step by the move it makes.
-/

namespace Sys2Proof.Machine

/-! ### The register map -/

theorem regAt_fixed (p : Params) {a : Nat} (h : a < 0x100) : regAt p a = fixedRegAt a := by
  unfold regAt; rw [if_pos h]

theorem regAt_lane (p : Params) (j : Fin 64) : regAt p (0x100 + j.val) = some (.LANE j) := by
  have hj := j.isLt
  unfold regAt
  rw [if_neg (by omega), dif_pos (by omega)]
  simp

theorem regAt_page (p : Params) {i : Nat} (h : i < p.maxPageWords) : regAt p (0x10000 + i) = some (.PAGE i) := by
  unfold regAt
  rw [if_neg (by omega), dif_neg (by omega), if_pos (by omega)]
  simp

theorem regAt_cbuf (p : Params) (hp : p.Legal) {i : Nat} (h : i < p.maxCbufWords) :
    regAt p (0x20000 + i) = some (.CBUF i) := by
  have := hp.pageHigh
  unfold regAt
  rw [if_neg (by omega), dif_neg (by omega), if_neg (by omega), if_pos (by omega)]
  simp

/-- All that a cell's place in the map says of its index: it is inside the capacity. -/
theorem regAt_page_lt {p : Params} {a i : Nat} (h : regAt p a = some (.PAGE i)) :
    a = 0x10000 + i ∧ i < p.maxPageWords := by
  unfold regAt at h
  split_ifs at h with h1 h2 h3 h4
  · unfold fixedRegAt at h; split at h <;> simp at h
  · simp at h
  · simp only [Option.some.injEq, Reg.PAGE.injEq] at h; omega
  · simp at h

theorem regAt_cbuf_lt {p : Params} {a i : Nat} (h : regAt p a = some (.CBUF i)) :
    a = 0x20000 + i ∧ i < p.maxCbufWords := by
  unfold regAt at h
  split_ifs at h with h1 h2 h3 h4
  · unfold fixedRegAt at h; split at h <;> simp at h
  · simp at h
  · simp at h
  · simp only [Option.some.injEq, Reg.CBUF.injEq] at h; omega

/-- A register found at an index is the one the map puts there. -/
theorem regAt_index {p : Params} {a : Nat} {r : Reg} (h : regAt p a = some r) : regIndex r = a := by
  unfold regAt at h
  split_ifs at h with h1 h2 h3 h4
  · unfold fixedRegAt at h
    split at h <;> cases h <;> rfl
  all_goals cases h; simp only [regIndex]; omega

/-- An index the map does not list has no register. -/
theorem regAt_unlisted {p : Params} (hp : p.Legal) {a : Nat} (h : Unlisted p a) : regAt p a = none := by
  have h1 := hp.pageHigh
  have h2 := hp.cbufHigh
  unfold Unlisted at h
  unfold regAt
  split_ifs with h3 h4 h5 h6 <;> try omega
  · unfold fixedRegAt
    split <;> first | omega | rfl
  · rfl

/-- The host beside the block is no part of what it reads. -/
theorem hostReadOn_setHost (p : Params) (s : State) (v : HostSide) (b : Nat) :
    hostReadOn p (s.setHost v) b = hostReadOn p s b := by
  unfold hostReadOn
  split
  · rfl
  · rename_i r _; cases r <;> rfl

/-- A write to one register leaves what every other one reads. -/
theorem regRead_regWrite_ne (s : State) (v : Nat) {r r' : Reg} (h : r ≠ r') :
    regRead (regWrite s v r) r' = regRead s r' := by
  cases r <;> cases r' <;> simp [regRead, regWrite, pageCell, cbufCell, memGet_memSet] at h ⊢
  all_goals first
    | (rw [if_neg (fun hh => h hh.symm)])
    | (rw [Vector.getElem_set_ne]; intro hh; exact h (Fin.ext hh))

/-! ### Host programs -/

/-- A load is one write per value, to consecutive indices (30_encoding.md R90). -/
theorem asmLoad_eq_mapIdx (base : Nat) (vs : List Nat) :
    asmLoad base vs = vs.mapIdx fun i v => HostAction.wr (base + i) v := by
  induction vs generalizing base with
  | nil => rfl
  | cons v vs ih => simp [asmLoad, ih, List.mapIdx_cons, Nat.add_assoc, Nat.add_comm 1]

/-! ### Canonical form -/

/-- A host write keeps both buffers in canonical form. -/
theorem regWrite_wf {s : State} (v : Nat) (r : Reg) (hp : Mem.wf s.page) (hc : Mem.wf s.cbuf) :
    Mem.wf (regWrite s v r).page ∧ Mem.wf (regWrite s v r).cbuf := by
  cases r with
  | PAGE i => exact ⟨memSet_wf i _ hp, hc⟩
  | CBUF i => exact ⟨hp, memSet_wf i _ hc⟩
  | _ => exact ⟨hp, hc⟩

/-- Reset leaves both buffers in canonical form. -/
theorem applyReset_wf (s : State) : Mem.wf (applyReset s).page ∧ Mem.wf (applyReset s).cbuf :=
  ⟨List.Pairwise.nil, List.Pairwise.nil⟩

theorem reset_wf : Mem.wf State.reset.page ∧ Mem.wf State.reset.cbuf := ⟨List.Pairwise.nil, List.Pairwise.nil⟩

/-! ### A step -/

/-- An idle engine makes the host's next move (45_system.md R213), on every build. -/
theorem hostStepWith_of_pending {p : Params} {run : Instr → State → Result} {s : State} {a : HostAction}
    {rest : List HostAction} (hs : isIdle s = true) (hp : s.host.pending = a :: rest) :
    hostStepWith p run s = hostMoveWith p run a (dropAction s) := by
  simp only [hostStepWith, hp, if_pos hs]

theorem step_of_pending {s : State} {a : HostAction} {rest : List HostAction} (hs : isIdle s = true)
    (hp : s.host.pending = a :: rest) : step s = hostMoveWith build exec a (dropAction s) :=
  hostStepWith_of_pending hs hp

/-- A word that decodes is executed as its command. -/
theorem runWordWith_of_decode (run : Instr → State → Result) {c : BitVec 32} {i : Instr} (h : decode c = .ok i)
    (s : State) : runWordWith run c s = run i s := by
  simp only [runWordWith, h]

/-- All a step can do: nothing, a command word, a register access, a reset, or stop because a command runs. -/
theorem hostStepWith_cases (p : Params) (run : Instr → State → Result) (s : State) :
    (s.host.pending = [] ∧ hostStepWith p run s = .next s) ∨
    (isIdle s = false ∧ hostStepWith p run s = .refused .hostAccessDuringCommand) ∨
    (isIdle s = true ∧
      ((∃ c i, decode c = .ok i ∧ hostStepWith p run s = run i (dropAction s)) ∨
        hostStepWith p run s = raiseError .badCommand (dropAction s) ∨
        (∃ a v, hostStepWith p run s = .next (hostWriteOn p (dropAction s) a v)) ∨
        (∃ a, hostStepWith p run s = .next (hostRead p a (dropAction s))) ∨
        hostStepWith p run s = .next (applyReset (dropAction s)))) := by
  cases hp : s.host.pending with
  | nil => exact .inl ⟨rfl, by simp only [hostStepWith, hp]⟩
  | cons a rest =>
    refine .inr ?_
    cases hi : isIdle s with
    | false => exact .inl ⟨rfl, by simp [hostStepWith, hp, hi]⟩
    | true =>
      refine .inr ⟨rfl, ?_⟩
      rw [hostStepWith_of_pending hi hp]
      match a with
      | .wr 0 v =>
        cases hd : decode (BitVec.ofNat 32 v) with
        | ok i => exact .inl ⟨_, i, hd, runWordWith_of_decode run hd _⟩
        | error e => exact .inr (.inl (by simp only [hostMoveWith, runWordWith, hd]))
      | .wr (x + 1) v => exact .inr (.inr (.inl ⟨x + 1, v, rfl⟩))
      | .rd x => exact .inr (.inr (.inr (.inl ⟨x, rfl⟩)))
      | .rst => exact .inr (.inr (.inr (.inr rfl)))

theorem dropAction_pushAction (a : HostAction) (s : State) : dropAction (pushAction a s) = s := rfl

theorem isIdle_makeIdle (s : State) : isIdle (makeIdle s) = true := rfl

theorem isIdle_iff (s : State) : isIdle s = true ↔ s.status.busy = false ∧ s.macroRun = none := by
  simp [isIdle]

/-- A table word placed for the next step is run by it. -/
theorem step_withFetchWord (s : State) (nbits w : Nat) :
    step (s.withFetchWord nbits w) = runCommandWord (BitVec.ofNat 32 (w % 2 ^ nbits)) (makeIdle s) :=
  step_of_pending (s := s.withFetchWord nbits w) (rest := (makeIdle s).host.pending) rfl rfl

end Sys2Proof.Machine
end

