-- ==== Sys2Proof/Laws/PerInstr.lean ====
section
/-!
SUPPORT. A law of every instruction as syntax, one lemma per constructor: its word has its reserved bits 0
(30_encoding.md R70).
-/

namespace Sys2Proof.Laws.ReservedBits

/-- Bits 31:18 and 15:13 of the word of a well-formed instruction are 0. -/
def Statement (i : Instr) : Prop :=
  i.WellFormed → cmdField (encode i) 18 14 = 0 ∧ cmdField (encode i) 13 3 = 0

theorem nop : Statement .nop := fun _ => by decide
theorem configure : Statement .configure := fun _ => by decide
theorem dinit : Statement .dinit := fun _ => by decide
theorem dlookup : Statement .dlookup := fun _ => by decide
theorem dpromote : Statement .dpromote := fun _ => by decide
theorem dsetval : Statement .dsetval := fun _ => by decide

/-- The field `K` of a legal command has five bits and stays inside 12:8. -/
theorem legalK_cases {k : Nat} (h : legalK k = true) : k ∈ List.range 17 := by
  simp [legalK] at h; simp; omega

theorem packw (k : Nat) : Statement (.packw k) := fun h =>
  (by decide : ∀ k ∈ List.range 17, cmdField (encode (.packw k)) 18 14 = 0 ∧ cmdField (encode (.packw k)) 13 3 = 0)
    k (legalK_cases h)

theorem unpackw (k : Nat) : Statement (.unpackw k) := fun h =>
  (by decide :
    ∀ k ∈ List.range 17, cmdField (encode (.unpackw k)) 18 14 = 0 ∧ cmdField (encode (.unpackw k)) 13 3 = 0)
    k (legalK_cases h)

theorem classify : Statement .classify := fun _ => by decide
theorem recon (t : Tag) : Statement (.recon t) := fun _ => by cases t <;> decide
theorem compress : Statement .compress := fun _ => by decide
theorem decompress : Statement .decompress := fun _ => by decide

end Sys2Proof.Laws.ReservedBits
end

