-- ==== Sys2Proof/Laws/RoundTrip.lean ====
section
/-!
SUPPORT. What the decoder finds in what the encoder wrote, part by part: a packed area unpacks to its stream
(40_bit_packer.md R106), the areas of an assembled buffer lie where its header says (43_layout_encoder.md R170), and the
replay loop follows the page loop step by step (44_layout_decoder.md R196).
-/

namespace Sys2Proof.Machine

/-! ### The loops side by side -/

/-- The page loop over the positions `rest`. -/
def modelFold (p : Params) (c : Cfg) (page : List Word) (rest : List Nat) (m : ModelRun) : ModelRun :=
  rest.foldl (fun m i => modelStep p c page i m) m

/-- The page loop only appends to its streams, and writes no slot of `TAGS` outside the positions it visits. -/
theorem modelFold_streams (p : Params) (c : Cfg) (page : List Word) (rest : List Nat) (m : ModelRun) :
    (∃ I L F, (modelFold p c page rest m).run.idx = m.run.idx ++ I ∧
      (modelFold p c page rest m).run.low = m.run.low ++ L ∧
      (modelFold p c page rest m).run.full = m.run.full ++ F) ∧
    ∀ i, i ∉ rest → (modelFold p c page rest m).run.tags[i]? = m.run.tags[i]? := by
  induction rest generalizing m with
  | nil => exact ⟨⟨[], [], [], by simp [modelFold]⟩, fun _ _ => rfl⟩
  | cons a rest ih =>
    obtain ⟨⟨I, L, F, h1, h2, h3⟩, h4⟩ := ih (modelStep p c page a m)
    have hstep : modelFold p c page (a :: rest) m = modelFold p c page rest (modelStep p c page a m) := rfl
    refine ⟨⟨emittedIdx (classify p c m.dict (page.getD a 0)).1 ++ I,
      emittedLow (classify p c m.dict (page.getD a 0)).1 ++ L,
      emittedFull (classify p c m.dict (page.getD a 0)).1 ++ F, ?_, ?_, ?_⟩, ?_⟩
    · rw [hstep, h1]; simp [modelStep]
    · rw [hstep, h2]; simp [modelStep]
    · rw [hstep, h3]; simp [modelStep]
    · intro i hi
      rw [List.mem_cons, not_or] at hi
      rw [hstep, h4 i hi.2]
      simp [modelStep, List.getElem?_set_ne (Ne.symm hi.1)]

/-- One replay step undoes one classifier step: given the items the word's classification emitted at the head of the
streams and the same dictionary, it writes the word back (44_layout_decoder.md R196). -/
theorem replayStep_of_classify {p : Params} {c : Cfg} (hL : c.L ≤ 16) {r : ReplayRun} {i : Nat} {w : Word} {d : Dict}
    (hw : WordOk c w) (hd : r.dict = d) {I L : List Nat} {F : List Word}
    (ht : (r.run.tags[i]?).join = some (emittedTag (classify p c d w).1))
    (hi : r.run.idx = emittedIdx (classify p c d w).1 ++ I) (hl : r.run.low = emittedLow (classify p c d w).1 ++ L)
    (hf : r.run.full = emittedFull (classify p c d w).1 ++ F) :
    replayStep p c i r = some (replayPut r i (w, (classify p c d w).2) I L F) := by
  rcases classify_cases p c d w with ⟨h1, hcc⟩ | ⟨-, h0, hcc⟩ | ⟨-, h0, hh, hcc⟩ | ⟨-, h0, hh, hcc⟩ <;>
    rw [hcc] at ht hi hl hf ⊢ <;>
    simp only [emittedTag, emittedIdx, emittedLow, emittedFull, List.nil_append, List.cons_append] at ht hi hl hf <;>
    simp only [replayStep, ht, hi, hl, hf, hd]
  · simp [recon, h1]
  · simp [recon, h0]
  · have hlb : lb c (BitVec.ofNat 64 (lb c w).toNat) = lb c w := by
      rw [BitVec.ofNat_toNat, BitVec.setWidth_eq]
      apply BitVec.eq_of_toNat_eq
      rw [lb_toNat c _ hL, lb_toNat c _ hL, Nat.mod_mod]
    simp only [recon, rebuilt, hlb, hh, joinParts_hb_lb c _ hL]
  · simp only [recon, truncW_of_wordOk hw, candidate_eq_victim hh]

/-- From a dictionary and streams that agree with the page loop's, the replay loop writes the page's words back. -/
theorem replayLoop_of_modelFold {p : Params} {c : Cfg} (hL : c.L ≤ 16) (page : List Word)
    (hw : ∀ w ∈ page, WordOk c w) (ord : List Nat) (hnd : ord.Nodup) (hlt : ∀ i ∈ ord, i < page.length)
    (fuel : Nat) (m : ModelRun) (r : ReplayRun) (seq : Nat) (m' : ModelRun)
    (hm' : m' = modelFold p c page (ord.drop seq) m) (hf : ord.length ≤ seq + fuel) (hseq : r.run.seq = seq)
    (hdict : r.dict = m.dict) (htl : m.run.tags.length = page.length) (hol : r.out.length = page.length)
    (htags : ∀ i ∈ ord.drop seq, r.run.tags[i]? = m'.run.tags[i]?)
    (hi : m'.run.idx = m.run.idx ++ r.run.idx) (hl : m'.run.low = m.run.low ++ r.run.low)
    (hfu : m'.run.full = m.run.full ++ r.run.full) :
    ∃ r', replayLoop p c ord fuel r = some r' ∧ r'.out.length = page.length ∧
      ∀ i, (i ∈ ord.drop seq → r'.out[i]? = some page[i]?) ∧ (i ∉ ord.drop seq → r'.out[i]? = r.out[i]?) := by
  induction fuel generalizing m r seq with
  | zero =>
    have : ord.drop seq = [] := List.drop_eq_nil_of_le (by omega)
    exact ⟨r, rfl, hol, fun i => by simp [this]⟩
  | succ fuel ih =>
    by_cases hs : seq < ord.length
    · have hd := List.drop_eq_getElem_cons hs
      have hndd : (ord.drop seq).Nodup := hnd.sublist (List.drop_sublist _ _)
      rw [hd] at hndd hm' htags
      obtain ⟨hnin, -⟩ := List.nodup_cons.1 hndd
      generalize hadef : ord[seq] = a at *
      have ha : a < page.length := hlt a (by rw [← hadef]; exact List.getElem_mem hs)
      have hm2 : m' = modelFold p c page (ord.drop (seq + 1)) (modelStep p c page a m) := hm'
      obtain ⟨⟨I, L, F, g1, g2, g3⟩, g4⟩ := modelFold_streams p c page (ord.drop (seq + 1)) (modelStep p c page a m)
      rw [← hm2] at g1 g2 g3 g4
      have hpa : page.getD a 0 = page[a] := List.getD_eq_getElem _ _ ha
      have htag : (r.run.tags[a]?).join = some (emittedTag (classify p c m.dict page[a]).1) := by
        rw [htags a List.mem_cons_self, g4 a hnin]
        simp [modelStep, htl, ha]
      have ei : r.run.idx = emittedIdx (classify p c m.dict page[a]).1 ++ I := by
        rw [hi] at g1; simpa [modelStep, ha] using g1
      have el : r.run.low = emittedLow (classify p c m.dict page[a]).1 ++ L := by
        rw [hl] at g2; simpa [modelStep, ha] using g2
      have ef : r.run.full = emittedFull (classify p c m.dict page[a]).1 ++ F := by
        rw [hfu] at g3; simpa [modelStep, ha] using g3
      have hstep := replayStep_of_classify hL (hw _ (List.getElem_mem ha)) hdict htag ei el ef
      obtain ⟨r', hr1, hr2, hr3⟩ := ih (modelStep p c page a m)
        (replayPut r a (page[a], (classify p c m.dict page[a]).2) I L F) (seq + 1) hm2 (by omega)
        (by simp [replayPut, hseq]) (by simp [replayPut, modelStep, ha]) (by simp [modelStep, htl])
        (by simp [replayPut, hol]) (fun i hi => htags i (List.mem_cons_of_mem _ hi)) g1 g2 g3
      have hout : (replayPut r a (page[a], (classify p c m.dict page[a]).2) I L F).out = r.out.set a (some page[a]) :=
        rfl
      refine ⟨r', ?_, hr2, ?_⟩
      · have : ord[r.run.seq]? = some a := by rw [hseq, List.getElem?_eq_getElem hs, hadef]
        simp only [replayLoop, this, hstep, hr1]
      · intro i
        rw [hd]
        have h3 := hr3 i
        rw [hout] at h3
        constructor
        · intro him
          rcases List.mem_cons.1 him with rfl | him
          · rw [h3.2 hnin]; simp [hol, ha]
          · exact h3.1 him
        · intro him
          rw [List.mem_cons, not_or] at him
          rw [h3.2 him.2, List.getElem?_set_ne (Ne.symm him.1)]
    · have : ord.drop seq = [] := List.drop_eq_nil_of_le (by omega)
      refine ⟨r, ?_, hol, fun i => by simp [this]⟩
      simp only [replayLoop, hseq, List.getElem?_eq_none (Nat.le_of_not_lt hs)]

/-! ### The buffer -/

/-- Unpacking the words of whole groups gives the values back. -/
theorem unpack_packWords (c : Cfg) {k : Nat} (hr : 0 < reps c k) (v : List Nat) (h1 : v.length % reps c k = 0)
    (h2 : ∀ x ∈ v, x < 2 ^ k) :
    unpack c k
      ((List.range (v.length / reps c k)).map fun r => packWord k ((v.drop (r * reps c k)).take (reps c k))) = v := by
  obtain ⟨m, hm⟩ : ∃ m, v.length = m * reps c k :=
    ⟨v.length / reps c k, by rw [Nat.div_mul_cancel (Nat.dvd_of_mod_eq_zero h1)]⟩
  rw [hm, Nat.mul_div_cancel _ hr]
  clear h1
  induction m generalizing v with
  | zero => simp at hm; subst hm; rfl
  | succ m ih =>
    rw [Nat.succ_mul] at hm
    rw [List.range_succ_eq_map, List.map_cons, List.map_map]
    simp only [unpack, List.flatMap_cons] at ih ⊢
    rw [unpackWord_packWord c (by simp; omega) fun x hx => h2 x (List.mem_of_mem_drop (List.mem_of_mem_take hx))]
    have := ih (v.drop (reps c k)) (fun x hx => h2 x (List.mem_of_mem_drop hx)) (by simp; omega)
    conv_rhs => rw [← List.take_append_drop (reps c k) v, ← this]
    simp [Function.comp_def, List.drop_drop, Nat.succ_mul, Nat.add_comm]

/-- The first lanes of a packed area are its stream. -/
theorem packedArea_unpack {c : Cfg} {k : Nat} {v : List Nat} {ws : List Word} (hr : 0 < reps c k)
    (hv : ∀ x ∈ v, x < 2 ^ k) (h : packedArea c k v = some ws) : (unpack c k ws).take v.length = v := by
  have hd := pad_packDomain c hr hv
  obtain ⟨-, hws⟩ := pack_eq_some h
  have hd' := (packDomain_iff _ _ _).1 hd
  rw [hws, unpack_packWords c hr _ hd'.1 hd'.2]
  simp [pad]

/-- A slice that starts and ends with a part of a list is that part. -/
theorem slice_mid {pre mid post : List Word} {lo hi : Nat} (h1 : lo = pre.length) (h2 : hi = pre.length + mid.length) :
    slice (pre ++ mid ++ post) lo hi = mid := by
  subst h1 h2
  simp [slice]

/-- The header words of an assembled buffer of representable size (30_encoding.md R79). -/
theorem assembleBuffer_header {n : Nat} {ta fa ia la : List Word} (extra : List Word) (hn : n < 2 ^ 64)
    (hlen : 4 + ta.length + fa.length + ia.length + la.length < 2 ^ 64) :
    headerField (assembleBuffer n ta fa ia la ++ extra) 0 = n ∧
    headerField (assembleBuffer n ta fa ia la ++ extra) 1 = 4 + ta.length + fa.length ∧
    headerField (assembleBuffer n ta fa ia la ++ extra) 2 = 4 + ta.length + fa.length + ia.length ∧
    headerField (assembleBuffer n ta fa ia la ++ extra) 3 = 4 + ta.length + fa.length + ia.length + la.length := by
  refine ⟨?_, ?_, ?_, ?_⟩ <;> simp [headerField, assembleBuffer] <;> omega

/-- The areas of an assembled buffer, cut where its header says (30_encoding.md R80). -/
theorem assembleBuffer_slices (n : Nat) (ta fa ia la extra : List Word) :
    let b := assembleBuffer n ta fa ia la ++ extra
    let h1 := 4 + ta.length + fa.length
    slice b 4 (4 + ta.length) = ta ∧ slice b (4 + ta.length) h1 = fa ∧ slice b h1 (h1 + ia.length) = ia ∧
      slice b (h1 + ia.length) (h1 + ia.length + la.length) = la := by
  intro b h1
  obtain ⟨h, hh, hb⟩ : ∃ h : List Word, h.length = 4 ∧ b = h ++ ta ++ fa ++ ia ++ la ++ extra :=
    ⟨[_, _, _, _], rfl, rfl⟩
  refine ⟨?_, ?_, ?_, ?_⟩
  · rw [hb, show h ++ ta ++ fa ++ ia ++ la ++ extra = h ++ ta ++ (fa ++ ia ++ la ++ extra) by simp]
    exact slice_mid hh.symm (by omega)
  · rw [hb, show h ++ ta ++ fa ++ ia ++ la ++ extra = (h ++ ta) ++ fa ++ (ia ++ la ++ extra) by simp]
    exact slice_mid (by simp; omega) (by simp [h1]; omega)
  · rw [hb, show h ++ ta ++ fa ++ ia ++ la ++ extra = (h ++ ta ++ fa) ++ ia ++ (la ++ extra) by simp]
    exact slice_mid (by simp [h1]; omega) (by simp [h1]; omega)
  · rw [hb]
    exact slice_mid (by simp [h1]; omega) (by simp [h1]; omega)

/-- The packed tags area gives the tags back (30_encoding.md R81). -/
theorem tagsOfArea_packedArea {c : Cfg} {tags : List Tag} {ta : List Word}
    (h : packedArea c 2 (tags.map tagCode) = some ta) : tagsOfArea c tags.length ta = tags := by
  have r2 := (reps_bounds c (k := 2) (by omega) (by omega)).1
  have hback := packedArea_unpack (by omega)
    (by intro x hx; obtain ⟨t, -, rfl⟩ := List.mem_map.1 hx; exact tagCode_lt t) h
  rw [List.length_map] at hback
  have hid : tagOfCode ∘ tagCode = id := funext fun t => tagOfCode_tagCode t
  rw [tagsOfArea, hback, List.map_map, hid, List.map_id]

end Sys2Proof.Machine
end

