-- ==== Sys2Proof/Tests/Slice0.lean ====
section
/-!
SUPPORT. Tests: the well-formedness checks, decoding of words written out from 30_encoding.md, one step of each command on
the worked examples of the spec, and a witness for the hypotheses of every statement. Expected values come from
95_test_vectors.md and the examples of the rules, named at each test; none was taken from the model.
-/

namespace Sys2Proof.Tests

open Sys2Proof Sys2Proof.Machine

/-! ### Small states -/

/-- A configured engine with a fresh dictionary. -/
def ready (c : Cfg) : State :=
  ((State.reset.setStatus { cfgValid := true, dictValid := true, busy := false, result := .ok }).setCfg c).setDict
    (fresh c)

/-- Configuration A of 95_test_vectors.md. -/
def cfgA : Cfg := { W := .w32, L := 10, org := .dm, S := 1, M := 16, stride := 1, N := 8 }

/-- Configuration F. -/
def cfgF : Cfg := { W := .w32, L := 10, org := .fal, S := 4, M := 1, stride := 3, N := 7 }

/-- Configuration Q. -/
def cfgQ : Cfg := { W := .w32, L := 10, org := .sa, S := 2, M := 2, stride := 1, N := 4 }

/-- Configuration S. -/
def cfgS : Cfg := { W := .w64, L := 12, org := .sa, S := 2, M := 4, stride := 1, N := 8 }

/-- The state after a command, the state before it if the command stops. -/
def after (i : Instr) (s : State) : State :=
  match exec i s with
  | .next t => t
  | .fault _ => s
  | .refused _ => s

/-- The command has a next state. -/
def completes (i : Instr) (s : State) : Bool :=
  match exec i s with
  | .next _ => true
  | .fault _ => false
  | .refused _ => false

theorem exec_after {i : Instr} {s : State} (h : completes i s = true) : exec i s = .next (after i s) := by
  unfold completes at h
  unfold after
  split at h <;> simp_all

/-- The lanes from 0 up, the rest 0. -/
def lanesOf (l : List Nat) : Vector (BitVec 16) 64 := Vector.ofFn fun j => BitVec.ofNat 16 (l.getD j.val 0)

/-- The dictionary of configuration F with the given values and recency. -/
def dictF (val : List Word) (rec0 : List Nat) : Dict := { val := val, recency := [rec0] }

/-- The dictionary of trace W1 after step 6 (95_test_vectors.md section 5). -/
def w1Step6 : State := (ready cfgF).setDict (dictF [0xD000, 0xCC00, 0xA400, 0xE400] [2, 3, 0, 1])

/-- The page of vector E1. -/
def pageE1 : Mem :=
  [(0, 0), (1, 0x12345678), (2, 0x12345678), (3, 0x123454AB), (4, 1), (5, 7), (6, 0), (7, 0xDEADBEEF)]

/-- The buffer of vector E1. -/
def cbufE1 : Mem :=
  [(0, 8), (1, 7), (2, 8), (3, 9), (4, 0xC99C), (5, 0x12345678), (6, 0xDEADBEEF), (7, 0x55), (8, 0x1CAB)]

/-- Ready to compress the page of E1 with `len` words of room. -/
def compressE1 (len : BitVec 32) : State := ((ready cfgA).setPage pageE1).setCbufLen len

/-- Ready to decompress the buffer of E1, `len` words of it, one cell overwritten. -/
def decompressE1 (len : BitVec 32) (cell : Nat) (w : Word) : State :=
  ((ready cfgA).setCbuf (memSet cbufE1 cell w)).setCbufLen len

/-- The cells of `CBUF` from 0. -/
def cbufCells (s : State) (n : Nat) : List Word := (List.range n).map (cbufCell s)

/-- The cells of `PAGE` from 0. -/
def pageCells (s : State) (n : Nat) : List Word := (List.range n).map (pageCell s)

/-! ### Well-formedness: the check refuses each ill-formed term (30_encoding.md R70) -/

theorem test_wf_packw_range :
    (Instr.packw 0).wf = false ∧ (Instr.packw 1).wf = true ∧ (Instr.packw 16).wf = true ∧ (Instr.packw 17).wf = false := by
  decide

theorem test_wf_unpackw_range :
    (Instr.unpackw 0).wf = false ∧ (Instr.unpackw 1).wf = true ∧ (Instr.unpackw 16).wf = true ∧
      (Instr.unpackw 17).wf = false := by
  decide

/-! ### Decoding: fields of `CMD32` written bit by bit, most significant first: 31:18, TAG, 15:13, K, OPC (R70, R71) -/

theorem test_decode_system :
    decode 0b00000000000000_00_000_00000_00000000#32 = .ok .nop ∧
    decode 0b00000000000000_00_000_00000_00000001#32 = .ok .configure := by
  decide

theorem test_decode_dictionary :
    decode 0b00000000000000_00_000_00000_00000010#32 = .ok .dinit ∧
    decode 0b00000000000000_00_000_00000_00010000#32 = .ok .dlookup ∧
    decode 0b00000000000000_00_000_00000_00010001#32 = .ok .dpromote ∧
    decode 0b00000000000000_00_000_00000_00010010#32 = .ok .dsetval := by
  decide

theorem test_decode_packer :
    decode 0b00000000000000_00_000_01010_00100000#32 = .ok (.packw 10) ∧
    decode 0b00000000000000_00_000_10000_00100000#32 = .ok (.packw 16) ∧
    decode 0b00000000000000_00_000_00010_00100001#32 = .ok (.unpackw 2) := by
  decide

theorem test_decode_classifier_and_layout :
    decode 0b00000000000000_00_000_00000_00110000#32 = .ok .classify ∧
    decode 0b00000000000000_01_000_00000_00110001#32 = .ok (.recon .EXACT) ∧
    decode 0b00000000000000_11_000_00000_00110001#32 = .ok (.recon .MISS) ∧
    decode 0b00000000000000_00_000_00000_01000000#32 = .ok .compress ∧
    decode 0b00000000000000_00_000_00000_01000001#32 = .ok .decompress := by
  decide

/-- The words of 95_test_vectors.md section 8, table G1, that are `BadCommand`. -/
theorem test_decode_illegal :
    decode 0x00000003 = .error .unknownOpc ∧ decode 0x00000042 = .error .unknownOpc ∧
    decode 0x000000FF = .error .unknownOpc ∧ decode 0x00002000 = .error .reservedBits ∧
    decode 0x00040000 = .error .reservedBits ∧ decode 0x80000000 = .error .reservedBits ∧
    decode 0x00000020 = .error .badK ∧ decode 0x00001120 = .error .badK ∧ decode 0x00000130 = .error .strayK ∧
    decode 0x00000140 = .error .strayK ∧ decode 0x00010030 = .error .strayTag ∧
    decode 0x00040031 = .error .reservedBits := by
  decide

/-! ### System commands -/

/-- G1: `STATUS` 0x43 after a `BadCommand`, 0x03 after a following `NOP`. -/
theorem test_nop :
    statusWord (after .nop (endWith .badCommand (ready cfgA))).status = 0x00000003 ∧
    statusWord (endWith .badCommand (ready cfgA)).status = 0x00000043 := by
  decide

/-- G2, C15: the reset values are legal; the dictionary is fresh. -/
theorem test_configure :
    statusWord (after .configure State.reset).status = 0x00000003 ∧
    (after .configure State.reset).cfg =
      { W := .w64, L := 10, org := .dm, S := 1, M := 16, stride := 1, N := 512 } ∧
    (after .configure State.reset).dict.val = List.replicate 16 1 := by
  decide

/-- The staging registers with the seven values of a `SETCFG`. -/
def staging (w l o s m t n : BitVec 32) : Staging :=
  { wordWidth := w, lowBits := l, org := o, setSize := s, numSets := m, stride := t, pageWords := n }

/-- G2, C1 to C14: the outcome of each row. -/
theorem test_configure_table :
    (proposedCfg build (staging 48 10 0 1 16 1 8)).isSome = false ∧
    (proposedCfg build (staging 32 3 0 1 16 1 8)).isSome = false ∧
    (proposedCfg build (staging 32 17 0 1 16 1 8)).isSome = false ∧
    (proposedCfg build (staging 32 10 4 1 16 1 8)).isSome = false ∧
    (proposedCfg build (staging 32 10 0 1 12 1 8)).isSome = false ∧
    (proposedCfg build (staging 32 10 3 1 1 1 8)).isSome = false ∧
    (proposedCfg build (staging 32 10 3 2 65536 1 8)).isSome = false ∧
    (proposedCfg build (staging 32 10 3 1 65536 1 8)).isSome = true ∧
    (proposedCfg build (staging 32 10 0 2 8 1 8)).isSome = false ∧
    (proposedCfg build (staging 32 10 1 8 2 1 8)).isSome = false ∧
    (proposedCfg build (staging 32 10 2 8 2 1 8)).isSome = false ∧
    (proposedCfg build (staging 32 10 0 1 16 0 8)).isSome = false ∧
    (proposedCfg build (staging 32 10 0 1 16 1 0)).isSome = false ∧
    (proposedCfg build (staging 32 10 0 1 16 1 1025)).isSome = false ∧
    (proposedCfg build (staging 32 10 0 1 16 1 1024)).isSome = true ∧
    (proposedCfg build (staging 32 10 3 1 2 1 8)).isSome = true ∧
    (proposedCfg build (staging 32 10 3 2 1 1 8)).isSome = true ∧
    (proposedCfg build (staging 64 16 1 4 1 0xFFFFFFFF 8)).isSome = true := by
  decide

/-! ### Bit packer: 95_test_vectors.md section 3 -/

/-- B3 rows 1 and 3. -/
theorem test_packw :
    (after (.packw 10) ((ready cfgA).setLanes (lanesOf [0x3FF, 0x001, 0x155]))).res0 = 0x155007FF ∧
    (after (.packw 4) ((ready cfgA).setLanes (lanesOf [0x1F, 0xFFFF, 0x10, 0, 0, 0, 0, 0x23]))).res0 = 0x300000FF := by
  decide

/-- B2, `k` = 13, column "count", and B3 row 8, at `W` = 64. -/
theorem test_packw_64 :
    (after (.packw 13) ((ready cfgS).setLanes (lanesOf [1, 2, 3, 4]))).res0 = 0x000002000C004001 ∧
    (after (.packw 10) ((ready cfgS).setLanes (lanesOf [0x3FF, 1, 0x155, 0x2AA, 0, 0x200]))).res0 =
      0x080000AA955007FF := by
  decide

/-- The lanes of `s` from 0. -/
def laneList (s : State) (n : Nat) : List Nat := (List.range n).map fun j => (lane s j).toNat

/-- B3 rows 2 and 9: unused top bits and `ARG0[63:32]` are ignored. -/
theorem test_unpackw :
    laneList (after (.unpackw 10) ((ready cfgA).setArg0 0xD55007FF)) 4 = [0x3FF, 0x001, 0x155, 0] ∧
    laneList (after (.unpackw 10) ((ready cfgA).setArg0 0xFFFFFFFF155007FF)) 4 = [0x3FF, 0x001, 0x155, 0] := by
  decide

/-- B3 rows 4 and 6. -/
theorem test_unpackw_keeps_the_rest :
    laneList (after (.unpackw 3) (((ready cfgA).setLanes (Vector.replicate 64 9)).setArg0 0xFFFFFFFF)) 11 =
      [7, 7, 7, 7, 7, 7, 7, 7, 7, 7, 9] ∧
    laneList (after (.unpackw 16) ((ready cfgS).setArg0 0x0123456789ABCDEF)) 4 = [0xCDEF, 0x89AB, 0x4567, 0x0123] := by
  decide

/-- B3 rows 10, 11 and 12. -/
theorem test_pack_sequences :
    pack cfgA 2 (pad cfgA 2 [3, 2, 1, 0, 3, 3, 3, 2, 2, 1, 1, 0, 0, 0, 1, 2, 3, 1]) = some [0x9016BF1B, 0x00000007] ∧
    pack cfgA 10 (pad cfgA 10 [1, 2, 3, 4]) = some [0x00300801, 0x00000004] ∧ pack cfgA 10 [1, 2, 3, 4] = none := by
  decide

/-! ### Dictionary: 95_test_vectors.md section 4, trace T1 -/

/-- A fresh dictionary replaces any other (R134). -/
theorem test_dinit :
    (after .dinit w1Step6).dict = dictF [1, 1, 1, 1] [0, 1, 2, 3] ∧
    statusWord (after .dinit State.reset).status = 0x00000040 := by
  decide

/-- T1 rows 1 and 5. -/
theorem test_dlookup :
    (after .dlookup ((ready cfgF).setArg0 0x1400)).res1 = 3 ∧ (after .dlookup ((ready cfgF).setArg0 0x1400)).res0 = 1 ∧
    (after .dlookup (((ready cfgF).setDict (dictF [1, 1, 1, 0x1400] [3, 0, 1, 2])).setArg0 5)).res1 = 0 := by
  decide

/-- T1 row 4. -/
theorem test_dlookup_match :
    (after .dlookup (((ready cfgF).setDict (dictF [1, 1, 1, 0x1400] [3, 0, 1, 2])).setArg0 0x17FF)).res0 = 0x1400 ∧
    (after .dlookup (((ready cfgF).setDict (dictF [1, 1, 1, 0x1400] [3, 0, 1, 2])).setArg0 0x17FF)).res1 = 3 := by
  decide

/-- T1 row 7. -/
theorem test_dpromote :
    (after .dpromote (((ready cfgF).setDict (dictF [1, 1, 1, 0x1400] [3, 0, 1, 2])).setArg1 1)).dict =
      dictF [1, 1, 1, 0x1400] [1, 3, 0, 2] := by
  decide

/-- T4: `DPROMOTE 15` is `OK`, `DPROMOTE 16` is `BadCommand`. -/
theorem test_dpromote_range :
    statusWord (after .dpromote ((ready cfgA).setArg1 15)).status = 0x00000003 ∧
    statusWord (after .dpromote ((ready cfgA).setArg1 16)).status = 0x00000043 := by
  decide

/-- T1 row 2, and T4: `DSETVAL 16, v` writes nothing. -/
theorem test_dsetval :
    (after .dsetval (((ready cfgF).setArg1 3).setArg0 0x1400)).dict = dictF [1, 1, 1, 0x1400] [0, 1, 2, 3] ∧
    (after .dsetval (((ready cfgA).setArg1 16).setArg0 7)).dict = fresh cfgA := by
  decide

/-! ### Word classifier: 95_test_vectors.md section 5, trace W1 -/

/-- W1 step 7: PARTIAL against slot 3. -/
theorem test_classify_partial :
    (after .classify (w1Step6.setArg0 0xE4FF)).resTag = 2 ∧ (after .classify (w1Step6.setArg0 0xE4FF)).res1 = 3 ∧
    (after .classify (w1Step6.setArg0 0xE4FF)).res0 = 0x0FF ∧
    (after .classify (w1Step6.setArg0 0xE4FF)).dict = dictF [0xD000, 0xCC00, 0xA400, 0xE4FF] [3, 2, 0, 1] := by
  decide

/-- W1 steps 9 and 10, on the dictionary of step 8: ZERO changes nothing; 1 is an ordinary MISS. -/
theorem test_classify_zero_and_miss :
    let s := (ready cfgF).setDict (dictF [0xD000, 0xCC00, 0xA400, 0xE4FF] [3, 2, 0, 1])
    (after .classify s).resTag = 0 ∧ (after .classify s).res1 = 1 ∧ (after .classify s).dict = s.dict ∧
    (after .classify (s.setArg0 1)).resTag = 3 ∧
    (after .classify (s.setArg0 1)).dict = dictF [0xD000, 1, 0xA400, 0xE4FF] [1, 3, 2, 0] := by
  decide

/-- W4: the stride order. -/
theorem test_order :
    order 7 3 = [0, 3, 6, 1, 4, 2, 5] ∧ order 4 2 = [0, 2, 1, 3] ∧ order 3 5 = [0, 1, 2] ∧ order 0 3 = [] ∧
    order 5 1 = [0, 1, 2, 3, 4] := by
  decide

/-! ### Layout encoder: 95_test_vectors.md section 6 -/

/-- E1, with exactly the worst case of room. -/
theorem test_compress :
    let t := after .compress (compressE1 14)
    cbufCells t 9 = [8, 7, 8, 9, 0xC99C, 0x12345678, 0xDEADBEEF, 0x55, 0x1CAB] ∧ t.res1 = 9 ∧
      statusWord t.status = 0x00000001 := by
  decide

/-- E1 and E7: one word less is `BufferTooSmall`, 2049 is `BadCommand`. -/
theorem test_compress_room :
    statusWord (after .compress (compressE1 13)).status = 0x00000023 ∧
    statusWord (after .compress (compressE1 2049)).status = 0x00000043 := by
  decide

/-! ### Layout decoder: 95_test_vectors.md section 7 -/

/-- D2 row 1: the page of E1. -/
theorem test_decompress :
    let t := after .decompress (decompressE1 9 0 8)
    pageCells t 8 = [0, 0x12345678, 0x12345678, 0x123454AB, 1, 7, 0, 0xDEADBEEF] ∧ t.res1 = 8 ∧
      statusWord t.status = 0x00000001 := by
  decide

/-- D2 rows 3, 7, 12, 17 and 19. -/
theorem test_decompress_malformed :
    statusWord (after .decompress (decompressE1 4 0 8)).status = 0x00000033 ∧
    statusWord (after .decompress (decompressE1 9 0 2000)).status = 0x00000033 ∧
    statusWord (after .decompress (decompressE1 9 2 6)).status = 0x00000033 ∧
    statusWord (after .decompress (decompressE1 9 2 7)).status = 0x00000033 ∧
    statusWord (after .decompress (decompressE1 9 3 8)).status = 0x00000033 := by
  decide

/-- Program P2: `RECON PARTIAL, 2, 0x001` after two MISSes. -/
theorem test_recon_partial :
    let s := (((ready cfgF).setDict (dictF [1, 1, 0xB800, 0xA400] [2, 3, 0, 1])).setArg1 2).setArg0 0x001
    (after (.recon .PARTIAL) s).res0 = 0x0000B801 ∧ (after (.recon .PARTIAL) s).res1 = 2 ∧
      (after (.recon .PARTIAL) s).dict = dictF [1, 1, 0xB801, 0xA400] [2, 3, 0, 1] := by
  decide

/-- P2: `RECON MISS, 0, 0xA400` on a fresh dictionary; D4: `ARG1` = 16 is accepted for MISS, not for EXACT. -/
theorem test_recon_miss_and_range :
    (after (.recon .MISS) ((ready cfgF).setArg0 0xA400)).res1 = 3 ∧
    (after (.recon .MISS) ((ready cfgF).setArg0 0xA400)).dict = dictF [1, 1, 1, 0xA400] [3, 0, 1, 2] ∧
    statusWord (after (.recon .MISS) ((ready cfgA).setArg1 16)).status = 0x00000003 ∧
    statusWord (after (.recon .EXACT) ((ready cfgA).setArg1 16)).status = 0x00000043 := by
  decide

/-! ### The host's port -/

/-- 10_state.md R41: what does not fit is dropped; a read-only register ignores a write. -/
theorem test_host_write :
    hostReadOn build (hostWriteOn build State.reset 0x100 0x12345) 0x100 = 0x2345 ∧
    hostReadOn build (hostWriteOn build State.reset 0x04 7) 0x04 = 0 ∧
    hostReadOn build (hostWriteOn build State.reset 0x103FF 7) 0x103FF = 7 ∧
    hostReadOn build (hostWriteOn build State.reset 0x10400 7) 0x10400 = 0 ∧
    hostReadOn build (hostWriteOn build State.reset 0x207FF 7) 0x207FF = 7 := by
  decide

/-- A write to `CMD` in one step: `CONFIGURE` from reset (G2, C15). -/
theorem test_step_runs_a_command :
    (match step (State.reset.withFetchWord 32 0x00000001) with
      | .next t => statusWord t.status
      | .fault _ => 0
      | .refused _ => 0) = 0x00000003 := by
  decide

/-! ### Witnesses: a state and operands that meet all the hypotheses of a statement together

One theorem per statement with hypotheses, named after it; where a statement has several clauses, a witness for each, at
the ends of its range. -/

theorem cfgA_ok : CfgOk build cfgA := ⟨by decide, by decide⟩
theorem cfgF_ok : CfgOk build cfgF := ⟨by decide, by decide⟩
theorem cfgQ_ok : CfgOk build cfgQ := ⟨by decide, by decide⟩
theorem cfgS_ok : CfgOk build cfgS := ⟨by decide, by decide⟩

/-- Configuration F with the hashed organization. -/
def cfgH : Cfg := { cfgF with org := .fah }

theorem cfgH_ok : CfgOk build cfgH := ⟨by decide, by decide⟩

theorem w1Step6_dictOk : DictOk cfgF w1Step6.dict where
  valLength := by decide
  valWidth := by simp [WordOk, cfgF, Width.bits, w1Step6, dictF]
  recencyLength := by decide
  recencyPerm := by decide

/-- A legal build other than the default one: small buffers, another hash, two engines. -/
def smallBuild : Params := { maxPageWords := 8, maxCbufWords := 16, hash := fun c h => h / 2 % c.M, numEngines := 2 }

theorem smallBuild_legal : smallBuild.Legal where
  pageLow := by decide
  pageHigh := by decide
  cbufLow := by decide
  cbufHigh := by decide
  hashInRange _ _ h := Nat.mod_lt _ h
  engines := by decide

/-- 10 words are more than the 8 of this build: `InvalidConfiguration`, code 1 (R212, K7; R226). -/
theorem test_small_build_page_limit :
    (match stepOn smallBuild (pushAction (.wr 0 1) (State.reset.setStage (staging 32 10 0 1 16 1 10))) with
      | .next t => statusWord t.status
      | .fault _ => 0
      | .refused _ => 0) = 0x00000010 := by
  decide

/-- Every configured engine with a fresh dictionary and empty buffers meets the invariant. -/
theorem ready_inv {p : Params} {c : Cfg} (h : CfgOk p c) : Inv p (ready c) where
  notBusy := rfl
  noRun := rfl
  cfgOk _ := h
  dictNeedsCfg _ := rfl
  dictOk _ := fresh_dictOk c
  resTag := (by decide : (0 : BitVec 32).toNat < 4)
  page := ⟨List.Pairwise.nil, fun x hx => by cases hx⟩
  cbuf := ⟨List.Pairwise.nil, fun x hx => by cases hx⟩

/-- The state with the host's next move. -/
def withMove (a : HostAction) (s : State) : State := s.setHost { pending := [a], reads := [] }

theorem witness_EncodedCommandDecodesToItself :
    (Instr.packw 1).WellFormed ∧ (Instr.packw 16).WellFormed ∧ (Instr.recon .MISS).WellFormed := by decide

theorem witness_DecodedWordIsItsEncoding : decode 0x00000A20 = .ok (.packw 10) := by decide

/-- One word for each way to be illegal. -/
theorem witness_IllegalWordsAreBadCommand :
    isIdle (ready cfgA) = true ∧ (∃ e, decode 0x00000003 = .error e) ∧ (∃ e, decode 0x00002000 = .error e) ∧
    (∃ e, decode 0x00040000 = .error e) ∧ (∃ e, decode 0x00000020 = .error e) ∧
    (∃ e, decode 0x00001120 = .error e) ∧ (∃ e, decode 0x00000130 = .error e) ∧
    ∃ e, decode 0x00010030 = .error e :=
  ⟨rfl, ⟨.unknownOpc, by decide⟩, ⟨.reservedBits, by decide⟩, ⟨.reservedBits, by decide⟩, ⟨.badK, by decide⟩,
    ⟨.badK, by decide⟩, ⟨.strayK, by decide⟩, ⟨.strayTag, by decide⟩⟩

/-- Both ends of `K`; two groups of four lanes at `k` = 16, and no group at all. -/
theorem witness_AssembledStatementsWriteTheirCommand :
    legalK 1 = true ∧ legalK 16 = true ∧
    (∀ g ∈ [[1, 2, 3, 4], [5, 6, 7, 8]], List.length g = Width.w64.bits / 16) ∧
    ∀ g ∈ ([] : List (List Nat)), g.length = Width.w64.bits / 16 := by decide

theorem witness_StepExecutesTheCommandWritten :
    isIdle (withMove (.wr 0 0x30) (ready cfgA)) = true ∧
    (withMove (.wr 0 0x30) (ready cfgA)).host.pending = .wr 0 0x30 :: [] ∧
    decode (BitVec.ofNat 32 0x30) = .ok .classify ∧ decodeTableWord 32 0x00000030 = some .classify := by decide

/-- Every kind of host move, and a legal build of two engines that is not the default one. -/
theorem witness_BuildsShareOneMachine :
    isIdle (withMove (.wr 0 0x30) (ready cfgA)) = true ∧
    (withMove (.wr 0 0x30) (ready cfgA)).host.pending = .wr 0 0x30 :: [] ∧
    decode (BitVec.ofNat 32 0x30) = .ok .classify ∧
    isIdle (withMove (.wr 0 0x2030) (ready cfgA)) = true ∧
    (withMove (.wr 0 0x2030) (ready cfgA)).host.pending = .wr 0 0x2030 :: [] ∧
    decode (BitVec.ofNat 32 0x2030) = .error .reservedBits ∧
    isIdle (withMove (.wr 1 5) (ready cfgA)) = true ∧
    (withMove (.wr 1 5) (ready cfgA)).host.pending = .wr 1 5 :: [] ∧ (1 : Nat) ≠ 0 ∧
    isIdle (withMove (.rd 0) (ready cfgA)) = true ∧ (withMove (.rd 0) (ready cfgA)).host.pending = .rd 0 :: [] ∧
    isIdle (withMove .rst (ready cfgA)) = true ∧ (withMove .rst (ready cfgA)).host.pending = .rst :: [] ∧
    Instr.packw 16 ∉ [Instr.configure, .dlookup, .classify, .recon .ZERO, .recon .EXACT, .recon .PARTIAL, .recon .MISS,
      .compress, .decompress] ∧
    smallBuild.Legal ∧ ∃ t, t ∈ enginesReset smallBuild :=
  ⟨by decide, by decide, by decide, by decide, by decide, by decide, by decide, by decide, by decide, by decide,
    by decide, by decide, by decide, by decide, smallBuild_legal, _, List.mem_cons_self⟩

theorem witness_StepWithoutHostMoveKeepsTheState : (ready cfgA).host.pending = [] := rfl

/-- A writable register, a read-only one, and an index that is not listed. -/
theorem witness_HostWriteTouchesOneRegister :
    isIdle (withMove (.wr 2 5) (ready cfgA)) = true ∧
    (withMove (.wr 2 5) (ready cfgA)).host.pending = .wr 2 5 :: [] ∧ (2 : Nat) ≠ 0 ∧
    isIdle (withMove (.wr 4 5) (ready cfgA)) = true ∧
    (withMove (.wr 4 5) (ready cfgA)).host.pending = .wr 4 5 :: [] ∧ (4 : Nat) ≠ 0 ∧
    isIdle (withMove (.wr 8 5) (ready cfgA)) = true ∧
    (withMove (.wr 8 5) (ready cfgA)).host.pending = .wr 8 5 :: [] ∧ (8 : Nat) ≠ 0 := by decide

theorem witness_HostReadChangesNothing :
    isIdle (withMove (.rd 1) (ready cfgA)) = true ∧
    (withMove (.rd 1) (ready cfgA)).host.pending = .rd 1 :: [] := by decide

/-- The ends of each range of the map and of the gaps between them, on a build that is not the default one. -/
theorem witness_EachIndexReadsItsRegister :
    smallBuild.Legal ∧ (63 < 64 ∧ 7 < smallBuild.maxPageWords ∧ 15 < smallBuild.maxCbufWords) ∧
    Unlisted smallBuild 0x08 ∧ Unlisted smallBuild 0x0F ∧ Unlisted smallBuild 0x17 ∧ Unlisted smallBuild 0xFF ∧
    Unlisted smallBuild 0x140 ∧ Unlisted smallBuild 0xFFFF ∧ Unlisted smallBuild 0x10008 ∧
    Unlisted smallBuild 0x1FFFF ∧ Unlisted smallBuild 0x20010 :=
  ⟨smallBuild_legal, by decide, by simp [Unlisted, smallBuild]⟩

theorem witness_EachIndexWritesItsRegister :
    smallBuild.Legal ∧ (7 < smallBuild.maxPageWords ∧ 15 < smallBuild.maxCbufWords) ∧ Unlisted smallBuild 0x10008 ∧
    Unlisted smallBuild 0x20010 :=
  ⟨smallBuild_legal, by decide, by simp [Unlisted, smallBuild]⟩

/-- Each kind of register at the ends of its range, and the indices just outside. -/
theorem witness_HostWriteThenRead :
    regAt build 0x02 = some .ARG0 ∧ regAt build 0x01 = some .STATUS ∧ regAt build 0x00 = some .CMD ∧
    regAt build 0x100 = some (.LANE 0) ∧ regAt build 0x13F = some (.LANE 63) ∧
    regAt build 0x10000 = some (.PAGE 0) ∧ regAt build 0x103FF = some (.PAGE 1023) ∧
    regAt build 0x20000 = some (.CBUF 0) ∧ regAt build 0x207FF = some (.CBUF 2047) ∧ regAt build 0x08 = none ∧
    regAt build 0x17 = none ∧ regAt build 0x140 = none ∧ regAt build 0x10400 = none ∧ regAt build 0x20800 = none := by
  decide

theorem witness_RegisterIndicesAreDistinct :
    build.Legal ∧ RegExists build (.PAGE 1023) ∧ RegExists build (.CBUF 2047) ∧ RegExists build (.LANE 63) ∧
    regAt build 0x207FF = some (.CBUF 2047) :=
  ⟨build_legal, (by decide : 1023 < 1024), (by decide : 2047 < 2048), trivial, by decide⟩

theorem witness_ResetGivesTheStatedValues :
    isIdle (withMove .rst (ready cfgA)) = true ∧ (withMove .rst (ready cfgA)).host.pending = .rst :: [] := by decide

/-- A command on the default build, a reset on another. -/
theorem witness_EveryStepKeepsTheInvariant :
    (Inv build (withMove (.wr 0 0x30) (ready cfgF)) ∧ ∃ t, step (withMove (.wr 0 0x30) (ready cfgF)) = .next t) ∧
    smallBuild.Legal ∧ Inv smallBuild (withMove .rst (ready cfgF)) ∧
    ∃ t, stepOn smallBuild (withMove .rst (ready cfgF)) = .next t :=
  ⟨⟨{ ready_inv cfgF_ok with }, after .classify (ready cfgF), exec_after (i := .classify) (s := ready cfgF) (by decide)⟩,
    smallBuild_legal, { ready_inv (p := smallBuild) ⟨by decide, by decide⟩ with }, _, rfl⟩

theorem witness_NothingStopsTheMachine :
    Inv build (ready cfgF) ∧ smallBuild.Legal ∧ Inv smallBuild (ready cfgF) :=
  ⟨ready_inv cfgF_ok, smallBuild_legal, ready_inv ⟨by decide, by decide⟩⟩

/-- An illegal word, an error of a command other than `CONFIGURE`, and one of `CONFIGURE`. -/
theorem witness_ErrorsChangeOnlyTheResult :
    (isIdle State.reset = true ∧ runCommandWord 3 State.reset = .next (endWith .badCommand State.reset) ∧
      decode 3 ≠ .ok .configure) ∧
    (isIdle State.reset = true ∧ runCommandWord 2 State.reset = .next (endWith .badCommand State.reset) ∧
      decode 2 ≠ .ok .configure) ∧
    (let s := (ready cfgA).setStage (staging 48 10 0 1 16 1 8)
     isIdle s = true ∧ runCommandWord 1 s = .next (after .configure s) ∧
       (after .configure s).status.result ≠ .ok ∧ decode 1 = .ok .configure) :=
  ⟨⟨by decide, rfl, by decide⟩, ⟨by decide, rfl, by decide⟩, by decide,
    exec_after (i := .configure) (s := (ready cfgA).setStage (staging 48 10 0 1 16 1 8)) (by decide), by decide,
    by decide⟩

/-- The states in which the commands end with `BadCommand`: no configuration, no dictionary, an entry reference just past
the last, a length just past the buffer. -/
theorem witness_badStates :
    State.reset.status.cfgValid = false ∧
    (setDictValid false (ready cfgA)).status.dictValid = false ∧
    (let s := w1Step6.setArg1 4
     s.cfg.S * s.cfg.M ≤ s.arg1.toNat) ∧
    build.maxCbufWords < (compressE1 2049).cbufLen.toNat := by decide

/-- A command that ends with each of the three codes. -/
theorem witness_ErrorCodesBelongToTheirCommands :
    (let s := (ready cfgA).setStage (staging 48 10 0 1 16 1 8)
     exec .configure s = .next (after .configure s) ∧ (after .configure s).status.result = .invalidConfiguration) ∧
    (exec .compress (compressE1 13) = .next (after .compress (compressE1 13)) ∧
      (after .compress (compressE1 13)).status.result = .bufferTooSmall) ∧
    (exec .decompress (decompressE1 3 0 8) = .next (after .decompress (decompressE1 3 0 8)) ∧
      (after .decompress (decompressE1 3 0 8)).status.result = .malformedInput) :=
  ⟨⟨exec_after (by decide), by decide⟩, ⟨exec_after (by decide), by decide⟩, exec_after (by decide), by decide⟩

theorem witness_CommandsWriteOnlyTheirColumns :
    exec .classify w1Step6 = .next (after .classify w1Step6) ∧
    exec .compress (compressE1 14) = .next (after .compress (compressE1 14)) ∧
    exec .decompress (decompressE1 9 0 8) = .next (after .decompress (decompressE1 9 0 8)) :=
  ⟨exec_after (by decide), exec_after (by decide), exec_after (by decide)⟩

/-- Each of the four cases of the life of `DICT_VALID`, and a command its being 0 forbids. -/
theorem witness_DictValidFollowsItsLifecycle :
    (exec .dinit (ready cfgA) = .next (after .dinit (ready cfgA)) ∧ (after .dinit (ready cfgA)).status.result = .ok) ∧
    (let s := (ready cfgA).setStage (staging 48 10 0 1 16 1 8)
     exec .configure s = .next (after .configure s) ∧ (after .configure s).status.result ≠ .ok) ∧
    (exec .compress (compressE1 14) = .next (after .compress (compressE1 14)) ∧
      (after .compress (compressE1 14)).status.result = .ok) ∧
    (exec .compress (compressE1 13) = .next (after .compress (compressE1 13)) ∧
      (after .compress (compressE1 13)).status.result ≠ .ok) ∧
    State.reset.status.dictValid = false ∧ usesDict .classify = true :=
  ⟨⟨exec_after (by decide), by decide⟩, ⟨exec_after (by decide), by decide⟩, ⟨exec_after (by decide), by decide⟩,
    ⟨exec_after (by decide), by decide⟩, rfl, rfl⟩

theorem witness_EnginesDoNotInteract :
    stepOn build (withMove .rst (ready cfgA)) = .next (applyReset (ready cfgA)) ∧
    stepOn build (ready cfgF) = .next (ready cfgF) ∧ (0 : Nat) ≠ 1 ∧ 1 < [withMove .rst (ready cfgA), ready cfgF].length :=
  ⟨rfl, rfl, by decide, by decide⟩

theorem witness_NopClearsTheResult : isIdle State.reset = true := rfl

/-- No configuration at reset, one after `CONFIGURE`. The reset values are valid; with stride 0 they are not. -/
theorem witness_ConfigureBuildsOrDestroysTheInstance :
    (State.reset.status.cfgValid = false ∧ Instr.compress ≠ .nop ∧ Instr.compress ≠ .configure) ∧
    (exec .configure State.reset = .next (after .configure State.reset) ∧
      (after .configure State.reset).status.cfgValid = true) ∧
    ValidStaging build State.reset.stage ∧ ¬ ValidStaging build (staging 32 10 0 1 16 0 8) := by
  refine ⟨by decide, ⟨exec_after (by decide), by decide⟩, ⟨by decide, by decide, by decide, ⟨⟨0, by decide⟩, ⟨4, by decide⟩, by decide⟩, by decide, by decide, by decide⟩, ?_⟩
  rintro ⟨-, -, -, -, -, h, -⟩
  exact absurd h (by decide)

theorem witness_PackwPacksTheLanes :
    (ready cfgA).status.cfgValid = true ∧ legalK 1 = true ∧ legalK 16 = true := by decide

theorem witness_UnpackwSpreadsTheWord :
    (ready cfgS).status.cfgValid = true ∧ legalK 1 = true ∧ legalK 16 = true := by decide

/-- A whole number of groups; a padded stream; a word with its unused bits 0. -/
theorem witness_UnpackInvertsPack :
    legalK 10 = true ∧ [1, 2, 0x3FF].length % reps cfgA 10 = 0 ∧ (∀ x ∈ [1, 2, 0x3FF], x < 2 ^ 10) ∧
    (∀ x ∈ [1, 2, 3, 4], x < 2 ^ 10) ∧ WordOk cfgA 0x155007FF := by
  refine ⟨by decide, by decide, by decide, by decide, ?_⟩
  unfold WordOk; decide

theorem witness_PackHasNoValueOutsideItsDomain : legalK 1 = true ∧ legalK 16 = true := by decide

theorem witness_UnusedBitsAndPadding :
    legalK 10 = true ∧
    (0x155007FF : Word).toNat % 2 ^ (reps cfgA 10 * 10) = (0xD55007FF : Word).toNat % 2 ^ (reps cfgA 10 * 10) := by
  decide

/-- A lookup with a match (T1 row 4) and one without (row 1) meet the same hypotheses. -/
theorem witness_LookupFindsFirstMatchOrOldest :
    build.Legal ∧ CfgOk build cfgF ∧ DictOk cfgF w1Step6.dict ∧
    hb cfgF (valAt w1Step6.dict (lookup build cfgF w1Step6.dict 0xE4FF).1) = hb cfgF 0xE4FF ∧
    hb cfgF (valAt w1Step6.dict (lookup build cfgF w1Step6.dict 1).1) ≠ hb cfgF 1 :=
  ⟨build_legal, cfgF_ok, w1Step6_dictOk, by decide, by decide⟩

theorem witness_DinitMakesAFreshDictionary : (ready cfgA).status.cfgValid = true := rfl

theorem witness_DlookupReportsTheCandidate :
    w1Step6.status.cfgValid = true ∧ w1Step6.status.dictValid = true ∧ CfgOk build w1Step6.cfg ∧
    DictOk w1Step6.cfg w1Step6.dict := ⟨rfl, rfl, cfgF_ok, w1Step6_dictOk⟩

/-- The last entry; a way that is first already; a set of one entry. -/
theorem witness_DpromoteMovesToTheFront :
    (let s := w1Step6.setArg1 3
     s.status.cfgValid = true ∧ s.status.dictValid = true ∧ CfgOk build s.cfg ∧ DictOk s.cfg s.dict ∧
       s.arg1.toNat < s.cfg.S * s.cfg.M) ∧
    (recencyOf w1Step6.dict 0).head? = some 2 ∧ cfgA.S = 1 :=
  ⟨⟨rfl, rfl, cfgF_ok, w1Step6_dictOk, by decide⟩, by decide, rfl⟩

theorem witness_DsetvalWritesOneEntry :
    let s := w1Step6.setArg1 3
    s.status.cfgValid = true ∧ s.status.dictValid = true ∧ CfgOk build s.cfg ∧ DictOk s.cfg s.dict ∧
      s.arg1.toNat < s.cfg.S * s.cfg.M := ⟨rfl, rfl, cfgF_ok, w1Step6_dictOk, by decide⟩

/-- One configuration for each of the three pairs. -/
theorem witness_OrganizationsCoincide :
    build.Legal ∧
    (let c : Cfg := { cfgA with org := .sa }
     CfgOk build c ∧ c.S = 1 ∧ build.hash { c with org := .dm } = build.hash c) ∧
    (let c : Cfg := { cfgF with org := .sa }
     CfgOk build c ∧ c.M = 1) ∧
    CfgOk build cfgH ∧ cfgH.org = .fah :=
  ⟨build_legal, ⟨⟨by decide, by decide⟩, rfl, rfl⟩, ⟨⟨by decide, by decide⟩, rfl⟩, cfgH_ok, rfl⟩

/-- With a match and without. -/
theorem witness_HashIndexAgreesWithTheScan :
    cfgH.org = .fah ∧ hashIndex cfgH w1Step6.dict (hb cfgH 0xE4FF) = some 3 ∧
    hashIndex cfgH w1Step6.dict (hb cfgH 1) = none := by decide

theorem witness_ClassifyNeverStoresZero :
    build.Legal ∧ CfgOk build cfgF ∧ ∀ w ∈ [0xA400, 0, 0xB800], WordOk cfgF w :=
  ⟨build_legal, cfgF_ok, by simp [WordOk, cfgF, Width.bits]⟩

/-- Two entries of the one set that still hold the sentinel share their high bits. -/
theorem witness_ClassifyKeepsHighBitsDistinct :
    build.Legal ∧ CfgOk build cfgF ∧ (∀ w ∈ [0xA400, 0xB800], WordOk cfgF w) ∧
    (let d := classifyAll build cfgF (fresh cfgF) [0xA400, 0xB800]
     0 < cap cfgF ∧ 1 < cap cfgF ∧ (0 : Nat) ≠ 1 ∧ 0 / cfgF.S = 1 / cfgF.S ∧
       hb cfgF (valAt d 0) = hb cfgF (valAt d 1)) :=
  ⟨build_legal, cfgF_ok, by simp [WordOk, cfgF, Width.bits], by decide⟩

/-- One word for each of the four tags. -/
theorem witness_ClassifyDecidesByTheCandidate :
    CfgOk build cfgF ∧
    (let v (w : Word) := (lookup build cfgF w1Step6.dict w).2
     v 0xE400 = 0xE400 ∧ v 0 ≠ 0 ∧ (v 0xE4FF ≠ 0xE4FF ∧ (v 0xE4FF).toNat / 2 ^ cfgF.L = 0xE4FF / 2 ^ cfgF.L) ∧
       v 1 ≠ 1 ∧ (v 1).toNat / 2 ^ cfgF.L ≠ 1 / 2 ^ cfgF.L) :=
  ⟨cfgF_ok, by decide⟩

theorem witness_ClassifyReportsTheStep :
    w1Step6.status.cfgValid = true ∧ w1Step6.status.dictValid = true ∧ CfgOk build w1Step6.cfg ∧
    DictOk w1Step6.cfg w1Step6.dict := ⟨rfl, rfl, cfgF_ok, w1Step6_dictOk⟩

/-- Stride 1, a stride of the page length, and positions on both sides of the long residue classes. -/
theorem witness_StrideOrderVisitsEveryPositionOnce :
    1 ≤ 1 ∧ 1 ≤ 7 ∧ 7 ≤ 7 ∧ 1 ≤ 3 ∧ 2 < 7 % 3 * (7 / 3 + 1) ∧ ¬ 3 < 7 % 3 * (7 / 3 + 1) ∧ 3 < 7 := by decide

/-- Seven words at stride 3. -/
theorem witness_PageModelClassifiesInStrideOrder :
    build.Legal ∧ CfgOk build cfgF ∧ ∀ w ∈ [0xA400, 0, 0xB800, 1, 0xA400, 0xA401, 0], WordOk cfgF w :=
  ⟨build_legal, cfgF_ok, by simp [WordOk, cfgF, Width.bits]⟩

/-- The streams of vector E1. -/
theorem witness_EncodedBufferHasTheLayout :
    build.Legal ∧ CfgOk build cfgA ∧
    8 = [Tag.ZERO, .MISS, .EXACT, .PARTIAL, .EXACT, .PARTIAL, .ZERO, .MISS].length ∧ 8 ≤ build.maxPageWords ∧
    [(0x12345678 : Word), 0xDEADBEEF].length ≤ 8 ∧ [5, 5, 0, 0].length ≤ 8 ∧ [0x0AB, 7].length ≤ 8 ∧
    (∀ e ∈ [5, 5, 0, 0], e < cfgA.S * cfgA.M) ∧ (∀ l ∈ [0x0AB, 7], l < 2 ^ cfgA.L) :=
  ⟨build_legal, cfgA_ok, by decide⟩

/-- Exactly the worst case of room; one word less for the error. -/
theorem witness_CompressWritesTheEncodedPage :
    (compressE1 14).status.cfgValid = true ∧ CfgOk build (compressE1 14).cfg ∧
    (compressE1 14).cbufLen.toNat ≤ build.maxCbufWords ∧
    (compressE1 14).cfg.N + ceilDiv (2 * (compressE1 14).cfg.N) (compressE1 14).cfg.W.bits + 5 ≤
      (compressE1 14).cbufLen.toNat ∧
    (compressE1 13).status.cfgValid = true ∧ (compressE1 13).cbufLen.toNat ≤ build.maxCbufWords ∧
    (compressE1 13).cbufLen.toNat <
      (compressE1 13).cfg.N + ceilDiv (2 * (compressE1 13).cfg.N) (compressE1 13).cfg.W.bits + 5 :=
  ⟨rfl, cfgA_ok, by decide, by decide, by decide⟩

/-- One word less than the worst case; twice the page. -/
theorem witness_CompressChecksTheWorstCase :
    (compressE1 13).status.cfgValid = true ∧ CfgOk build (compressE1 13).cfg ∧
    (compressE1 13).cbufLen.toNat ≤ build.maxCbufWords ∧
    (compressE1 16).status.cfgValid = true ∧ CfgOk build (compressE1 16).cfg ∧
    (compressE1 16).cbufLen.toNat ≤ build.maxCbufWords ∧ 6 ≤ (compressE1 16).cfg.N ∧
    2 * (compressE1 16).cfg.N ≤ (compressE1 16).cbufLen.toNat :=
  ⟨rfl, cfgA_ok, by decide, rfl, cfgA_ok, by decide⟩

theorem witness_CompressedSizeIsBounded :
    CfgOk build (compressE1 14).cfg ∧ exec .compress (compressE1 14) = .next (after .compress (compressE1 14)) ∧
    (after .compress (compressE1 14)).status.result = .ok ∧ 6 ≤ (compressE1 14).cfg.N :=
  ⟨cfgA_ok, exec_after (by decide), by decide, by decide⟩

/-- Two states that differ in the dictionary and the staging registers, for each of the two commands. -/
theorem witness_MacroCommandsDependOnTheirInputsOnly :
    (let s := compressE1 14
     let s' := (s.setDict w1Step6.dict).setStage (staging 1 2 3 4 5 6 7)
     s'.cfg = s.cfg ∧ s'.status.cfgValid = s.status.cfgValid ∧ s'.cbufLen = s.cbufLen ∧
       (∀ i, i < s.cfg.N → pageRead s' i = pageRead s i) ∧ exec .compress s = .next (after .compress s) ∧
       (after .compress s).status.result = .ok) ∧
    (let s := decompressE1 9 0 8
     let s' := (s.setDict w1Step6.dict).setStage (staging 1 2 3 4 5 6 7)
     s'.cfg = s.cfg ∧ s'.status.cfgValid = s.status.cfgValid ∧ s'.cbufLen = s.cbufLen ∧
       (∀ i, i < s.cbufLen.toNat → cbufRead s' i = cbufRead s i) ∧ exec .decompress s = .next (after .decompress s) ∧
       (after .decompress s).status.result = .ok) :=
  ⟨⟨rfl, rfl, rfl, fun _ _ => rfl, exec_after (by decide), by decide⟩,
    rfl, rfl, rfl, fun _ _ => rfl, exec_after (by decide), by decide⟩

/-- What the buffer of E1 parses to. -/
def parsedE1 : Parsed where
  n := 8
  tags := [.ZERO, .MISS, .EXACT, .PARTIAL, .EXACT, .PARTIAL, .ZERO, .MISS]
  idx := [5, 5, 0, 0]
  low := [0x0AB, 7]
  full := [0x12345678, 0xDEADBEEF]

/-- The words of the buffer of E1. -/
def wordsE1 : List Word := [8, 7, 8, 9, 0xC99C, 0x12345678, 0xDEADBEEF, 0x55, 0x1CAB]

theorem witness_ParsedBufferReplaysToItsEnd :
    build.Legal ∧ CfgOk build cfgA ∧ parse build cfgA wordsE1 wordsE1.length = .ok parsedE1 :=
  ⟨build_legal, cfgA_ok, by decide⟩

/-- A buffer for each outcome of the tests: V1, V2, V3, V4, V5, V6, V7 fails (D2 rows 2, 3, 10, 11, 15, 17, 19), none does. -/
theorem witness_DecompressTestsInOrder :
    let passes (s : State) := s.status.cfgValid = true ∧ s.cbufLen.toNat ≤ build.maxCbufWords
    passes (decompressE1 3 0 8) ∧ passes (decompressE1 4 0 8) ∧ passes (decompressE1 69 0 1025) ∧
    passes (decompressE1 9 1 4) ∧ passes (decompressE1 9 1 6) ∧ passes (decompressE1 9 2 7) ∧
    passes (decompressE1 9 3 8) ∧ passes (decompressE1 9 0 8) ∧
    (parse build cfgA (cbufWordsOf (decompressE1 9 0 8)) 9 = .ok parsedE1) ∧
    4 + ceilDiv (2 * 1025) cfgA.W.bits ≤ 69 ∧ ¬ 1025 ≤ build.maxPageWords := by decide

/-- A buffer that parses, and one that does not. -/
theorem witness_DecompressWritesTheReplayedPage :
    (decompressE1 9 0 8).status.cfgValid = true ∧ CfgOk build (decompressE1 9 0 8).cfg ∧
    (decompressE1 9 0 8).cbufLen.toNat ≤ build.maxCbufWords ∧
    parse build (decompressE1 9 0 8).cfg (cbufWordsOf (decompressE1 9 0 8)) (decompressE1 9 0 8).cbufLen.toNat =
      .ok parsedE1 ∧
    (decompressE1 3 0 8).status.cfgValid = true ∧ (decompressE1 3 0 8).cbufLen.toNat ≤ build.maxCbufWords ∧
    parse build (decompressE1 3 0 8).cfg (cbufWordsOf (decompressE1 3 0 8)) (decompressE1 3 0 8).cbufLen.toNat =
      .error .malformedInput := ⟨rfl, cfgA_ok, by decide, by decide, by decide⟩

/-- A buffer longer than `header[3]` = 9, and another that agrees with it up to there, shorter and with another word. -/
theorem witness_WordsBeyondTheEndAreIgnored :
    let b := wordsE1 ++ [1, 2, 3]
    let b' := wordsE1 ++ [7]
    build.Legal ∧ CfgOk build cfgA ∧ parse build cfgA b b.length = .ok parsedE1 ∧ headerField b 3 ≤ b'.length ∧
      b'.take (headerField b 3) = b.take (headerField b 3) :=
  ⟨build_legal, cfgA_ok, by decide, by decide, by decide⟩

theorem witness_ReconDecidesByTheTag : build.Legal ∧ CfgOk build cfgF ∧ DictOk cfgF w1Step6.dict :=
  ⟨build_legal, cfgF_ok, w1Step6_dictOk⟩

/-- Every tag occurs in the streams of E1. -/
theorem witness_ReplayReconstructsInStrideOrder :
    build.Legal ∧ CfgOk build cfgA ∧ parsedE1.tags.length = parsedE1.n ∧
    parsedE1.idx.length = parsedE1.tags.count .EXACT + parsedE1.tags.count .PARTIAL ∧
    parsedE1.low.length = parsedE1.tags.count .PARTIAL ∧ parsedE1.full.length = parsedE1.tags.count .MISS ∧
    ∀ e ∈ parsedE1.idx, e < cap cfgA :=
  ⟨build_legal, cfgA_ok, by decide⟩

/-- The last entry for the two tags that name one. -/
theorem witness_ReconReportsTheStep :
    let s := w1Step6.setArg1 3
    s.status.cfgValid = true ∧ s.status.dictValid = true ∧ CfgOk build s.cfg ∧ DictOk s.cfg s.dict ∧
      (Tag.EXACT = .EXACT ∨ Tag.EXACT = .PARTIAL → s.arg1.toNat < s.cfg.S * s.cfg.M) ∧
      (Tag.PARTIAL = .EXACT ∨ Tag.PARTIAL = .PARTIAL → s.arg1.toNat < s.cfg.S * s.cfg.M) :=
  ⟨rfl, rfl, cfgF_ok, w1Step6_dictOk, by decide, by decide⟩

theorem witness_ReconInvertsClassify : CfgOk build cfgF ∧ WordOk cfgF 0xFFFFFFFF :=
  ⟨cfgF_ok, by simp [WordOk, cfgF, Width.bits]⟩

/-- The compressed size is 9; 9 words and the whole capacity are both allowed. -/
theorem witness_DecompressInvertsCompress :
    build.Legal ∧ CfgOk build (compressE1 14).cfg ∧ (compressE1 14).status.cfgValid = true ∧
    compressOn build (compressE1 14) = .next (after .compress (compressE1 14)) ∧
    (after .compress (compressE1 14)).status.result = .ok ∧
    (after .compress (compressE1 14)).res1.toNat ≤ (9 : BitVec 32).toNat ∧
    (2048 : BitVec 32).toNat ≤ build.maxCbufWords :=
  ⟨build_legal, cfgA_ok, rfl, exec_after (i := .compress) (s := compressE1 14) (by decide), by decide,
    by decide, by decide⟩

theorem witness_SerializedWordsComeBack :
    (∀ w ∈ [(0x12345678 : Word), 0xFFFFFFFF], WordOk cfgA w) ∧ [(1 : BitVec 8)].length % (cfgA.W.bits / 8) ≠ 0 :=
  ⟨by simp [WordOk, cfgA, Width.bits], by decide⟩

end Sys2Proof.Tests
end

section
/-!
PROOFS of the family 00_scope.md: no fault and no refusal is reached from a state that meets the invariant (O19), and
the builds share one machine (O7).
-/

namespace Sys2Proof.Machine

/-! ### The gates answer a next state

A gate that fails raises `BadCommand`, which is a next state (60_exceptions.md R231); one that passes leaves the question
to the command behind it, which may use what the gate has tested. -/

theorem needCfg_answers {s : State} {k : Result} (h : s.status.cfgValid = true → ∃ t, k = .next t) :
    ∃ t, needCfg s k = .next t := by
  cases hc : s.status.cfgValid with
  | true => rw [needCfg_pass hc]; exact h hc
  | false => exact ⟨endWith .badCommand s, by simp [needCfg, raiseError, hc]⟩

theorem needDict_answers {s : State} {k : Result} (h : ∃ t, k = .next t) : ∃ t, needDict s k = .next t := by
  refine needCfg_answers fun _ => ?_
  split
  · exact h
  · exact ⟨_, rfl⟩

theorem needEntry_answers {s : State} {k : Result} (h : ∃ t, k = .next t) : ∃ t, needEntry s k = .next t := by
  unfold needEntry
  split
  · exact h
  · exact ⟨_, rfl⟩

theorem needCbufLen_answers {p : Params} {s : State} {k : Result} (h : ∃ t, k = .next t) :
    ∃ t, needCbufLen p s k = .next t := by
  unfold needCbufLen
  split
  · exact h
  · exact ⟨_, rfl⟩

/-! ### Every command answers a next state -/

theorem configureOn_answers (p : Params) (s : State) : ∃ t, configureOn p s = .next t := by
  unfold configureOn
  split <;> exact ⟨_, rfl⟩

theorem execPackw_answers (k : Nat) (s : State) : ∃ t, execPackw k s = .next t := by
  unfold execPackw
  split
  · exact needCfg_answers fun _ => ⟨_, rfl⟩
  · exact ⟨_, rfl⟩

theorem execUnpackw_answers (k : Nat) (s : State) : ∃ t, execUnpackw k s = .next t := by
  unfold execUnpackw
  split
  · exact needCfg_answers fun _ => ⟨_, rfl⟩
  · exact ⟨_, rfl⟩

theorem reconOn_answers (p : Params) (t : Tag) (s : State) : ∃ u, reconOn p t s = .next u := by
  refine needDict_answers ?_
  cases t with
  | ZERO => exact ⟨_, rfl⟩
  | EXACT => exact needEntry_answers ⟨_, rfl⟩
  | PARTIAL => exact needEntry_answers ⟨_, rfl⟩
  | MISS => exact ⟨_, rfl⟩

/-- `COMPRESS` reads no undefined slot and calls `pack` inside its domain (42_word_classifier.md R158,
43_layout_encoder.md R172): a validated configuration always has an encoding of the page. -/
theorem compressOn_answers {p : Params} {s : State} (hp : p.Legal)
    (hc : s.status.cfgValid = true → CfgOk p s.cfg) : ∃ t, compressOn p s = .next t := by
  refine needCfg_answers fun hv => needCbufLen_answers ?_
  obtain ⟨tags, b, -, -, hslots, hencode, -⟩ := compressOn_encodes hp (hc hv)
  split
  · exact ⟨_, rfl⟩
  · simp only [hslots, hencode]
    exact ⟨_, rfl⟩

/-- A buffer that parses has streams of the lengths its tags need, so on a legal configuration its replay never runs out
and writes every slot (44_layout_decoder.md R191). -/
theorem replay_of_parse {p : Params} {c : Cfg} {b : List Word} {x : Parsed} (hp : p.Legal) (hc : CfgOk p c)
    (h : parse p c b b.length = .ok x) : ∃ r out, replay p c x = some r ∧ definedSlots r.out = some out := by
  obtain ⟨htags, hfull, hidx, hlow, hrange, -, -⟩ := parse_streams hc.facts h
  obtain ⟨r, out, hr, hout, -⟩ := replay_spec hp.hashInRange hc.facts htags hidx hlow hfull hrange
  exact ⟨r, out, hr, hout⟩

/-- `DECOMPRESS` meets no exhausted stream and no undefined slot, whatever `CBUF` holds (44_layout_decoder.md R191). -/
theorem decompressOn_answers {p : Params} {s : State} (hp : p.Legal)
    (hc : s.status.cfgValid = true → CfgOk p s.cfg) : ∃ t, decompressOn p s = .next t := by
  refine needCfg_answers fun hv => needCbufLen_answers ?_
  cases hx : parse p s.cfg (cbufWordsOf s) s.cbufLen.toNat with
  | error code => exact ⟨_, rfl⟩
  | ok x =>
    rw [← cbufWordsOf_length] at hx
    obtain ⟨r, out, hr, hout⟩ := replay_of_parse hp (hc hv) hx
    simp only [hr, hout]
    exact ⟨_, rfl⟩

/-- Only the macro commands need the invariant, and of it only that a validated configuration is legal. -/
theorem execOn_answers {p : Params} {s : State} (hp : p.Legal) (hc : s.status.cfgValid = true → CfgOk p s.cfg)
    (i : Instr) : ∃ t, execOn p i s = .next t := by
  cases i with
  | nop => exact ⟨_, execNop_eq s⟩
  | configure => exact configureOn_answers p s
  | dinit => exact needCfg_answers fun _ => ⟨_, rfl⟩
  | dlookup => exact needDict_answers ⟨_, rfl⟩
  | dpromote => exact needDict_answers (needEntry_answers ⟨_, rfl⟩)
  | dsetval => exact needDict_answers (needEntry_answers ⟨_, rfl⟩)
  | packw k => exact execPackw_answers k s
  | unpackw k => exact execUnpackw_answers k s
  | classify => exact needDict_answers ⟨_, rfl⟩
  | recon t => exact reconOn_answers p t s
  | compress => exact compressOn_answers hp hc
  | decompress => exact decompressOn_answers hp hc

/-! ### Every step answers a next state -/

/-- No command runs in a state that meets the invariant, so the host may move (20_memory.md R60). -/
theorem Inv.isIdle {p : Params} {s : State} (h : Inv p s) : isIdle s = true :=
  (isIdle_iff s).2 ⟨h.notBusy, h.noRun⟩

theorem stepOn_answers {p : Params} {s : State} (hp : p.Legal) (h : Inv p s) : ∃ t, stepOn p s = .next t := by
  rcases hostStepWith_cases p (execOn p) s with
    ⟨-, hs⟩ | ⟨hbusy, -⟩ | ⟨-, ⟨c, i, -, hs⟩ | hs | ⟨a, v, hs⟩ | ⟨a, hs⟩ | hs⟩
  · exact ⟨_, hs⟩
  · simp [h.isIdle] at hbusy
  · obtain ⟨t, ht⟩ := execOn_answers (s := dropAction s) hp h.cfgOk i
    exact ⟨t, hs.trans ht⟩
  · exact ⟨_, hs⟩
  · exact ⟨_, hs⟩
  · exact ⟨_, hs⟩
  · exact ⟨_, hs⟩

/-! ### The default build -/

theorem execOn_build (i : Instr) (s : State) : execOn build i s = exec i s := by cases i <;> rfl

theorem runCommandWordOn_build (c : BitVec 32) (s : State) : runCommandWordOn build c s = runCommandWord c s := by
  rw [runCommandWordOn, runCommandWord, funext₂ execOn_build]

theorem stepOn_build (s : State) : stepOn build s = step s := by
  rw [stepOn, step, funext₂ execOn_build]

/-- Settles O19: a failed gate is a next state, and behind the gates only the macro commands could stop, which a legal
configuration excludes. -/
theorem nothingStopsTheMachine : Obligations.NothingStopsTheMachine := by
  have hall : ∀ (p : Params) (s : State), p.Legal → Inv p s →
      (∀ i, ∃ t, execOn p i s = .next t) ∧ ∃ t, stepOn p s = .next t :=
    fun _ _ hp h => ⟨execOn_answers hp h.cfgOk, stepOn_answers hp h⟩
  refine ⟨fun s h => ?_, hall⟩
  simpa only [execOn_build, stepOn_build] using hall build s build_legal h

/-! ### The host's moves on a build -/

section
variable {p : Params} {s : State} {rest : List HostAction}

theorem stepOn_of_pending {a : HostAction} (hs : isIdle s = true) (hq : s.host.pending = a :: rest) :
    stepOn p s = hostMoveWith p (execOn p) a (dropAction s) :=
  hostStepWith_of_pending hs hq

/-- A word that does not decode is a `BadCommand` (30_encoding.md R72, R73). -/
theorem runWordWith_of_decodeError (run : Instr → State → Result) {c : BitVec 32} {e : DecodeError}
    (h : decode c = .error e) (s : State) : runWordWith run c s = .next (endWith .badCommand s) := by
  simp only [runWordWith, h, raiseError]

theorem hostMoveWith_wr_of_ne_zero (run : Instr → State → Result) {a : Nat} (ha : a ≠ 0) (v : Nat) (s : State) :
    hostMoveWith p run (.wr a v) s = .next (hostWriteOn p s a v) := by
  obtain ⟨x, rfl⟩ := Nat.exists_eq_succ_of_ne_zero ha
  rfl

/-- The host's side after a read (20_memory.md R55): its move is made, and the value read, which the moves still to come
do not affect, is the last of its list. -/
theorem hostRead_dropAction {a : Nat} (hq : s.host.pending = .rd a :: rest) :
    hostRead p a (dropAction s) =
      { s with host := { pending := rest, reads := s.host.reads ++ [hostReadOn p s a] } } := by
  unfold hostRead
  rw [dropAction, hostReadOn_setHost, hq]
  rfl

end

/-- The commands that take no build parameter (00_scope.md R11). -/
theorem execOn_eq_exec_of_not_mem (p : Params) (i : Instr) (s : State)
    (h : i ∉ [.configure, .dlookup, .classify, .recon .ZERO, .recon .EXACT, .recon .PARTIAL, .recon .MISS, .compress,
      .decompress]) : execOn p i s = exec i s := by
  cases i with
  | nop | dinit | dpromote | dsetval | packw | unpackw => rfl
  | configure | dlookup | classify | compress | decompress => simp at h
  | recon t => cases t <;> simp at h

/-! ### The engines of a build after reset -/

theorem reset_resetValues : ResetValues State.reset :=
  ⟨by decide, rfl, rfl, rfl, rfl, rfl, rfl, rfl, rfl, rfl, rfl, rfl, rfl, rfl, by simp [lane, State.reset], rfl⟩

/-- Which free values an engine draws is no part of what reset is stated to give. -/
theorem ResetValues.setFree {s : State} (h : ResetValues s) (k : FreeKey) : ResetValues (s.setFree k) := h

theorem memOk_nil (capacity : Nat) : MemOk capacity [] := ⟨List.Pairwise.nil, by simp⟩

/-- Right after reset nothing is valid and both buffers are unwritten. -/
theorem reset_inv (p : Params) : Inv p State.reset where
  notBusy := rfl
  noRun := rfl
  cfgOk := by simp [State.reset]
  dictNeedsCfg := by simp [State.reset]
  dictOk := by simp [State.reset]
  resTag := by simp [State.reset]
  page := memOk_nil _
  cbuf := memOk_nil _

/-- The free values drawn play no part in the invariant. -/
theorem Inv.setFree {p : Params} {s : State} (h : Inv p s) (k : FreeKey) : Inv p (s.setFree k) :=
  ⟨h.notBusy, h.noRun, h.cfgOk, h.dictNeedsCfg, h.dictOk, h.resTag, h.page, h.cbuf⟩

theorem mem_enginesReset {p : Params} {t : State} (h : t ∈ enginesReset p) : ∃ k, t = State.reset.setFree k := by
  obtain ⟨j, -, rfl⟩ := List.mem_map.1 h
  exact ⟨_, rfl⟩

/-- Settles O7: each host move on a build is one arm of `hostMoveWith`; `exec` and `step` are the machine at `build`. -/
theorem buildsShareOneMachine : Obligations.BuildsShareOneMachine := by
  refine ⟨fun p s rest hs => ⟨?_, ?_, ?_, ?_, ?_⟩,
    fun i c s => ⟨execOn_build i s, runCommandWordOn_build c s, stepOn_build s⟩, execOn_eq_exec_of_not_mem,
    ⟨build_legal, rfl, rfl, rfl, fun _ _ => rfl⟩, fun p => ⟨?_, Params.Legal.engines, ?_⟩⟩
  · intro v i hq hd
    exact (stepOn_of_pending hs hq).trans (runWordWith_of_decode (execOn p) hd _)
  · intro v e hq hd
    exact (stepOn_of_pending hs hq).trans (runWordWith_of_decodeError (execOn p) hd _)
  · intro a v ha hq
    exact (stepOn_of_pending hs hq).trans (hostMoveWith_wr_of_ne_zero (execOn p) ha v _)
  · intro a hq
    rw [stepOn_of_pending hs hq, hostMoveWith, hostRead_dropAction hq]
  · intro hq
    exact stepOn_of_pending hs hq
  · simp [enginesReset]
  · intro t ht
    obtain ⟨k, rfl⟩ := mem_enginesReset ht
    exact ⟨reset_resetValues.setFree k, (reset_inv p).setFree k, rfl⟩

end Sys2Proof.Machine
end

section
/-!
PROOFS of the family 10_state.md: the register map and the host's accesses (O9, O11 to O14), `STATUS` (O16), the command a
step runs (O6), what a command may change (O23, O24), and the invariant (O17, O18).
-/

namespace Sys2Proof.Machine

/-! ### The register map (10_state.md R41)

A host access at an index goes through `regAt`, and `regIndex` gives the index of each register: the two are inverse, so
an access at `regIndex r` is an access to `r`. -/

/-- Every register of a legal build is found at its index. -/
theorem regAt_regIndex {p : Params} (hp : p.Legal) {r : Reg} (h : RegExists p r) : regAt p (regIndex r) = some r := by
  cases r with
  | LANE j => exact regAt_lane p j
  | PAGE i => exact regAt_page p h
  | CBUF i => exact regAt_cbuf p hp h
  | _ => rfl

theorem regExists_of_regAt {p : Params} {a : Nat} {r : Reg} (h : regAt p a = some r) : RegExists p r := by
  cases r with
  | PAGE i => exact (regAt_page_lt h).2
  | CBUF i => exact (regAt_cbuf_lt h).2
  | _ => trivial

/-- Settles O14: `regAt` and `regIndex` are inverse to each other on the registers that exist. -/
theorem registerIndicesAreDistinct : Obligations.RegisterIndicesAreDistinct :=
  fun _ hp => ⟨fun _ => regAt_regIndex hp, fun _ _ h => ⟨regAt_index h, regExists_of_regAt h⟩⟩

section
variable {p : Params} {a : Nat} {r : Reg}

theorem hostReadOn_of_regAt (h : regAt p a = some r) (s : State) : hostReadOn p s a = regRead s r := by
  simp only [hostReadOn, h]

theorem hostWriteOn_of_regAt (h : regAt p a = some r) (s : State) (v : Nat) : hostWriteOn p s a v = regWrite s v r := by
  simp only [hostWriteOn, h]

theorem hostReadOn_of_none (h : regAt p a = none) (s : State) : hostReadOn p s a = 0 := by
  simp only [hostReadOn, h]

theorem hostWriteOn_of_none (h : regAt p a = none) (s : State) (v : Nat) : hostWriteOn p s a v = s := by
  simp only [hostWriteOn, h]

end

/-- Settles O11: each listed index is the index of a register that exists, and reads it; an index not listed has none. -/
theorem eachIndexReadsItsRegister : Obligations.EachIndexReadsItsRegister := by
  intro p s hp
  have hread : ∀ r, RegExists p r → hostReadOn p s (regIndex r) = regRead s r :=
    fun r hr => hostReadOn_of_regAt (regAt_regIndex hp hr) s
  refine ⟨⟨hread .CMD trivial, hread .STATUS trivial, hread .ARG0 trivial, hread .ARG1 trivial, hread .RES0 trivial,
    hread .RES1 trivial, hread .RES_TAG trivial, hread .CBUF_LEN trivial, hread .CFG_WORD_WIDTH trivial,
    hread .CFG_LOW_BITS trivial, hread .CFG_ORG trivial, hread .CFG_SET_SIZE trivial, hread .CFG_NUM_SETS trivial,
    hread .CFG_STRIDE trivial, hread .CFG_PAGE_WORDS trivial⟩, ?_, fun i => hread (.PAGE i), fun i => hread (.CBUF i),
    fun a ha => hostReadOn_of_none (regAt_unlisted hp ha) s⟩
  intro j hj
  rw [lane, dif_pos hj]
  exact hread (.LANE ⟨j, hj⟩) trivial

/-! ### What a write to a register stores -/

theorem pageCell_regWrite_page (s : State) (v i k : Nat) :
    pageCell (regWrite s v (.PAGE i)) k = if k = i then BitVec.ofNat 64 v else pageCell s k := by
  simp only [regWrite, pageCell, State.setPage_page, State.setPage_free, memGet_memSet]
  split <;> rfl

theorem cbufCell_regWrite_cbuf (s : State) (v i k : Nat) :
    cbufCell (regWrite s v (.CBUF i)) k = if k = i then BitVec.ofNat 64 v else cbufCell s k := by
  simp only [regWrite, cbufCell, State.setCbuf_cbuf, State.setCbuf_free, memGet_memSet]
  split <;> rfl

/-- Settles O12: each listed index is the index of a register that exists, and a write there is a write to it. -/
theorem eachIndexWritesItsRegister : Obligations.EachIndexWritesItsRegister := by
  intro p s v hp
  have hwrite : ∀ r, RegExists p r → hostWriteOn p s (regIndex r) v = regWrite s v r :=
    fun r hr => hostWriteOn_of_regAt (regAt_regIndex hp hr) s v
  refine ⟨⟨hwrite .ARG0 trivial, hwrite .ARG1 trivial, hwrite .CBUF_LEN trivial, hwrite .CFG_WORD_WIDTH trivial,
    hwrite .CFG_LOW_BITS trivial, hwrite .CFG_ORG trivial, hwrite .CFG_SET_SIZE trivial, hwrite .CFG_NUM_SETS trivial,
    hwrite .CFG_STRIDE trivial, hwrite .CFG_PAGE_WORDS trivial⟩,
    ⟨hwrite .STATUS trivial, hwrite .RES0 trivial, hwrite .RES1 trivial, hwrite .RES_TAG trivial⟩,
    fun j => hwrite (.LANE j) trivial, fun i hi => ?_, fun i hi => ?_,
    fun a ha => hostWriteOn_of_none (regAt_unlisted hp ha) s v⟩
  · dsimp only
    rw [show hostWriteOn p s (0x10000 + i) v = _ from hwrite (.PAGE i) hi]
    exact ⟨rfl, pageCell_regWrite_page s v i⟩
  · dsimp only
    rw [show hostWriteOn p s (0x20000 + i) v = _ from hwrite (.CBUF i) hi]
    exact ⟨rfl, cbufCell_regWrite_cbuf s v i⟩

/-- The low `n` bits of a value, read back as a 64-bit word. -/
theorem setWidth_ofNat (n v : Nat) : (BitVec.ofNat n v).setWidth 64 = BitVec.ofNat 64 (v % 2 ^ n) := by
  apply BitVec.eq_of_toNat_eq
  simp only [BitVec.toNat_setWidth, BitVec.toNat_ofNat]

theorem ofNat_mod_two_pow (n v : Nat) : BitVec.ofNat n (v % 2 ^ n) = BitVec.ofNat n v := by
  apply BitVec.eq_of_toNat_eq
  simp only [BitVec.toNat_ofNat, Nat.mod_mod]

/-- A register reads back the low bits of the value written that fit, or, if the host may not write it, what it held. -/
theorem regRead_regWrite_same (s : State) (v : Nat) (r : Reg) :
    regRead (regWrite s v r) r =
      if hostWritable r then BitVec.ofNat 64 (v % 2 ^ regWidth r) else regRead s r := by
  cases r with
  | ARG0 => exact (ofNat_mod_two_pow 64 v).symm
  | PAGE i =>
    rw [regRead, pageCell_regWrite_page, if_pos rfl]
    exact (ofNat_mod_two_pow 64 v).symm
  | CBUF i =>
    rw [regRead, cbufCell_regWrite_cbuf, if_pos rfl]
    exact (ofNat_mod_two_pow 64 v).symm
  | LANE j =>
    have hlane : (s.lanes.set j (BitVec.ofNat 16 v))[j] = BitVec.ofNat 16 v := Vector.getElem_set_self _
    exact (congrArg (BitVec.setWidth 64) hlane).trans (setWidth_ofNat 16 v)
  | CMD | STATUS | RES0 | RES1 | RES_TAG => rfl
  | _ => exact setWidth_ofNat 32 v

/-- Settles O13: through `regAt` it is a read of a register after a write to the same register. -/
theorem hostWriteThenRead : Obligations.HostWriteThenRead := by
  refine fun p s a v => ⟨fun r hr => ?_, fun hr => ⟨hostReadOn_of_none hr s, hostWriteOn_of_none hr s v⟩⟩
  rw [hostReadOn_of_regAt hr, hostReadOn_of_regAt hr, hostWriteOn_of_regAt hr]
  exact regRead_regWrite_same s v r

/-! ### What a host write leaves alone -/

/-- No register of the map is any of these. -/
theorem regWrite_frame (s : State) (v : Nat) (r : Reg) :
    (regWrite s v r).host = s.host ∧ (regWrite s v r).status = s.status ∧ (regWrite s v r).cfg = s.cfg ∧
      (regWrite s v r).dict = s.dict ∧ (regWrite s v r).macroRun = s.macroRun ∧ (regWrite s v r).free = s.free := by
  cases r <;> exact ⟨rfl, rfl, rfl, rfl, rfl, rfl⟩

theorem hostWriteOn_frame (p : Params) (s : State) (a v : Nat) :
    (hostWriteOn p s a v).host = s.host ∧ (hostWriteOn p s a v).status = s.status ∧
      (hostWriteOn p s a v).cfg = s.cfg ∧ (hostWriteOn p s a v).dict = s.dict ∧
      (hostWriteOn p s a v).macroRun = s.macroRun ∧ (hostWriteOn p s a v).free = s.free := by
  cases hr : regAt p a with
  | none => rw [hostWriteOn_of_none hr]; exact ⟨rfl, rfl, rfl, rfl, rfl, rfl⟩
  | some r => rw [hostWriteOn_of_regAt hr]; exact regWrite_frame s v r

/-- Registers at different indices are different, so a write at one index leaves what every other reads. -/
theorem hostReadOn_hostWriteOn_ne (p : Params) (s : State) (v : Nat) {a b : Nat} (hab : b ≠ a) :
    hostReadOn p (hostWriteOn p s a v) b = hostReadOn p s b := by
  cases ha : regAt p a with
  | none => rw [hostWriteOn_of_none ha]
  | some r =>
    cases hb : regAt p b with
    | none => rw [hostReadOn_of_none hb, hostReadOn_of_none hb]
    | some r' =>
      have hne : r ≠ r' := fun h => hab (by rw [← regAt_index ha, ← regAt_index hb, h])
      rw [hostReadOn_of_regAt hb, hostReadOn_of_regAt hb, hostWriteOn_of_regAt ha, regRead_regWrite_ne s v hne]

theorem hostReadOn_dropAction (p : Params) (s : State) (a : Nat) :
    hostReadOn p (dropAction s) a = hostReadOn p s a := hostReadOn_setHost p s _ a

theorem dropAction_eq {s : State} {a : HostAction} {rest : List HostAction} (hq : s.host.pending = a :: rest) :
    dropAction s = { s with host := { s.host with pending := rest } } := by
  rw [dropAction, hq]; rfl

/-- Settles O9: the step is the register write, which O13 and the frame of a host write describe. -/
theorem hostWriteTouchesOneRegister : Obligations.HostWriteTouchesOneRegister := by
  intro p s a v rest hs hq ha
  have hstep : stepOn p s = .next (hostWriteOn p (dropAction s) a v) :=
    (stepOn_of_pending hs hq).trans (hostMoveWith_wr_of_ne_zero (execOn p) ha v _)
  obtain ⟨hhost, hstatus, hcfg, hdict, hrun, hfree⟩ := hostWriteOn_frame p (dropAction s) a v
  refine ⟨_, hstep, fun hb => ?_, rfl, ?_, ?_, hstatus, hcfg, hdict, hrun, hfree, fun b hba => ?_⟩
  · subst hb
    exact (stepOn_build s).symm.trans hstep
  · cases hr : regAt p a with
    | none => exact hostReadOn_of_none hr _
    | some r => rw [(hostWriteThenRead p (dropAction s) a v).1 r hr, hostReadOn_dropAction]
  · rw [hhost, dropAction_eq hq]
  · rw [hostReadOn_hostWriteOn_ne p _ v hba, hostReadOn_dropAction]

/-! ### The command a step runs -/

theorem decode_of_decodeTableWord {nbits w : Nat} {i : Instr} (h : decodeTableWord nbits w = some i) :
    decode (BitVec.ofNat 32 (w % 2 ^ nbits)) = .ok i := by
  unfold decodeTableWord at h
  split at h
  · rw [‹decode _ = _›, Option.some.inj h]
  · cases h

/-- Settles O6: a pending write to `CMD` is the step's move, and running a word that decodes is `exec` of its command. -/
theorem stepExecutesTheCommandWritten : Obligations.StepExecutesTheCommandWritten := by
  refine ⟨fun s v rest hs hq => ?_, fun s nbits w i hi => ?_⟩
  · have hstep : step s = runCommandWord (BitVec.ofNat 32 v) (dropAction s) := step_of_pending hs hq
    exact ⟨dropAction_eq hq, hstep, fun i hi => hstep.trans (runWordWith_of_decode exec hi _)⟩
  · exact (step_withFetchWord s nbits w).trans (runWordWith_of_decode exec (decode_of_decodeTableWord hi) _)

/-! ### `STATUS` -/

/-- The bits of `STATUS` below the code. -/
theorem statusWord_flags (st : Status) :
    (statusWord st).getLsbD 0 = st.cfgValid ∧ (statusWord st).getLsbD 1 = st.dictValid ∧
      (statusWord st).getLsbD 2 = st.busy ∧ (statusWord st).getLsbD 3 = false := by
  simp only [statusWord, BitVec.getLsbD_append, BitVec.getLsbD_ofBool]
  simp

/-- The bits of `STATUS` from the code on. -/
theorem statusWord_getLsbD_add_four (st : Status) (i : Nat) :
    (statusWord st).getLsbD (4 + i) = (resultCode st.result).getLsbD i := by
  rw [show 4 + i = i + 1 + 1 + 1 + 1 by omega]
  simp only [statusWord, BitVec.getLsbD_append, Nat.add_sub_cancel, Nat.lt_one_iff, Nat.succ_ne_zero, if_false]
  split
  · rfl
  · rw [BitVec.getLsbD_zero, BitVec.getLsbD_of_ge _ _ (by omega)]

/-- Settles O16: below the code stand the three flags and a 0, from bit 4 on the code's own bits. -/
theorem statusWordHasTheStatedBits : Obligations.StatusWordHasTheStatedBits := by
  intro st
  obtain ⟨h0, h1, h2, h3⟩ := statusWord_flags st
  have hcode : (statusWord st).extractLsb' 4 4 = resultCode st.result := by
    ext i hi
    rw [BitVec.getElem_extractLsb', statusWord_getLsbD_add_four, BitVec.getLsbD_eq_getElem hi]
  have hhigh : (statusWord st).extractLsb' 8 24 = 0 := by
    ext i hi
    rw [BitVec.getElem_extractLsb', show 8 + i = 4 + (4 + i) by omega, statusWord_getLsbD_add_four,
      BitVec.getLsbD_of_ge _ _ (by omega)]
    exact (BitVec.getElem_zero hi).symm
  refine ⟨h0, h1, h2, h3, ?_, hhigh⟩
  rw [hcode]
  cases st.result <;> rfl
/-! ### What a command can do

One inversion for all twelve: a command commits its effect and ends with `OK`, or ends with an error that changes the
result only (60_exceptions.md R231), a failed `CONFIGURE` clearing both valid bits beside it (45_system.md R211). -/

/-- The effect of a command that ends with `OK`, before `STATUS.RESULT`, with what its gates have let through. The results of
`UNPACKW` and `CLASSIFY` are named by an equation, so that facts about the other registers do not compute them. -/
inductive Commits (p : Params) (s : State) : Instr → State → Prop
  | nop : Commits p s .nop s
  | configure {c : Cfg} (hp : proposedCfg p s.stage = some c) :
      Commits p s .configure (setDictValid true (setCfgValid true ((s.setCfg c).setDict (fresh c))))
  | dinit (hc : s.status.cfgValid = true) : Commits p s .dinit (setDictValid true (s.setDict (fresh s.cfg)))
  | dlookup (hc : s.status.cfgValid = true) (hd : s.status.dictValid = true) :
      Commits p s .dlookup ((s.setRes1 (BitVec.ofNat 32 (lookup p s.cfg s.dict (argWord s)).1)).setRes0
        (lookup p s.cfg s.dict (argWord s)).2)
  | dpromote (hc : s.status.cfgValid = true) (hd : s.status.dictValid = true) (he : s.arg1.toNat < cap s.cfg) :
      Commits p s .dpromote (s.setDict (promote s.cfg s.dict (argEntry s)))
  | dsetval (hc : s.status.cfgValid = true) (hd : s.status.dictValid = true) (he : s.arg1.toNat < cap s.cfg) :
      Commits p s .dsetval (s.setDict (setValue s.dict (argEntry s) (argWord s)))
  | packw {k : Nat} (hc : s.status.cfgValid = true) (hk : legalK k = true) :
      Commits p s (.packw k) (s.setRes0 (packWord k (laneGroup s k)))
  | unpackw {k : Nat} {lanes : Vector (BitVec 16) 64} (hc : s.status.cfgValid = true) (hk : legalK k = true)
      (hlanes : lanes = lanesUnpacked s k) : Commits p s (.unpackw k) (s.setLanes lanes)
  | classify {r : Emitted × Dict} (hc : s.status.cfgValid = true) (hd : s.status.dictValid = true)
      (hr : r = classify p s.cfg s.dict (argWord s)) :
      Commits p s .classify ((((s.setDict r.2).setResTag (tagWord (emittedTag r.1))).setRes1
        (BitVec.ofNat 32 (candidate p s.cfg s.dict (argWord s)))).setRes0
          (classifyRes0 s.cfg (argWord s) (emittedTag r.1)))
  | recon {t : Tag} (hc : s.status.cfgValid = true) (hd : s.status.dictValid = true)
      (he : t = .EXACT ∨ t = .PARTIAL → s.arg1.toNat < cap s.cfg) : Commits p s (.recon t) (reconned p t s)
  | compress {tags : List Tag} {b : List Word} (hc : s.status.cfgValid = true)
      (hlen : s.cbufLen.toNat ≤ p.maxCbufWords) (hfit : worstCase s.cfg s.cfg.N ≤ s.cbufLen.toNat)
      (htags : definedSlots (modelPage p s.cfg (pageWordsOf s)).run.tags = some tags)
      (hb : encodeBuffer s.cfg s.cfg.N tags (modelPage p s.cfg (pageWordsOf s)).run.idx
        (modelPage p s.cfg (pageWordsOf s)).run.low (modelPage p s.cfg (pageWordsOf s)).run.full = some b) :
      Commits p s .compress (commitCompress s b)
  | decompress {x : Parsed} {r : ReplayRun} {out : List Word} (hc : s.status.cfgValid = true)
      (hlen : s.cbufLen.toNat ≤ p.maxCbufWords)
      (hx : parse p s.cfg (cbufWordsOf s) s.cbufLen.toNat = .ok x) (hr : replay p s.cfg x = some r)
      (hout : definedSlots r.out = some out) : Commits p s .decompress (commitDecompress s x.n out)

/-- The three ways a command ends in a next state. -/
inductive Ends (p : Params) (s : State) : Instr → State → Prop
  | commit {i : Instr} {u : State} (h : Commits p s i u) : Ends p s i (endWith .ok u)
  | error {i : Instr} {k : ResultCode} (hi : i ≠ .configure) (hk : k ≠ .ok) : Ends p s i (endWith k s)
  | noInstance : Ends p s .configure (endWith .invalidConfiguration (setDictValid false (setCfgValid false s)))

/-- A command that answers a next state ends in one of the three ways. -/
theorem execOn_ends {p : Params} {i : Instr} {s t : State} (h : execOn p i s = .next t) : Ends p s i t := by
  have hbad : ∀ i, i ≠ .configure → Ends p s i (endWith .badCommand s) := fun _ hi => .error hi (by decide)
  cases i with
  | nop => rw [finishOk_next h]; exact .commit .nop
  | configure =>
    obtain ⟨c, hp, rfl⟩ | ⟨-, rfl⟩ := configureOn_next h
    · exact .commit (.configure hp)
    · exact .noInstance
  | dinit =>
    obtain ⟨hc, rfl⟩ | ⟨-, rfl⟩ := execDinit_next h
    · exact .commit (.dinit hc)
    · exact hbad _ (by decide)
  | dlookup =>
    obtain ⟨hc, hd, rfl⟩ | ⟨-, rfl⟩ := dlookupOn_next h
    · exact .commit (.dlookup hc hd)
    · exact hbad _ (by decide)
  | dpromote =>
    obtain ⟨hc, hd, he, rfl⟩ | ⟨-, rfl⟩ := execDpromote_next h
    · exact .commit (.dpromote hc hd he)
    · exact hbad _ (by decide)
  | dsetval =>
    obtain ⟨hc, hd, he, rfl⟩ | ⟨-, rfl⟩ := execDsetval_next h
    · exact .commit (.dsetval hc hd he)
    · exact hbad _ (by decide)
  | packw k =>
    obtain ⟨hc, hk, rfl⟩ | ⟨-, rfl⟩ := execPackw_next h
    · exact .commit (.packw hc hk)
    · exact hbad _ (by simp)
  | unpackw k =>
    obtain ⟨hc, hk, rfl⟩ | ⟨-, rfl⟩ := execUnpackw_next h
    · exact .commit (.unpackw hc hk rfl)
    · exact hbad _ (by simp)
  | classify =>
    obtain ⟨hc, hd, rfl⟩ | ⟨-, rfl⟩ := classifyOn_next h
    · exact .commit (.classify hc hd rfl)
    · exact hbad _ (by decide)
  | recon tag =>
    obtain ⟨hc, hd, he, rfl⟩ | ⟨-, rfl⟩ := reconOn_next h
    · exact .commit (.recon hc hd he)
    · exact hbad _ (by simp)
  | compress =>
    obtain ⟨-, rfl⟩ | ⟨hc, hlen, ⟨-, rfl⟩ | ⟨hfit, tags, b, htags, hb, rfl⟩⟩ := compressOn_next h
    · exact hbad _ (by decide)
    · exact .error (by decide) (by decide)
    · exact .commit (.compress hc hlen hfit htags hb)
  | decompress =>
    obtain ⟨-, rfl⟩ | ⟨hc, hlen, ⟨code, hx, rfl⟩ | ⟨x, r, out, hx, hr, hout, rfl⟩⟩ := decompressOn_next h
    · exact hbad _ (by decide)
    · exact .error (by decide) (by rcases parse_error hx with rfl | rfl <;> decide)
    · exact .commit (.decompress hc hlen hx hr hout)

theorem exec_ends {i : Instr} {s t : State} (h : exec i s = .next t) : Ends build s i t :=
  execOn_ends ((execOn_build i s).trans h)

/-! ### `DICT_VALID` (10_state.md R33) -/

/-- The value of `DICT_VALID` after a command has committed its effect. -/
def dictValidAfter (i : Instr) (before : Bool) : Bool :=
  match i with
  | .configure | .dinit => true
  | .compress | .decompress => false
  | _ => before

theorem Commits.dictValid {p : Params} {s u : State} {i : Instr} (h : Commits p s i u) :
    u.status.dictValid = dictValidAfter i s.status.dictValid := by
  cases h <;> rfl

theorem needDict_fail {s : State} (h : s.status.dictValid = false) (k : Result) :
    needDict s k = .next (endWith .badCommand s) := by
  simp [needDict, needCfg, raiseError, h]

/-- The commands that use the dictionary test `DICT_VALID` before anything else they do (60_exceptions.md R229). -/
theorem exec_of_dictValid_false {i : Instr} {s : State} (hd : s.status.dictValid = false) (hi : usesDict i = true) :
    exec i s = .next (endWith .badCommand s) := by
  cases i with
  | dlookup | dpromote | dsetval | classify | recon => exact needDict_fail hd _
  | _ => cases hi

/-- Settles O24: a commit sets, clears or keeps `DICT_VALID` by its command, an error keeps it, a failed `CONFIGURE` clears
it. -/
theorem dictValidFollowsItsLifecycle : Obligations.DictValidFollowsItsLifecycle := by
  refine ⟨fun i s t h => ?_, fun i s => exec_of_dictValid_false, rfl⟩
  cases exec_ends h with
  | commit hu =>
    simp only [endWith_result, endWith_dictValid, hu.dictValid]
    cases i <;> simp [dictValidAfter]
  | error hi hk => simp [hi, hk]
  | noInstance => simp

/-! ### The columns a command writes (10_state.md R42) -/

theorem Unchanged.refl (s : State) (col : Column) : Unchanged s s col := by
  cases col with
  | PAGE | CBUF => exact fun _ => rfl
  | _ => rfl

/-- `BUSY` and the result code are no columns. -/
theorem Unchanged.endWith {s u : State} {col : Column} (h : Unchanged s u col) (k : ResultCode) :
    Unchanged s (endWith k u) col := by
  cases col with
  | PAGE | CBUF => exact fun i => h i
  | _ => exact h

/-- The access table column by column: the commands that write the column, every other one keeping it. -/
theorem Commits.unchanged {p : Params} {s u : State} {i : Instr} {col : Column} (h : Commits p s i u)
    (hcol : col ∉ writes i) : Unchanged s u col := by
  cases col with
  | ARG0 | ARG1 | CBUF_LEN | CFG_REGS => cases h <;> rfl
  | RES0 =>
    cases h with
    | dlookup | packw | classify | recon => simp [writes] at hcol
    | _ => rfl
  | RES1 =>
    cases h with
    | dlookup | classify | recon | compress | decompress => simp [writes] at hcol
    | _ => rfl
  | RES_TAG =>
    cases h with
    | classify => simp [writes] at hcol
    | _ => rfl
  | LANE =>
    cases h with
    | unpackw => simp [writes] at hcol
    | _ => rfl
  | VAL =>
    cases h with
    | configure | dinit | dsetval | classify | recon | compress | decompress => simp [writes] at hcol
    | _ => rfl
  | REC =>
    cases h with
    | configure | dinit | dpromote | classify | recon | compress | decompress => simp [writes] at hcol
    | _ => rfl
  | PAGE =>
    cases h with
    | decompress => simp [writes] at hcol
    | _ => exact fun _ => rfl
  | CBUF =>
    cases h with
    | compress => simp [writes] at hcol
    | _ => exact fun _ => rfl
  | CFG_VALID | CFG =>
    cases h with
    | configure => simp [writes] at hcol
    | _ => rfl
  | DICT_VALID =>
    cases h with
    | configure | dinit | compress | decompress => simp [writes] at hcol
    | _ => rfl

/-- No command reaches the host beside the block or the cells' power-on contents, or leaves a command running. -/
theorem Commits.frame {p : Params} {s u : State} {i : Instr} (h : Commits p s i u) :
    Frame (writes i) s (endWith .ok u) := by
  refine ⟨fun col hcol => (h.unchanged hcol).endWith .ok, ?_, rfl, ?_, ?_, ?_⟩
  · cases h <;> rfl
  · cases h with
    | compress | decompress => exact .inr rfl
    | _ => exact .inl rfl
  · cases h <;> rfl
  · cases h <;> rfl

/-- An error writes no column at all (60_exceptions.md R231). -/
theorem frame_endWith (cols : List Column) (k : ResultCode) (s : State) : Frame cols s (endWith k s) :=
  ⟨fun col _ => (Unchanged.refl s col).endWith k, rfl, rfl, .inl rfl, rfl, rfl⟩

/-- A failed `CONFIGURE` writes the two valid bits, columns of its row. -/
theorem frame_noInstance (s : State) :
    Frame (writes .configure) s (endWith .invalidConfiguration (setDictValid false (setCfgValid false s))) := by
  refine ⟨fun col hcol => ?_, rfl, rfl, .inl rfl, rfl, rfl⟩
  cases col with
  | CFG_VALID | DICT_VALID => simp [writes] at hcol
  | PAGE | CBUF => exact fun _ => rfl
  | _ => rfl

/-- Settles O23: each way a command ends stays within its row of the access table. -/
theorem commandsWriteOnlyTheirColumns : Obligations.CommandsWriteOnlyTheirColumns := by
  intro i s t h
  cases exec_ends h with
  | commit hu => exact hu.frame
  | error => exact frame_endWith _ _ s
  | noInstance => exact frame_noInstance s

/-! ### The invariant -/

/-- Settles O17: right after reset nothing is valid and both buffers are unwritten. -/
theorem resetMeetsTheInvariant : Obligations.ResetMeetsTheInvariant := reset_inv

theorem MemOk.memSet {n i : Nat} {m : Mem} (h : MemOk n m) (hi : i < n) (v : Word) : MemOk n (memSet m i v) where
  wf := memSet_wf i v h.wf
  bound x hx := (memSet_keys hx).elim (fun hx => hx ▸ hi) (h.bound x)

/-- A block store that fits the capacity keeps a buffer in form. -/
theorem MemOk.memSetFrom {n : Nat} {m : Mem} (h : MemOk n m) (vs : List Word) (hlen : vs.length ≤ n) :
    MemOk n (memSetFrom m 0 vs) where
  wf := memSetFrom_wf vs 0 h.wf
  bound x hx := (memSetFrom_keys hx).elim (fun hx => by omega) (h.bound x)

theorem tagWord_lt (t : Tag) : (tagWord t).toNat < 4 := by cases t <;> decide

/-! #### It is kept by every host move but a command -/

theorem Inv.setHost {p : Params} {s : State} (h : Inv p s) (v : HostSide) : Inv p (s.setHost v) := { h with }

/-- A write to `PAGE` or `CBUF` keeps the buffer in form, its index being below the capacity; no other register of the map
is part of the invariant. -/
theorem Inv.regWrite {p : Params} {s : State} (h : Inv p s) (v : Nat) {r : Reg} (hr : RegExists p r) :
    Inv p (regWrite s v r) := by
  cases r with
  | PAGE i => exact { h with page := h.page.memSet hr _ }
  | CBUF i => exact { h with cbuf := h.cbuf.memSet hr _ }
  | _ => exact { h with }

theorem Inv.hostWriteOn {p : Params} {s : State} (h : Inv p s) (a v : Nat) : Inv p (hostWriteOn p s a v) := by
  cases hr : regAt p a with
  | none => rwa [hostWriteOn_of_none hr]
  | some r =>
    rw [hostWriteOn_of_regAt hr]
    exact h.regWrite v (regExists_of_regAt hr)

theorem applyReset_inv (p : Params) (s : State) : Inv p (applyReset s) := ((reset_inv p).setHost _).setFree _

/-! #### It is kept by every command -/

theorem Inv.endWith {p : Params} {s : State} (h : Inv p s) (k : ResultCode) : Inv p (endWith k s) :=
  { h with notBusy := rfl }

/-- With both valid bits 0 the invariant asks nothing of the configuration and the dictionary. -/
theorem Inv.noInstance {p : Params} {s : State} (h : Inv p s) : Inv p (setDictValid false (setCfgValid false s)) :=
  { h with cfgOk := nofun, dictNeedsCfg := nofun, dictOk := nofun }

theorem Inv.setDict {p : Params} {s : State} (h : Inv p s) {d : Dict} (hd : DictOk s.cfg d) : Inv p (s.setDict d) :=
  { h with dictOk := fun _ => hd }

/-- The commit of `COMPRESS`: the buffer stored fits `CBUF`, and the dictionary discarded is not usable. -/
theorem Inv.commitCompress {p : Params} {s : State} (h : Inv p s) {b : List Word} (hb : b.length ≤ p.maxCbufWords) :
    Inv p (commitCompress s b) :=
  { h with
    noRun := rfl
    dictNeedsCfg := nofun
    dictOk := nofun
    cbuf := h.cbuf.memSetFrom _ (by rwa [List.length_map]) }

/-- The commit of `DECOMPRESS`: the page stored fits `PAGE`, and the dictionary discarded is not usable. -/
theorem Inv.commitDecompress {p : Params} {s : State} (h : Inv p s) (n : Nat) {out : List Word}
    (hout : out.length ≤ p.maxPageWords) : Inv p (commitDecompress s n out) :=
  { h with
    noRun := rfl
    dictNeedsCfg := nofun
    dictOk := nofun
    page := h.page.memSetFrom _ (by rwa [List.length_map]) }

/-- A buffer that `COMPRESS` commits is within the worst case (43_layout_encoder.md R174). -/
theorem encodeBuffer_length_le {p : Params} {s : State} {tags : List Tag} {b : List Word} (hp : p.Legal)
    (hc : CfgOk p s.cfg) (htags : definedSlots (modelPage p s.cfg (pageWordsOf s)).run.tags = some tags)
    (hb : encodeBuffer s.cfg s.cfg.N tags (modelPage p s.cfg (pageWordsOf s)).run.idx
      (modelPage p s.cfg (pageWordsOf s)).run.low (modelPage p s.cfg (pageWordsOf s)).run.full = some b) :
    b.length ≤ worstCase s.cfg s.cfg.N := by
  obtain ⟨tags', b', -, -, htags', hb', -, hle, -⟩ := compressOn_encodes hp hc
  cases htags.symm.trans htags'
  cases hb.symm.trans hb'
  exact hle

/-- A page that `DECOMPRESS` commits has the length the buffer's header gives, which `parse` has tested. -/
theorem replay_out_length_le {p : Params} {c : Cfg} {b : List Word} {x : Parsed} {r : ReplayRun} {out : List Word}
    (hp : p.Legal) (hc : CfgOk p c) (hx : parse p c b b.length = .ok x) (hr : replay p c x = some r)
    (hout : definedSlots r.out = some out) : out.length ≤ p.maxPageWords := by
  obtain ⟨htags, hfull, hidx, hlow, hrange, -, hn⟩ := parse_streams hc.facts hx
  obtain ⟨r', out', hr', hout', -, hlen, -⟩ := replay_spec hp.hashInRange hc.facts htags hidx hlow hfull hrange
  cases hr.symm.trans hr'
  cases hout.symm.trans hout'
  omega

/-- Every effect keeps the invariant: the dictionary commands by the rules of 41_dictionary.md R32, `COMPRESS` and
`DECOMPRESS` because what they store fits its buffer. -/
theorem Inv.of_commits {p : Params} {s u : State} {i : Instr} (hp : p.Legal) (h : Inv p s) (hu : Commits p s i u) :
    Inv p u := by
  cases hu with
  | nop => exact h
  | configure hcfg =>
    exact { h with
      cfgOk := fun _ => proposedCfg_cfgOk hcfg
      dictNeedsCfg := fun _ => rfl
      dictOk := fun _ => fresh_dictOk _ }
  | dinit hc => exact { h with dictNeedsCfg := fun _ => hc, dictOk := fun _ => fresh_dictOk _ }
  | dlookup => exact { h with }
  | dpromote _ hd he => exact h.setDict (promote_dictOk (h.dictOk hd) he)
  | dsetval _ hd _ => exact h.setDict (setValue_dictOk (h.dictOk hd) _ (argWord_wordOk s))
  | packw => exact { h with }
  | unpackw => exact { h with }
  | @classify r hc hd hr =>
    have hf := (h.cfgOk hc).facts
    have hset := setOf_lt hp.hashInRange hf.numSets_pos (argWord s)
    have hdict : DictOk s.cfg r.2 := hr ▸ classify_dictOk (h.dictOk hd) (argWord_wordOk s) hset hf.setSize_pos
    exact { h with dictOk := fun _ => hdict, resTag := tagWord_lt _ }
  | recon hc hd he =>
    exact { h with
      dictOk := fun _ => (recon_ok (h.dictOk hd) hp.hashInRange (h.cfgOk hc).facts _ s.arg0 he).2 }
  | compress hc hlen hfit htags hb =>
    exact h.commitCompress (((encodeBuffer_length_le hp (h.cfgOk hc) htags hb).trans hfit).trans hlen)
  | decompress hc _ hx hr hout =>
    rw [← cbufWordsOf_length] at hx
    exact h.commitDecompress _ (replay_out_length_le hp (h.cfgOk hc) hx hr hout)

theorem Inv.of_execOn {p : Params} {s t : State} {i : Instr} (hp : p.Legal) (h : Inv p s)
    (ht : execOn p i s = .next t) : Inv p t := by
  cases execOn_ends ht with
  | commit hu => exact (h.of_commits hp hu).endWith .ok
  | error => exact h.endWith _
  | noInstance => exact h.noInstance.endWith _

/-! #### It is kept by every step -/

theorem Inv.of_stepOn {p : Params} {s t : State} (hp : p.Legal) (h : Inv p s) (ht : stepOn p s = .next t) : Inv p t := by
  have hdrop : Inv p (dropAction s) := h.setHost _
  rcases hostStepWith_cases p (execOn p) s with
    ⟨-, hs⟩ | ⟨-, hs⟩ | ⟨-, ⟨c, i, -, hs⟩ | hs | ⟨a, v, hs⟩ | ⟨a, hs⟩ | hs⟩ <;> have ht := hs.symm.trans ht
  · cases ht; exact h
  · cases ht
  · exact hdrop.of_execOn hp ht
  · cases ht; exact hdrop.endWith _
  · cases ht; exact hdrop.hostWriteOn a v
  · cases ht; exact hdrop.setHost _
  · cases ht; exact applyReset_inv p _

/-- Settles O18: by the move the step makes; the default build is a legal one. -/
theorem everyStepKeepsTheInvariant : Obligations.EveryStepKeepsTheInvariant :=
  ⟨fun s _ h ht => h.of_stepOn build_legal ((stepOn_build s).trans ht), fun _ _ _ hp h ht => h.of_stepOn hp ht⟩

end Sys2Proof.Machine
end

section
/-!
PROOFS of the family 20_memory.md: the engines share nothing (O25), the byte view of the words (O60), and a host
read (O10).
-/

namespace Sys2Proof.Machine

/-! ### Several engines (20_memory.md R62) -/

theorem stepEngine_of_next {p : Params} {es : Engines} {k : Nat} {hk : k < es.length} {s : State}
    (h : stepOn p es[k] = .next s) : stepEngine p es k hk = .next (es.set k s) := by
  simp only [stepEngine, h]

/-- Settles O25: a step of an engine replaces its own state, and replacements at two positions commute. -/
theorem enginesDoNotInteract : Obligations.EnginesDoNotInteract := by
  intro p es i j hi hj hij a b ha hb
  have hx : j < (es.set i a).length := by rwa [List.length_set]
  have hy : i < (es.set j b).length := by rwa [List.length_set]
  have hbx : stepOn p (es.set i a)[j] = .next b := by rwa [List.getElem_set_ne hij]
  have hay : stepOn p (es.set j b)[i] = .next a := by rwa [List.getElem_set_ne hij.symm]
  refine ⟨es.set i a, es.set j b, (es.set i a).set j b, hx, hy, stepEngine_of_next ha, List.getElem?_set_self hi,
    fun k hk => List.getElem?_set_ne hk.symm, stepEngine_of_next hb, stepEngine_of_next hbx, ?_⟩
  rw [List.set_comm a b hij]
  exact stepEngine_of_next hay

/-! ### The byte view (20_memory.md R52, R53) -/

/-- The bytes of one word, least significant first. -/
def bytesOf (c : Cfg) (w : Word) : List (BitVec 8) := (List.range (wordBytes c)).map (byteOf w)

@[simp] theorem bytesOf_length (c : Cfg) (w : Word) : (bytesOf c w).length = wordBytes c := by simp [bytesOf]

@[simp] theorem serialize_cons (c : Cfg) (w : Word) (ws : List Word) :
    serialize c (w :: ws) = bytesOf c w ++ serialize c ws := rfl

theorem serialize_length (c : Cfg) (ws : List Word) : (serialize c ws).length = ws.length * wordBytes c := by
  induction ws with
  | nil => exact (Nat.zero_mul _).symm
  | cons w ws ih =>
    rw [serialize_cons, List.length_append, bytesOf_length, ih, List.length_cons, Nat.succ_mul, Nat.add_comm]

theorem wordBytes_pos (c : Cfg) : 0 < wordBytes c := by cases h : c.W <;> simp [wordBytes, Width.bits, h]

/-- A width is a whole number of bytes. -/
theorem eight_mul_wordBytes (c : Cfg) : 8 * wordBytes c = c.W.bits := by
  cases h : c.W <;> simp [wordBytes, Width.bits, h]

/-- The bytes of word `i` are those from `i * WB` to `i * WB + WB - 1`. -/
theorem take_drop_serialize (c : Cfg) {ws : List Word} {i : Nat} (hi : i < ws.length) :
    ((serialize c ws).drop (i * wordBytes c)).take (wordBytes c) = bytesOf c ws[i] := by
  induction ws generalizing i with
  | nil => cases hi
  | cons w ws ih =>
    cases i with
    | zero => simp
    | succ i =>
      have hskip : (i + 1) * wordBytes c = (bytesOf c w).length + i * wordBytes c := by
        rw [bytesOf_length, Nat.succ_mul, Nat.add_comm]
      rw [serialize_cons, hskip, List.drop_length_add_append]
      exact ih (Nat.lt_of_succ_lt_succ hi)

theorem byteOf_eq_extractLsb' (w : Word) (b : Nat) : byteOf w b = w.extractLsb' (8 * b) 8 := by
  rw [byteOf, BitVec.extractLsb', Nat.shiftRight_eq_div_pow]

/-- Byte `b` of word `i`; an index past the last word is past the last byte. -/
theorem serialize_getElem? (c : Cfg) (ws : List Word) (i : Nat) {b : Nat} (hb : b < wordBytes c) :
    (serialize c ws)[i * wordBytes c + b]? = ws[i]?.map fun w => w.extractLsb' (8 * b) 8 := by
  by_cases hi : i < ws.length
  · calc (serialize c ws)[i * wordBytes c + b]?
        = (((serialize c ws).drop (i * wordBytes c)).take (wordBytes c))[b]? := by
          rw [List.getElem?_take_of_lt hb, List.getElem?_drop]
      _ = (bytesOf c ws[i])[b]? := by rw [take_drop_serialize c hi]
      _ = ws[i]?.map fun w => w.extractLsb' (8 * b) 8 := by simp [bytesOf, hb, hi, byteOf_eq_extractLsb']
  · have hlen : (serialize c ws).length ≤ i * wordBytes c + b := by
      rw [serialize_length]
      exact Nat.le_add_right_of_le (Nat.mul_le_mul_right _ (Nat.le_of_not_lt hi))
    rw [List.getElem?_eq_none hlen, List.getElem?_eq_none (Nat.le_of_not_lt hi), Option.map_none]

theorem byteOf_succ (w : Word) (b : Nat) : byteOf w (b + 1) = byteOf (w >>> 8) b := by
  rw [byteOf, byteOf, BitVec.toNat_ushiftRight, Nat.shiftRight_eq_div_pow, Nat.div_div_eq_div_mul, ← Nat.pow_add,
    Nat.mul_succ, Nat.add_comm]

/-- The low bytes of a word have the value of its low bits. -/
theorem bytesValue_low_bytes (w : Word) (n : Nat) :
    bytesValue ((List.range n).map (byteOf w)) = w.toNat % 2 ^ (8 * n) := by
  induction n generalizing w with
  | zero => simp [bytesValue, Nat.mod_one]
  | succ n ih =>
    have htail : (byteOf w ∘ Nat.succ) = byteOf (w >>> 8) := funext (byteOf_succ w)
    have hpow : 2 ^ (8 * (n + 1)) = 256 * 2 ^ (8 * n) := by rw [Nat.mul_succ, Nat.pow_add, Nat.mul_comm]
    have hhead : (byteOf w 0).toNat = w.toNat % 256 := by simp [byteOf]
    rw [List.range_succ_eq_map, List.map_cons, List.map_map, htail, bytesValue, ih, hhead, BitVec.toNat_ushiftRight,
      Nat.shiftRight_eq_div_pow, hpow, Nat.mod_mul]

theorem ofNat_bytesValue_bytesOf {c : Cfg} {w : Word} (hw : WordOk c w) :
    BitVec.ofNat 64 (bytesValue (bytesOf c w)) = w := by
  rw [bytesOf, bytesValue_low_bytes, eight_mul_wordBytes, Nat.mod_eq_of_lt hw, BitVec.ofNat_toNat, BitVec.setWidth_eq]

theorem deserialize_serialize {c : Cfg} {ws : List Word} (h : ∀ w ∈ ws, WordOk c w) :
    deserialize c (serialize c ws) = .ok ws := by
  have hwhole : ¬ (serialize c ws).length % wordBytes c ≠ 0 := by simp [serialize_length]
  have hcount : (serialize c ws).length / wordBytes c = ws.length := by
    rw [serialize_length, Nat.mul_div_cancel _ (wordBytes_pos c)]
  rw [deserialize, if_neg hwhole, hcount]
  congr 1
  refine List.ext_getElem (by simp) fun i _ hi => ?_
  rw [List.getElem_map, List.getElem_range, take_drop_serialize c hi,
    ofNat_bytesValue_bytesOf (h _ (List.getElem_mem hi))]

/-- Settles O60: the bytes from `i * WB` on are word `i`'s, and the value of a word's `WB` bytes is the word. -/
theorem serializedWordsComeBack : Obligations.SerializedWordsComeBack := by
  intro c ws h
  exact ⟨serialize_length c ws, fun i _ => serialize_getElem? c ws i, deserialize_serialize h, fun _ hbs => if_pos hbs⟩

/-! ### A host read (20_memory.md R55) -/

/-- Settles O10: a read on any build is one clause of `buildsShareOneMachine`, and `step` is `stepOn build`. -/
theorem hostReadChangesNothing : Obligations.HostReadChangesNothing := by
  intro p s a rest hs hq
  obtain ⟨-, -, -, hread, -⟩ := buildsShareOneMachine.1 p s rest hs
  refine ⟨hread a hq, ?_⟩
  rintro rfl
  rw [← stepOn_build]
  exact hread a hq

end Sys2Proof.Machine
end

section
/-!
PROOFS of the family 30_encoding.md: the command word and its decoder (O1, O2, O3, O4), the layout of an encoded buffer
(O46), and the statements of a host program (O5).
-/

namespace Sys2Proof.Machine

/-! ### The decoder, by fields -/

/-- The fields of a command word pass the tests of 30_encoding.md R72 that depend on the operation. -/
def FieldsOk (o : Opc) (k tag : Nat) : Prop := checkK o k = none ∧ checkTag o tag = none

theorem checkK_eq_none_iff (o : Opc) (k : Nat) :
    checkK o k = none ↔ if o = .packw ∨ o = .unpackw then legalK k = true else k = 0 := by
  unfold checkK
  split_ifs <;> simp_all

theorem checkTag_eq_none_iff (o : Opc) (tag : Nat) : checkTag o tag = none ↔ o = .recon ∨ tag = 0 := by
  unfold checkTag
  split_ifs <;> tauto

/-- A word decodes exactly when its reserved bits are 0, its `OPC` is listed and its two fields pass
(30_encoding.md R72). -/
theorem decode_eq_ok_iff (c : BitVec 32) (i : Instr) :
    decode c = .ok i ↔ cmdField c 18 14 = 0 ∧ cmdField c 13 3 = 0 ∧ ∃ o, opcOf (cmdField c 0 8) = some o ∧
      FieldsOk o (cmdField c 8 5) (cmdField c 16 2) ∧ instrOf o (cmdField c 8 5) (cmdField c 16 2) = i := by
  unfold decode
  split
  next hres => simp only [reduceCtorEq, false_iff]; tauto
  next hres =>
    rw [not_or, not_not, not_not] at hres
    cases ho : opcOf (cmdField c 0 8) with
    | none => simp
    | some o =>
      cases hk : checkK o (cmdField c 8 5) with
      | some e => simp [FieldsOk, hk]
      | none =>
        cases ht : checkTag o (cmdField c 16 2) with
        | some e => simp [FieldsOk, hk, ht]
        | none => simp [FieldsOk, hres, hk, ht]

/-- A word is refused exactly when a reserved bit is set, its `OPC` is not listed, or a field does not pass. -/
theorem exists_decode_error_iff (c : BitVec 32) : (∃ e, decode c = .error e) ↔
    opcOf (cmdField c 0 8) = none ∨ cmdField c 13 3 ≠ 0 ∨ cmdField c 18 14 ≠ 0 ∨
      ∃ o, opcOf (cmdField c 0 8) = some o ∧ ¬ FieldsOk o (cmdField c 8 5) (cmdField c 16 2) := by
  have hnone : (∃ e, decode c = .error e) ↔ ∀ i, decode c ≠ .ok i := by cases decode c <;> simp
  simp only [hnone, ne_eq, decode_eq_ok_iff]
  cases opcOf (cmdField c 0 8) with
  | none => simp
  | some o => simp; tauto

/-! ### The fields of a word in the format -/

/-- The fields of `CMD32` lie where 30_encoding.md R70 puts them. -/
@[simp] theorem cmdField_cmd32 (o : Opc) (k : BitVec 5) (t : BitVec 2) :
    cmdField (cmd32 o k t) 18 14 = 0 ∧ cmdField (cmd32 o k t) 13 3 = 0 ∧
      cmdField (cmd32 o k t) 0 8 = (opcCode o).toNat ∧ cmdField (cmd32 o k t) 8 5 = k.toNat ∧
      cmdField (cmd32 o k t) 16 2 = t.toNat := by
  have hk := k.isLt
  have ht := t.isLt
  have ho := (opcCode o).isLt
  simp only [cmdField, cmd32_toNat]
  omega

/-- A word whose reserved bits are 0 is in the format, with the fields it has (30_encoding.md R70). -/
theorem eq_cmd32_of_fields {c : BitVec 32} {o : Opc} (hhigh : cmdField c 18 14 = 0) (hmid : cmdField c 13 3 = 0)
    (ho : opcOf (cmdField c 0 8) = some o) : ∃ k t, c = cmd32 o k t := by
  refine ⟨BitVec.ofNat 5 (cmdField c 8 5), BitVec.ofNat 2 (cmdField c 16 2), BitVec.eq_of_toNat_eq ?_⟩
  have hc := c.isLt
  rw [cmd32_toNat, opcOf_some ho, BitVec.toNat_ofNat, BitVec.toNat_ofNat]
  simp only [cmdField] at *
  omega

/-! ### Commands and their fields -/

/-- Outside the packer both fields may be 0. -/
theorem fieldsOk_zero {o : Opc} (h1 : o ≠ .packw) (h2 : o ≠ .unpackw) :
    FieldsOk o (0 : BitVec 5).toNat (0 : BitVec 2).toNat := by
  rw [FieldsOk, checkK_eq_none_iff, checkTag_eq_none_iff, if_neg (not_or.2 ⟨h1, h2⟩)]
  exact ⟨rfl, .inr rfl⟩

/-- A legal `K` fits its field. -/
theorem toNat_ofNat_of_legalK {k : Nat} (hk : legalK k = true) : (BitVec.ofNat 5 k).toNat = k := by
  have := (legalK_iff k).1 hk
  rw [BitVec.toNat_ofNat, Nat.mod_eq_of_lt (by omega)]

/-- Every well-formed command is an operation with fields that pass (30_encoding.md R71, R72). -/
theorem exists_fieldsOk_of_wellFormed {i : Instr} (h : i.WellFormed) :
    ∃ (o : Opc) (k : BitVec 5) (t : BitVec 2), FieldsOk o k.toNat t.toNat ∧ instrOf o k.toNat t.toNat = i := by
  cases i with
  | nop => exact ⟨.nop, 0, 0, fieldsOk_zero nofun nofun, rfl⟩
  | configure => exact ⟨.configure, 0, 0, fieldsOk_zero nofun nofun, rfl⟩
  | dinit => exact ⟨.dinit, 0, 0, fieldsOk_zero nofun nofun, rfl⟩
  | dlookup => exact ⟨.dlookup, 0, 0, fieldsOk_zero nofun nofun, rfl⟩
  | dpromote => exact ⟨.dpromote, 0, 0, fieldsOk_zero nofun nofun, rfl⟩
  | dsetval => exact ⟨.dsetval, 0, 0, fieldsOk_zero nofun nofun, rfl⟩
  | packw k =>
    refine ⟨.packw, BitVec.ofNat 5 k, 0, ?_⟩
    rw [toNat_ofNat_of_legalK h]
    exact ⟨⟨if_pos h, rfl⟩, rfl⟩
  | unpackw k =>
    refine ⟨.unpackw, BitVec.ofNat 5 k, 0, ?_⟩
    rw [toNat_ofNat_of_legalK h]
    exact ⟨⟨if_pos h, rfl⟩, rfl⟩
  | classify => exact ⟨.classify, 0, 0, fieldsOk_zero nofun nofun, rfl⟩
  | recon t => exact ⟨.recon, 0, BitVec.ofNat 2 (tagCode t), by cases t <;> exact ⟨rfl, rfl⟩, by cases t <;> rfl⟩
  | compress => exact ⟨.compress, 0, 0, fieldsOk_zero nofun nofun, rfl⟩
  | decompress => exact ⟨.decompress, 0, 0, fieldsOk_zero nofun nofun, rfl⟩

/-- An operation with fields that pass is a well-formed command, and the format with these fields is its word. -/
theorem wellFormed_and_encode_of_fieldsOk {o : Opc} {k : BitVec 5} {t : BitVec 2} (h : FieldsOk o k.toNat t.toNat) :
    (instrOf o k.toNat t.toNat).WellFormed ∧ encode (instrOf o k.toNat t.toNat) = cmd32 o k t := by
  obtain ⟨hk, ht⟩ := h
  rw [checkK_eq_none_iff] at hk
  rw [checkTag_eq_none_iff] at ht
  cases o with
  | packw | unpackw =>
    obtain rfl : t = 0 := BitVec.eq_of_toNat_eq (ht.resolve_left nofun)
    exact ⟨hk, by simp [instrOf, encode]⟩
  | recon =>
    obtain rfl : k = 0 := BitVec.eq_of_toNat_eq hk
    exact ⟨rfl, by simp [instrOf, encode, tagCode_tagOfCode, Nat.mod_eq_of_lt t.isLt]⟩
  | _ =>
    obtain rfl : k = 0 := BitVec.eq_of_toNat_eq hk
    obtain rfl : t = 0 := BitVec.eq_of_toNat_eq (ht.resolve_left nofun)
    exact ⟨rfl, rfl⟩

theorem decode_cmd32 {o : Opc} {k : BitVec 5} {t : BitVec 2} (h : FieldsOk o k.toNat t.toNat) :
    decode (cmd32 o k t) = .ok (instrOf o k.toNat t.toNat) := by
  simp [decode_eq_ok_iff, opcOf_opcCode, h]

/-- Settles O1: a well-formed command is an operation with fields that pass, and its word has those fields. -/
theorem encodedCommandDecodesToItself : Obligations.EncodedCommandDecodesToItself := by
  intro i hi
  obtain ⟨o, k, t, hf, rfl⟩ := exists_fieldsOk_of_wellFormed hi
  rw [(wellFormed_and_encode_of_fieldsOk hf).2, decode_cmd32 hf]

/-- Settles O2: with its reserved bits 0 the word is the format of its own fields, which have passed. -/
theorem decodedWordIsItsEncoding : Obligations.DecodedWordIsItsEncoding := by
  intro c i h
  obtain ⟨hhigh, hmid, o, ho, hf, rfl⟩ := (decode_eq_ok_iff c i).1 h
  obtain ⟨k, t, rfl⟩ := eq_cmd32_of_fields hhigh hmid ho
  simp only [cmdField_cmd32] at hf ⊢
  exact wellFormed_and_encode_of_fieldsOk hf

/-! ### The illegal words -/

theorem cmdField_eq_extractLsb' (c : BitVec 32) (lo len : Nat) : cmdField c lo len = (c.extractLsb' lo len).toNat := by
  rw [BitVec.extractLsb'_toNat, Nat.shiftRight_eq_div_pow, cmdField]

theorem opcCode_mem_packer_iff (o : Opc) : (opcCode o).toNat ∈ [0x20, 0x21] ↔ o = .packw ∨ o = .unpackw := by
  cases o <;> decide

theorem opcCode_eq_recon_iff (o : Opc) : (opcCode o).toNat = 0x31 ↔ o = .recon := by
  cases o <;> decide

/-- Which fields are refused under a listed operation code (30_encoding.md R73). -/
theorem not_fieldsOk_iff (o : Opc) (k tag : Nat) : ¬ FieldsOk o k tag ↔
    ((opcCode o).toNat ∈ [0x20, 0x21] ∧ (k = 0 ∨ 17 ≤ k)) ∨ ((opcCode o).toNat ∉ [0x20, 0x21] ∧ k ≠ 0) ∨
      ((opcCode o).toNat ≠ 0x31 ∧ tag ≠ 0) := by
  have hrange : ¬ (1 ≤ k ∧ k ≤ 16) ↔ k = 0 ∨ 17 ≤ k := by omega
  rw [FieldsOk, checkK_eq_none_iff, checkTag_eq_none_iff, legalK_iff, opcCode_mem_packer_iff,
    ne_eq (opcCode o).toNat, opcCode_eq_recon_iff]
  split_ifs with hp <;> tauto

/-- An idle engine that ends a command changes `STATUS.RESULT` only (60_exceptions.md R231). -/
theorem endWith_of_isIdle {s : State} (hs : isIdle s = true) (code : ResultCode) :
    endWith code s = { s with status := { s.status with result := code } } := by
  rw [endWith, ← ((isIdle_iff s).1 hs).1]
  rfl

/-- Settles O3: under a listed `OPC` the fields that do not pass are those R73 lists, and a refused word is a
`BadCommand`. -/
theorem illegalWordsAreBadCommand : Obligations.IllegalWordsAreBadCommand := by
  intro c s hs opc k tag
  constructor
  · have hfield : ∀ lo len, c.extractLsb' lo len ≠ 0 ↔ cmdField c lo len ≠ 0 := fun lo len => by
      rw [cmdField_eq_extractLsb', ne_eq, ne_eq, ← BitVec.toNat_inj]; rfl
    simp only [opc, k, tag, ← cmdField_eq_extractLsb', hfield]
    rw [exists_decode_error_iff, ← opcOf_eq_none_iff]
    cases ho : opcOf (cmdField c 0 8) with
    | none => simp
    | some o => simp only [Option.some.injEq, exists_eq_left', not_fieldsOk_iff, opcOf_some ho]
  · rintro ⟨e, he⟩
    rw [← endWith_of_isIdle hs]
    exact runWordWith_of_decodeError exec he s

/-- Settles O4: each word listed is the encoding of its command. -/
theorem listedWordsDecode : Obligations.ListedWordsDecode := by
  have h := encodedCommandDecodesToItself
  exact ⟨h .nop rfl, h .configure rfl, h .dinit rfl, h .dlookup rfl, h .dpromote rfl, h .dsetval rfl,
    h (.packw 1) rfl, h (.packw 10) rfl, h (.packw 16) rfl, h (.unpackw 1) rfl, h (.unpackw 2) rfl,
    h (.unpackw 16) rfl, h .classify rfl, h (.recon .ZERO) rfl, h (.recon .EXACT) rfl, h (.recon .PARTIAL) rfl,
    h (.recon .MISS) rfl, h .compress rfl, h .decompress rfl⟩

/-! ### The encoded buffer -/

@[simp] theorem pad_getD (c : Cfg) (k : Nat) (v : List Nat) (i : Nat) : (pad c k v).getD i 0 = v.getD i 0 := by
  rw [pad]
  by_cases hi : i < v.length
  · exact List.getD_append _ _ _ _ hi
  · have hi := Nat.le_of_not_lt hi
    rw [List.getD_append_right _ _ _ _ hi, List.getD_eq_default _ _ hi]
    rcases Nat.lt_or_ge (i - v.length) ((reps c k - v.length % reps c k) % reps c k) with h | h
    · exact List.getD_replicate 0 h
    · exact List.getD_eq_default _ _ (by simpa using h)

/-- Word `x` of a packed area is the packed word of group `x` of its stream, zeros beyond the end
(40_bit_packer.md R103, R105). -/
theorem packedArea_word {c : Cfg} {k : Nat} {v : List Nat} {ws : List Word} (hr : 0 < reps c k)
    (h : packedArea c k v = some ws) {x : Nat} (hx : x < ceilDiv v.length (reps c k)) :
    ∃ g, ws[x]? = some (packWord k g) ∧ g.length ≤ reps c k ∧ (∀ y ∈ g, y < 2 ^ k) ∧
      ∀ j < reps c k, g.getD j 0 = v.getD (x * reps c k + j) 0 := by
  obtain ⟨hd, rfl⟩ := pack_eq_some h
  have hn : (pad c k v).length / reps c k = ceilDiv v.length (reps c k) := by
    rw [pad_length c k v hr, Nat.mul_div_cancel _ hr]
  refine ⟨((pad c k v).drop (x * reps c k)).take (reps c k), by simp [hn, hx], by simp, fun y hy => ?_, fun j hj => ?_⟩
  · exact ((packDomain_iff c k _).1 hd).2 y (List.mem_of_mem_drop (List.mem_of_mem_take hy))
  · rw [← pad_getD c k v, List.getD_eq_getElem?_getD, List.getD_eq_getElem?_getD, List.getElem?_take_of_lt hj,
      List.getElem?_drop]

theorem getElem?_of_slice {b ws : List Word} {lo m x : Nat} (h : slice b lo (lo + m) = ws) (hx : x < m) :
    b[lo + x]? = ws[x]? := by
  rw [← h, slice, Nat.add_sub_cancel_left, List.getElem?_take_of_lt hx, List.getElem?_drop]

/-- A packed area that lies in a buffer holds its stream there (30_encoding.md R77, R81). -/
theorem areaHolds_of_slice {c : Cfg} {k : Nat} {v : List Nat} {b ws : List Word} {start : Nat} (hr : 0 < reps c k)
    (h : packedArea c k v = some ws) (hs : slice b start (start + ws.length) = ws) : AreaHolds c b start k v := by
  intro x hx
  obtain ⟨g, hw, hlen, hfit, hlane⟩ := packedArea_word hr h hx
  have hxlen : x < ws.length := (List.getElem?_eq_some_iff.1 hw).1
  refine ⟨packWord k g, (getElem?_of_slice hs hxlen).trans hw, ?_, fun j hj => ?_⟩
  · rw [packWord_toNat c hlen hfit]
    exact lt_of_lt_of_le (packLanes_lt g hfit) (Nat.pow_le_pow_right (by omega) (Nat.mul_le_mul_right k hlen))
  · rw [packWord_toNat c hlen hfit, packLanes_lane g hfit, hlane j hj]

theorem ceilDiv_le_self (m : Nat) {r : Nat} (hr : 0 < r) : ceilDiv m r ≤ m :=
  (ceilDiv_le_iff hr).2 (Nat.le_mul_of_pos_right m hr)

/-- Settles O46: the areas of the buffer are the packed streams, cut where the header says. -/
theorem encodedBufferHasTheLayout : Obligations.EncodedBufferHasTheLayout := by
  intro p c n tags idx low full hp hc hn hmax hfull hidx hlow hidxFit hlowFit t i l
  have hcf := hc.facts
  obtain ⟨-, hib⟩ := hcf.indexBits
  have r2 : 0 < reps c 2 := Nat.zero_lt_of_lt (reps_bounds c (by omega) (by omega)).1
  have rI : 0 < reps c (indexBits c) := Nat.zero_lt_of_lt (reps_bounds c hib.1 hib.2).1
  have rL : 0 < reps c c.L := Nat.zero_lt_of_lt (reps_bounds c (by have := hcf.lowBits; omega) hcf.lowBits.2).1
  obtain ⟨ta, ia, la, hta, hia, hla, hb, ht, hi, hl, -⟩ := encodeBuffer_spec hcf n tags full hidxFit hlowFit
  replace ht : ta.length = t := by rw [ht, ← hn]; rfl
  replace hi : ia.length = i := hi
  replace hl : la.length = l := hl
  have hsmall : t ≤ n ∧ i ≤ n ∧ l ≤ n :=
    ⟨(tagWords_eq c n).symm.trans_le (ceilDiv_le_self n r2), (ceilDiv_le_self _ rI).trans hidx,
      (ceilDiv_le_self _ rL).trans hlow⟩
  have hpage := hp.pageHigh
  obtain ⟨h0, h1, h2, h3⟩ := assembleBuffer_header (n := n) (ta := ta) (fa := full) (ia := ia) (la := la) []
    (by omega) (by omega)
  obtain ⟨st, sf, si, sl⟩ := assembleBuffer_slices n ta full ia la []
  have hlen := assembleBuffer_length n ta full ia la
  rw [List.append_nil] at h0 h1 h2 h3 st sf si sl
  rw [← ht, ← hi, ← hl]
  exact ⟨_, hb, hlen, h0, h1, h2, h3.trans hlen.symm, areaHolds_of_slice r2 hta st,
    fun r hr => getElem?_of_slice sf hr, areaHolds_of_slice rI hia si, areaHolds_of_slice rL hla sl⟩

/-! ### Host programs -/

/-- A field set above an operation code (30_encoding.md R89). -/
theorem or_shiftLeft_of_lt {opc s : Nat} (h : opc < 2 ^ s) (x : Nat) : opc ||| (x <<< s) = opc + 2 ^ s * x := by
  rw [Nat.shiftLeft_eq, Nat.mul_comm, Nat.or_comm, ← Nat.two_pow_add_eq_or_of_lt h, Nat.add_comm]

/-- A list of groups of one length, flattened and cut at that length again, is its groups (30_encoding.md R90). -/
theorem flatMap_chunks_flatten {α β : Type} (F : List α → List β) {g : Nat} (hg : 0 < g) (groups : List (List α))
    (h : ∀ l ∈ groups, l.length = g) :
    ((List.range (groups.flatten.length / g)).flatMap fun r => F ((groups.flatten.drop (r * g)).take g)) =
      groups.flatMap F := by
  induction groups with
  | nil => simp
  | cons l groups ih =>
    have hl : l.length = g := h l List.mem_cons_self
    have hcount : (l :: groups).flatten.length / g = groups.flatten.length / g + 1 := by
      rw [List.flatten_cons, List.length_append, hl, Nat.add_div_left _ hg]
    have htail : ∀ r, ((l :: groups).flatten.drop ((r + 1) * g)).take g = (groups.flatten.drop (r * g)).take g := by
      intro r
      rw [List.flatten_cons, Nat.succ_mul, Nat.add_comm, ← hl, List.drop_length_add_append]
    rw [hcount, List.range_succ_eq_map, List.flatMap_cons, List.flatMap_map, List.flatMap_cons,
      ← ih fun l' hl' => h l' (List.mem_cons_of_mem l hl')]
    congr 1
    · simp [← hl]
    · simp only [Nat.succ_eq_add_one, htail]

theorem flatten_length_mod {α : Type} {g : Nat} {groups : List (List α)} (h : ∀ l ∈ groups, l.length = g) :
    groups.flatten.length % g = 0 := by
  rw [List.length_flatten, List.map_congr_left h]; simp

/-! #### The words of the commands with a field in them -/

theorem encode_packw_toNat {k : Nat} (hk : legalK k = true) : (encode (.packw k)).toNat = 0x20 + 2 ^ 8 * k := by
  rw [encode, cmd32_toNat, toNat_ofNat_of_legalK hk]; simp [opcCode]; omega

theorem encode_unpackw_toNat {k : Nat} (hk : legalK k = true) : (encode (.unpackw k)).toNat = 0x21 + 2 ^ 8 * k := by
  rw [encode, cmd32_toNat, toNat_ofNat_of_legalK hk]; simp [opcCode]; omega

theorem encode_recon_toNat (t : Tag) : (encode (.recon t)).toNat = 0x31 + 2 ^ 16 * tagCode t := by
  cases t <;> rfl

theorem laneCount_pos (W : Width) {k : Nat} (hk : legalK k = true) : 0 < W.bits / k := by
  have hk := (legalK_iff k).1 hk
  have hW := Width.bits_bounds W
  exact Nat.div_pos (by omega) (by omega)

/-! #### What the statements expand to -/

section
variable (W : Width)

theorem expand_PACKW (k : Nat) : expand W (.PACKW k) = some [.wr 0x00 (0x20 + 2 ^ 8 * k)] := by
  rw [expand, or_shiftLeft_of_lt (by decide)]; rfl

theorem expand_UNPACKW (k x : Nat) : expand W (.UNPACKW k x) = some [.wr 0x02 x, .wr 0x00 (0x21 + 2 ^ 8 * k)] := by
  rw [expand, or_shiftLeft_of_lt (by decide)]; rfl

theorem expand_RECON (t : Tag) (e d : Nat) :
    expand W (.RECON t e d) = some [.wr 0x03 e, .wr 0x02 d, .wr 0x00 (0x31 + 2 ^ 16 * tagCode t)] := by
  rw [expand, or_shiftLeft_of_lt (by decide)]; rfl

theorem expand_PACK {k : Nat} (hk : legalK k = true) {groups : List (List Nat)}
    (h : ∀ g ∈ groups, g.length = W.bits / k) :
    expand W (.PACK k groups.flatten) =
      some (groups.flatMap fun g => asmLoad 0x100 g ++ [.wr 0x00 (0x20 + 2 ^ 8 * k), .rd 0x04]) := by
  have hg := laneCount_pos W hk
  rw [expand, if_pos ⟨hg.ne', flatten_length_mod h⟩, or_shiftLeft_of_lt (by decide),
    ← flatMap_chunks_flatten _ hg groups h]
  rfl

theorem expand_UNPACK {k : Nat} (hk : legalK k = true) (xs : List Nat) :
    expand W (.UNPACK k xs) = some (xs.flatMap fun x => [.wr 0x02 x, .wr 0x00 (0x21 + 2 ^ 8 * k)] ++
      (List.range (W.bits / k)).map fun j => .rd (0x100 + j)) := by
  rw [expand, if_pos (laneCount_pos W hk).ne', or_shiftLeft_of_lt (by decide)]
  rfl

end

/-- Settles O5: the words are the format's numbers, a load is an indexed map, and the groups of a flattened list are
its parts. -/
theorem assembledStatementsWriteTheirCommand : Obligations.AssembledStatementsWriteTheirCommand := by
  refine ⟨fun W r k v x e d t hk => ⟨?_, ?_⟩, fun W => ⟨?_, ?_, ?_, ?_, ?_, ?_⟩⟩
  · exact ⟨rfl, rfl, rfl, rfl, rfl, rfl, rfl, rfl, expand_PACKW W k, expand_UNPACKW W k x, rfl, expand_RECON W t e d,
      rfl, rfl⟩
  · intro last writeOf
    refine ⟨rfl, rfl, rfl, rfl, rfl, rfl, ?_, ?_, rfl, ?_, rfl, rfl⟩
    · simp only [last, writeOf, expand_PACKW, encode_packw_toNat hk]; rfl
    · simp only [last, writeOf, expand_UNPACKW, encode_unpackw_toNat hk]; rfl
    · simp only [last, writeOf, expand_RECON, encode_recon_toNat]; rfl
  · exact fun _ _ _ _ _ _ _ => rfl
  · exact fun ws => congrArg some (asmLoad_eq_mapIdx _ ws)
  · exact fun xs => congrArg (some <| · ++ _) (asmLoad_eq_mapIdx _ xs)
  · exact fun vs => congrArg some (asmLoad_eq_mapIdx _ vs)
  · intro k groups hk h
    simp only [expand_PACK W hk h, asmLoad_eq_mapIdx]
  · exact fun k xs hk => expand_UNPACK W hk xs

end Sys2Proof.Machine
end

section
/-!
PROOFS of the family 40_bit_packer.md: the sequence functions (O30, O31, O32) and the commands `PACKW` (O28) and
`UNPACKW` (O29).
-/

namespace Sys2Proof.Machine

/-! ### The sequence functions -/

theorem reps_pos (c : Cfg) {k : Nat} (hk : legalK k = true) : 0 < reps c k := laneCount_pos c.W hk

theorem unpackLane_succ (k : Nat) (x : Word) (j : Nat) : unpackLane k x (j + 1) = unpackLane k (x >>> k) j := by
  rw [unpackLane_eq, unpackLane_eq, BitVec.toNat_ushiftRight, Nat.shiftRight_eq_div_pow, Nat.div_div_eq_div_mul,
    ← Nat.pow_add, Nat.succ_mul, Nat.add_comm]

/-- The first `n` lanes of a word, packed again, are its low `n*k` bits (40_bit_packer.md R101, R102). -/
theorem packLanes_unpackLanes (k n : Nat) (x : Word) :
    packLanes k ((List.range n).map (unpackLane k x)) = x.toNat % 2 ^ (n * k) := by
  induction n generalizing x with
  | zero => simp [packLanes, Nat.mod_one]
  | succ n ih =>
    have htail : unpackLane k x ∘ Nat.succ = unpackLane k (x >>> k) := funext (unpackLane_succ k x)
    have hhead : unpackLane k x 0 = x.toNat % 2 ^ k := by simp [unpackLane_eq]
    have hpow : 2 ^ ((n + 1) * k) = 2 ^ k * 2 ^ (n * k) := by rw [Nat.succ_mul, Nat.add_comm, Nat.pow_add]
    rw [List.range_succ_eq_map, List.map_cons, List.map_map, htail, packLanes_cons _ (unpackLane_lt k x 0), ih, hhead,
      BitVec.toNat_ushiftRight, Nat.shiftRight_eq_div_pow, hpow, Nat.mod_mul, Nat.add_comm]

theorem unpackWord_lt {c : Cfg} {k : Nat} {x : Word} : ∀ v ∈ unpackWord c k x, v < 2 ^ k := by
  intro v hv
  obtain ⟨j, -, rfl⟩ := List.mem_map.1 hv
  exact unpackLane_lt k x j

/-- Packing an unpacked word clears its unused bits (40_bit_packer.md R106). -/
theorem packWord_unpackWord_toNat (c : Cfg) (k : Nat) (x : Word) :
    (packWord k (unpackWord c k x)).toNat = x.toNat % 2 ^ (reps c k * k) := by
  rw [packWord_toNat c (unpackWord_length c k x).le unpackWord_lt]
  exact packLanes_unpackLanes k (reps c k) x

theorem packWord_unpackWord_eq_iff (c : Cfg) (k : Nat) (x : Word) :
    packWord k (unpackWord c k x) = x ↔ x.toNat < 2 ^ (reps c k * k) := by
  rw [← BitVec.toNat_inj, packWord_unpackWord_toNat]
  exact Nat.mod_eq_iff_lt (Nat.two_pow_pos _).ne'

/-- The lanes of a word are those of the packing of its lanes, which holds the used bits only (40_bit_packer.md R102). -/
theorem unpackWord_congr {c : Cfg} {k : Nat} {x y : Word}
    (h : x.toNat % 2 ^ (reps c k * k) = y.toNat % 2 ^ (reps c k * k)) : unpackWord c k x = unpackWord c k y := by
  have hpack : packWord k (unpackWord c k x) = packWord k (unpackWord c k y) :=
    BitVec.eq_of_toNat_eq (by rw [packWord_unpackWord_toNat, packWord_unpackWord_toNat, h])
  rw [← unpackWord_packWord c (unpackWord_length c k x) unpackWord_lt, hpack,
    unpackWord_packWord c (unpackWord_length c k y) unpackWord_lt]

theorem pack_isSome_iff (c : Cfg) (k : Nat) (v : List Nat) :
    (pack c k v).isSome = true ↔ v.length % reps c k = 0 ∧ ∀ x ∈ v, x < 2 ^ k := by
  rw [← packDomain_iff, pack]
  split <;> simp [*]

/-- What `pack` answers on its domain unpacks to the values packed (40_bit_packer.md R106). -/
theorem unpack_pack {c : Cfg} {k : Nat} {v : List Nat} {ws : List Word} (hr : 0 < reps c k)
    (h : pack c k v = some ws) : unpack c k ws = v := by
  obtain ⟨hd, rfl⟩ := pack_eq_some h
  obtain ⟨hlen, hfit⟩ := (packDomain_iff c k v).1 hd
  exact unpack_packWords c hr v hlen hfit

/-- Settles O30: a packing exists on the domain and unpacks to its values, group by group; the packing of an unpacked
word is the word with its unused bits cleared. -/
theorem unpackInvertsPack : Obligations.UnpackInvertsPack := by
  intro c k hk
  have hr := reps_pos c hk
  refine ⟨fun v hlen hfit => ?_, fun v hfit => ?_, fun x _ => packWord_unpackWord_eq_iff c k x⟩
  · obtain ⟨ws, hws⟩ := Option.isSome_iff_exists.1 ((pack_isSome_iff c k v).2 ⟨hlen, hfit⟩)
    exact ⟨ws, hws, unpack_pack hr hws⟩
  · obtain ⟨ws, hws, -⟩ := packedArea_some c hr hfit
    exact ⟨ws, hws, packedArea_unpack hr hfit hws⟩

/-- Settles O32: the lanes depend on the used bits only, and the zeros added are a remainder by `reps(k)`. -/
theorem unusedBitsAndPadding : Obligations.UnusedBitsAndPadding := by
  intro c k hk
  have hr := reps_pos c hk
  refine ⟨fun x y => unpackWord_congr, fun v => ⟨_, rfl, Nat.mod_lt _ hr, ?_⟩⟩
  rw [pad_length c k v hr, Nat.mul_comm]

/-- Settles O31: `pack` answers exactly where its test of the domain passes, whatever `k` is. -/
theorem packHasNoValueOutsideItsDomain : Obligations.PackHasNoValueOutsideItsDomain :=
  fun c k v _ => pack_isSome_iff c k v

/-! ### The commands -/

theorem needCfg_fail {s : State} (h : s.status.cfgValid = false) (k : Result) :
    needCfg s k = .next (endWith .badCommand s) := by
  simp [needCfg, raiseError, h]

/-- The word of a well-formed command, given by its number, decodes to the command (30_encoding.md R70, R71). -/
theorem decode_ofNat_of_encode_toNat {i : Instr} {n : Nat} (hi : i.WellFormed) (hn : (encode i).toNat = n) :
    decode (BitVec.ofNat 32 n) = .ok i := by
  rw [← hn, BitVec.ofNat_toNat, BitVec.setWidth_eq]
  exact encodedCommandDecodesToItself i hi

section
variable {k : Nat} {s : State}

theorem exec_packw_of_legalK (hk : legalK k = true) :
    exec (.packw k) s = needCfg s (finishOk (s.setRes0 (packWord k (laneGroup s k)))) := if_pos hk

theorem exec_unpackw_of_legalK (hk : legalK k = true) :
    exec (.unpackw k) s = needCfg s (finishOk (s.setLanes (lanesUnpacked s k))) := if_pos hk

theorem laneGroup_getD {j : Nat} (hj : j < reps s.cfg k) : (laneGroup s k).getD j 0 = (lane s j).toNat % 2 ^ k := by
  simp [laneGroup, hj]

/-- The word `PACKW` leaves in `RES0`, as a number (40_bit_packer.md R107). -/
theorem packWord_laneGroup_toNat : (packWord k (laneGroup s k)).toNat = packLanes k (laneGroup s k) :=
  packWord_toNat s.cfg (laneGroup_length s k).le (laneGroup_lt s k)

/-- A lane of at most 16 bits fits its register (10_state.md R28). -/
theorem unpackLane_lt_two_pow_16 (hk : legalK k = true) (x : Word) (j : Nat) : unpackLane k x j < 2 ^ 16 :=
  (unpackLane_lt k x j).trans_le (Nat.pow_le_pow_right (by decide) ((legalK_iff k).1 hk).2)

/-- A lane after `UNPACKW`, as a number (40_bit_packer.md R108). -/
theorem lane_setLanes_lanesUnpacked_toNat (hk : legalK k = true) {j : Nat} (hj : j < 64) :
    (lane (s.setLanes (lanesUnpacked s k)) j).toNat =
      if j < reps s.cfg k then s.arg0.toNat % 2 ^ s.cfg.W.bits / 2 ^ (j * k) % 2 ^ k else (lane s j).toNat := by
  rw [lane_setLanes_lanesUnpacked s hj]
  split
  · rw [BitVec.toNat_ofNat, Nat.mod_eq_of_lt (unpackLane_lt_two_pow_16 hk _ j), unpackLane_eq, argWord, truncW_toNat]
  · rfl

end

/-- Settles O28: `RES0` is the packed word of the lanes' low parts, whose lanes and length `packLanes` gives. -/
theorem packwPacksTheLanes : Obligations.PackwPacksTheLanes := by
  refine fun k hk => ⟨decode_ofNat_of_encode_toNat hk (encode_packw_toNat hk), fun s => ⟨fun hc => ?_, fun hc => ?_⟩⟩
  · refine ⟨endWith .ok (s.setRes0 (packWord k (laneGroup s k))), ?_, rfl, fun j hj => ?_, ?_,
      (Commits.packw (p := build) hc hk).frame⟩
    · rw [exec_packw_of_legalK hk, needCfg_pass hc, finishOk]
    · rw [endWith_res0, State.setRes0_res0, packWord_laneGroup_toNat, packLanes_lane _ (laneGroup_lt s k),
        laneGroup_getD hj]
    · rw [endWith_res0, State.setRes0_res0, packWord_laneGroup_toNat]
      have hlt := packLanes_lt _ (laneGroup_lt s k)
      rwa [laneGroup_length] at hlt
  · rw [exec_packw_of_legalK hk, needCfg_fail hc]

/-- Settles O29: a lane below `reps(k)` is one of `ARG0[W-1:0]` and fits its register; the others are kept. -/
theorem unpackwSpreadsTheWord : Obligations.UnpackwSpreadsTheWord := by
  refine fun k hk => ⟨decode_ofNat_of_encode_toNat hk (encode_unpackw_toNat hk), fun s => ⟨fun hc => ?_, fun hc => ?_⟩⟩
  · refine ⟨endWith .ok (s.setLanes (lanesUnpacked s k)), ?_, rfl, fun j => lane_setLanes_lanesUnpacked_toNat hk,
      (Commits.unpackw (p := build) hc hk rfl).frame⟩
    rw [exec_unpackw_of_legalK hk, needCfg_pass hc, finishOk]
  · rw [exec_unpackw_of_legalK hk, needCfg_fail hc]

end Sys2Proof.Machine
end

section
/-!
PROOFS of the family 41_dictionary.md: what a lookup returns (O33) and the hash index that computes it (O39), the
commands `DINIT` (O34), `DLOOKUP` (O35), `DPROMOTE` (O36) and `DSETVAL` (O37), the organizations that coincide (O38),
and what the classifier never does to a dictionary (O40, O41).
-/

namespace Sys2Proof.Machine

/-! ### The slots of a set -/

theorem CfgOk.setOf_lt {p : Params} {c : Cfg} (hp : p.Legal) (hc : CfgOk p c) (w : Word) : setOf p c w < c.M :=
  Machine.setOf_lt hp.hashInRange hc.facts.numSets_pos w

theorem setOfEntry_of_mem_slotsOf {c : Cfg} {d : Dict} (h : DictOk c d) {s e : Nat} (hs : s < c.M)
    (he : e ∈ slotsOf c d s) : setOfEntry c e = s := by
  obtain ⟨y, hy, rfl⟩ := List.mem_map.1 he
  exact entryOf_set (List.mem_range.1 ((h.recencyOf_perm hs).mem_iff.1 hy))

/-- Every entry is a slot of its own set (10_state.md R31, R32). -/
theorem mem_slotsOf_setOfEntry {c : Cfg} {d : Dict} (h : DictOk c d) {e : Nat} (he : e < cap c) :
    e ∈ slotsOf c d (setOfEntry c e) :=
  List.mem_map.2 ⟨wayOfEntry c e,
    (h.recencyOf_perm (setOfEntry_lt he)).mem_iff.2 (List.mem_range.2 (wayOfEntry_lt he)), entryOf_setOfEntry c e⟩

theorem candidate_mem {p : Params} {c : Cfg} {d : Dict} (h : DictOk c d) (w : Word) (hs : setOf p c w < c.M)
    (hS : 0 < c.S) : candidate p c d w ∈ slotsOf c d (setOf p c w) := by
  rcases candidate_cases p c d w with ⟨hmem, -⟩ | ⟨-, hv⟩
  · exact hmem
  · rw [hv]; exact victim_mem h w hs hS

/-! ### The scan of a set, by positions in its recency list -/

/-- The scan of a set names the first way in recency order whose entry has the high bits, or nothing. -/
theorem scan_slotsOf_cases (c : Cfg) (d : Dict) (h : Word) (s : Nat) :
    (∃ k y : Nat, (recencyOf d s)[k]? = some y ∧ scan c d h (slotsOf c d s) = some (entryOf c s y) ∧
      hb c (valAt d (entryOf c s y)) = h ∧
      ∀ j z : Nat, j < k → (recencyOf d s)[j]? = some z → hb c (valAt d (entryOf c s z)) ≠ h) ∨
    ((∀ z ∈ recencyOf d s, hb c (valAt d (entryOf c s z)) ≠ h) ∧ scan c d h (slotsOf c d s) = none) := by
  rcases scan_cases c d h (slotsOf c d s) with ⟨pre, e, post, hsplit, hpre, he, hscan⟩ | ⟨hno, hscan⟩
  · obtain ⟨ys, rest, hl, rfl, hrest⟩ := List.map_eq_append_iff.1 hsplit
    obtain ⟨y, zs, rfl, rfl, -⟩ := List.map_eq_cons_iff.1 hrest
    refine .inl ⟨ys.length, y, by simp [hl], hscan, he, fun j z hj hz => hpre _ (List.mem_map_of_mem ?_)⟩
    rw [hl, List.getElem?_append_left hj] at hz
    exact List.mem_of_getElem? hz
  · exact .inr ⟨fun z hz => hno _ (List.mem_map_of_mem hz), hscan⟩

theorem candidate_of_scan {p : Params} {c : Cfg} {d : Dict} {w : Word} {r : Option Nat}
    (h : scan c d (hb c w) (slotsOf c d (setOf p c w)) = r) : candidate p c d w = r.getD (victim p c d w) := by
  subst h
  unfold candidate
  split <;> simp [*]

/-- Settles O33: the scan of the word's set, position by position; the victim is the last of its recency list. -/
theorem lookupFindsFirstMatchOrOldest : Obligations.LookupFindsFirstMatchOrOldest := by
  intro p c d w hp hc hd s l r
  have hset : setOf p c w = s := setOf_eq p c w
  clear_value s
  subst hset
  have hM := hc.setOf_lt hp w
  have hS := hc.facts.setSize_pos
  have hmem := candidate_mem hd w hM hS
  refine ⟨rfl, hM, victim_eq hd w hM hS, rfl, candidate_lt hd w hM hS, setOfEntry_of_mem_slotsOf hd hM hmem, ?_⟩
  rcases scan_slotsOf_cases c d (hb c w) (setOf p c w) with ⟨k, y, hy, hscan, hmatch, hfirst⟩ | ⟨hno, hscan⟩
  · exact .inl ⟨k, y, hy, candidate_of_scan hscan, hmatch, hfirst⟩
  · exact .inr ⟨hno, candidate_of_scan hscan⟩

/-! ### The hash index -/

theorem scan_eq_find? (c : Cfg) (d : Dict) (h : Word) (es : List Nat) :
    scan c d h es = es.find? fun e => hb c (valAt d e) = h := by
  induction es with
  | nil => rfl
  | cons e es ih =>
    rw [scan, ih, List.find?_cons]
    by_cases he : hb c (valAt d e) = h <;> simp [he]

/-- The index of a fully-associative dictionary is the scan of its one set (41_dictionary.md R138). -/
theorem hashIndex_eq_scan (c : Cfg) (d : Dict) (h : Word) : hashIndex c d h = scan c d h (slotsOf c d 0) := by
  rw [scan_eq_find?, slotsOf, List.find?_map]
  rfl

theorem entryOf_zero (c : Cfg) (y : Nat) : entryOf c 0 y = y := by simp [entryOf]

/-- Settles O39: the index is the scan of set 0, whose slots are its ways. -/
theorem hashIndexAgreesWithTheScan : Obligations.HashIndexAgreesWithTheScan := by
  intro p c d w horg
  have hset : setOf p c w = 0 := by rw [setOf_eq, horg]
  have hindex := hashIndex_eq_scan c d (hb c w)
  refine ⟨(candidate_of_scan (by rw [hset, hindex])).symm, ?_⟩
  have hcases := scan_slotsOf_cases c d (hb c w) 0
  simp only [entryOf_zero, ← hindex] at hcases
  exact hcases

/-! ### The commands -/

theorem needDict_refuse {s : State} (h : s.status.cfgValid = false ∨ s.status.dictValid = false) (k : Result) :
    needDict s k = .next (endWith .badCommand s) :=
  h.elim (fun hc => needCfg_fail hc _) fun hd => needDict_fail hd _

/-- The three causes of `BadCommand` of a command that takes an entry (60_exceptions.md R232, items 2 to 4). -/
theorem needDict_needEntry_refuse {s : State}
    (h : s.status.cfgValid = false ∨ s.status.dictValid = false ∨ cap s.cfg ≤ s.arg1.toNat) (k : Result) :
    needDict s (needEntry s k) = .next (endWith .badCommand s) := by
  have hentry : cap s.cfg ≤ s.arg1.toNat → needEntry s k = .next (endWith .badCommand s) := fun he =>
    if_neg (Nat.not_lt.2 he)
  by_cases hv : s.status.cfgValid = false ∨ s.status.dictValid = false
  · exact needDict_refuse hv _
  · obtain ⟨hc, hd⟩ := not_or.1 hv
    rw [needDict_pass (Bool.eq_true_of_not_eq_false hc) (Bool.eq_true_of_not_eq_false hd)]
    exact hentry ((h.resolve_left hc).resolve_left hd)

/-- Settles O34: the dictionary `DINIT` makes is `fresh`, whatever stood there. -/
theorem dinitMakesAFreshDictionary : Obligations.DinitMakesAFreshDictionary := by
  refine ⟨encodedCommandDecodesToItself .dinit rfl, fun s => ⟨fun hc => ?_, fun hc => needCfg_fail hc _⟩⟩
  exact ⟨_, needCfg_pass hc, rfl, rfl, rfl, rfl, (Commits.dinit (p := build) hc).frame⟩

/-- Settles O35: the candidate is below `CAP`, so `RES1` holds it. -/
theorem dlookupReportsTheCandidate : Obligations.DlookupReportsTheCandidate := by
  refine ⟨encodedCommandDecodesToItself .dlookup rfl,
    fun s => ⟨fun hc hd hcfg hdict => ?_, fun h => needDict_refuse h _⟩⟩
  refine ⟨_, needDict_pass hc hd, rfl, ?_, rfl, (Commits.dlookup (p := build) hc hd).frame⟩
  have hlt : candidate build s.cfg s.dict (argWord s) < cap s.cfg :=
    candidate_lt hdict _ (hcfg.setOf_lt build_legal _) hcfg.facts.setSize_pos
  have hcap : cap s.cfg ≤ 65536 := hcfg.facts.capacity.2
  exact Nat.mod_eq_of_lt (show candidate build s.cfg s.dict (argWord s) < 2 ^ 32 by omega)

theorem toFront_eq (y : Nat) (l : List Nat) : toFront y l = y :: l.filter (fun z => z != y) :=
  congrArg (y :: ·) (List.filter_congr fun z _ => by rw [Bool.eq_iff_iff]; simp)

/-- Moving the first of a list without repeats to the front keeps the list. -/
theorem toFront_of_head? {y : Nat} {l : List Nat} (hl : l.Nodup) (hy : l.head? = some y) : toFront y l = l := by
  obtain ⟨ys, rfl⟩ := List.head?_eq_some_iff.1 hy
  have hne : ∀ z ∈ ys, z ≠ y := fun z hz h => (List.nodup_cons.1 hl).1 (h ▸ hz)
  have hys : ys.filter (fun z => z ≠ y) = ys := List.filter_eq_self.2 fun z hz => decide_eq_true (hne z hz)
  rw [toFront, List.filter_cons_of_neg (by simp), hys]

/-- Promoting the entry that is already first changes nothing (41_dictionary.md R136). -/
theorem promote_of_first {c : Cfg} {d : Dict} (h : DictOk c d) {e : Nat} (he : e < cap c)
    (hfirst : (recencyOf d (setOfEntry c e)).head? = some (wayOfEntry c e)) : promote c d e = d := by
  have hs := setOfEntry_lt he
  have hl : setOfEntry c e < d.recency.length := by rwa [h.recencyLength]
  have hself : d.recency.set (setOfEntry c e) (recencyOf d (setOfEntry c e)) = d.recency := by
    rw [recencyOf, List.getD_eq_getElem _ _ hl, List.set_getElem_self]
  rw [promote, toFront_of_head? ((h.recencyOf_perm hs).nodup_iff.2 List.nodup_range) hfirst, hself]

/-- In a set of one entry its way is first. -/
theorem recencyOf_head?_of_setSize_one {c : Cfg} {d : Dict} (h : DictOk c d) {e : Nat} (he : e < cap c)
    (hS : c.S = 1) : (recencyOf d (setOfEntry c e)).head? = some (wayOfEntry c e) := by
  have hp := h.recencyOf_perm (setOfEntry_lt he)
  rw [hS] at hp
  rw [List.perm_singleton.1 hp, wayOfEntry, hS, Nat.mod_one]
  rfl

/-- Settles O36: `promote` replaces one recency list, and by itself if the way stood first. -/
theorem dpromoteMovesToTheFront : Obligations.DpromoteMovesToTheFront := by
  refine ⟨encodedCommandDecodesToItself .dpromote rfl,
    fun s => ⟨fun hc hd _ hdict he => ?_, fun h => needDict_needEntry_refuse h _⟩⟩
  have hset : setOfEntry s.cfg (argEntry s) < s.dict.recency.length := by
    rw [hdict.recencyLength]; exact setOfEntry_lt he
  have hrec := fun u => promote_recencyOf s.cfg s.dict (argEntry s) u hset
  refine ⟨_, (needDict_pass hc hd).trans (needEntry_pass he), rfl, ?_, fun u hu => ?_, List.length_set,
    promote_of_first hdict he, fun hS => promote_of_first hdict he (recencyOf_head?_of_setSize_one hdict he hS),
    (Commits.dpromote (p := build) hc hd he).frame⟩
  · exact (hrec _).trans ((if_pos rfl).trans (toFront_eq _ _))
  · exact (hrec u).trans (if_neg hu)

/-- Settles O37: `setValue` replaces one value, by the low `W` bits of `ARG0`. -/
theorem dsetvalWritesOneEntry : Obligations.DsetvalWritesOneEntry := by
  refine ⟨encodedCommandDecodesToItself .dsetval rfl,
    fun s => ⟨fun hc hd _ hdict he => ?_, fun h => needDict_needEntry_refuse h _⟩⟩
  have hlen : argEntry s < s.dict.val.length := by rw [hdict.valLength]; exact he
  have hval := fun x => setValue_valAt s.dict (argEntry s) x (argWord s) hlen
  refine ⟨_, (needDict_pass hc hd).trans (needEntry_pass he), rfl, ?_, fun e hne => ?_, List.length_set,
    (Commits.dsetval (p := build) hc hd he).frame⟩
  · exact (congrArg BitVec.toNat ((hval _).trans (if_pos rfl))).trans (truncW_toNat s.cfg s.arg0)
  · exact (hval e).trans (if_neg hne)

/-! ### Organizations that coincide

The organization enters the machine through `set_of` alone (41_dictionary.md R121), so two configurations that differ in
it and choose the same sets behave alike. -/

section
variable {p : Params} {c : Cfg} {o : Org}

theorem scan_setOrg (d : Dict) (h : Word) (es : List Nat) : scan { c with org := o } d h es = scan c d h es := by
  rw [scan_eq_find?, scan_eq_find?]
  rfl

theorem replayLoop_congr {c' : Cfg} (h : recon p c = recon p c') (ord : List Nat) (fuel : Nat) (r : ReplayRun) :
    replayLoop p c ord fuel r = replayLoop p c' ord fuel r := by
  have hstep : replayStep p c = replayStep p c' := by unfold replayStep; rw [h]
  induction fuel generalizing r with
  | zero => rfl
  | succ fuel ih => simp only [replayLoop, hstep, ih]

variable (hset : ∀ w, setOf p c w = setOf p { c with org := o } w)
include hset

theorem victim_setOrg (d : Dict) (w : Word) : victim p c d w = victim p { c with org := o } d w := by
  rw [victim, hset]
  rfl

theorem candidate_setOrg (d : Dict) (w : Word) : candidate p c d w = candidate p { c with org := o } d w := by
  rw [candidate, ← scan_setOrg (o := o), hset, victim_setOrg hset]
  rfl

theorem classify_setOrg (d : Dict) (w : Word) : classify p c d w = classify p { c with org := o } d w := by
  rw [classify, classify, lookup, lookup, candidate_setOrg hset]
  rfl

theorem recon_setOrg (d : Dict) (t : Tag) (e : Nat) (x : Word) :
    recon p c d t e x = recon p { c with org := o } d t e x := by
  cases t with
  | MISS => rw [recon, victim_setOrg hset]; rfl
  | _ => rfl

theorem modelPage_setOrg (hs : 0 < c.stride) (page : List Word) :
    modelPage p c page = modelPage p { c with org := o } page := by
  have hstep : modelStep p c page = modelStep p { c with org := o } page := by
    funext i m
    rw [modelStep, modelStep, classify_setOrg hset]
  rw [modelPage_eq_foldl p c page hs, modelPage_eq_foldl p { c with org := o } page hs, hstep]
  rfl

theorem sameBehaviour_setOrg (hs : 0 < c.stride) : SameBehaviour p c { c with org := o } := by
  have hrecon : recon p c = recon p { c with org := o } := by
    funext d t e x
    exact recon_setOrg hset d t e x
  refine ⟨rfl, fun d w => ⟨?_, victim_setOrg hset d w, classify_setOrg hset d w⟩, fun _ _ => rfl, recon_setOrg hset,
    modelPage_setOrg hset hs, fun _ _ _ _ _ => rfl, fun _ _ => rfl, fun x => replayLoop_congr hrecon _ _ _⟩
  rw [lookup, lookup, candidate_setOrg hset]

end

/-- Settles O38: with the same hash `SA` and `DM` choose the same sets, with one set `SA` can only choose set 0, and
both `FAH` and `FAL` choose set 0. -/
theorem organizationsCoincide : Obligations.OrganizationsCoincide := by
  intro p c hp hc
  have hs : 0 < c.stride := hc.facts.stride
  refine ⟨fun horg _ hhash => ?_, fun horg hM => ?_, fun horg => ?_⟩
  · refine sameBehaviour_setOrg (fun w => ?_) hs
    rw [setOf_eq, setOf_eq, horg, hhash]
  · refine sameBehaviour_setOrg (fun w => ?_) hs
    have hlt := hc.setOf_lt hp w
    rw [setOf_eq p { c with org := .fal }]
    exact Nat.lt_one_iff.1 (hM ▸ hlt)
  · refine sameBehaviour_setOrg (fun w => ?_) hs
    rw [setOf_eq, setOf_eq, horg]

/-! ### Dictionaries reached by `classify` -/

/-- What holds of a dictionary and is kept by each `classify` step holds after a run of them (41_dictionary.md R139). -/
theorem classifyAll_induction {P : Dict → Prop} {p : Params} {c : Cfg} {ws : List Word} {d : Dict} (h0 : P d)
    (hstep : ∀ d, ∀ w ∈ ws, P d → P (classify p c d w).2) : P (classifyAll p c d ws) := by
  induction ws generalizing d with
  | nil => exact h0
  | cons w ws ih =>
    exact ih (hstep d w List.mem_cons_self h0) fun d v hv => hstep d v (List.mem_cons_of_mem _ hv)

theorem fresh_valAt {c : Cfg} {e : Nat} (he : e < cap c) : valAt (fresh c) e = 1 := by
  simp [valAt, fresh, he]

/-- `classify` keeps every value, or writes a word other than 0 to the candidate (41_dictionary.md R139). -/
theorem classify_valAt {p : Params} {c : Cfg} {d : Dict} {w : Word} (h : DictOk c d)
    (he : candidate p c d w < cap c) :
    (∀ x, valAt (classify p c d w).2 x = valAt d x) ∨
    (w ≠ 0 ∧ ∀ x, valAt (classify p c d w).2 x = if x = candidate p c d w then w else valAt d x) := by
  have hinstall : ∀ x, valAt (install c d (candidate p c d w) w) x =
      if x = candidate p c d w then w else valAt d x := fun x =>
    setValue_valAt d _ x w (by rwa [h.valLength])
  rcases classify_cases p c d w with ⟨-, hc⟩ | ⟨-, -, hc⟩ | ⟨-, h0, -, hc⟩ | ⟨-, h0, -, hc⟩ <;> rw [hc]
  · exact .inl fun _ => rfl
  · exact .inl fun _ => rfl
  · exact .inr ⟨h0, hinstall⟩
  · exact .inr ⟨h0, hinstall⟩

/-- No entry holds 0 (41_dictionary.md R139). -/
def NoZero (c : Cfg) (d : Dict) : Prop := ∀ e < cap c, valAt d e ≠ 0

/-- Two entries of one set share high bits only when those are 0 (41_dictionary.md R140). -/
def HighBitsDistinct (c : Cfg) (d : Dict) : Prop :=
  ∀ e f : Nat, e < cap c → f < cap c → e ≠ f → e / c.S = f / c.S → hb c (valAt d e) = hb c (valAt d f) →
    hb c (valAt d e) = 0

theorem fresh_noZero (c : Cfg) : NoZero c (fresh c) := by
  intro e he
  rw [fresh_valAt he]
  decide

theorem fresh_highBitsDistinct {c : Cfg} (hL : 0 < c.L) : HighBitsDistinct c (fresh c) := by
  intro e f he _ _ _ _
  rw [fresh_valAt he]
  apply BitVec.eq_of_toNat_eq
  rw [hb_toNat]
  exact Nat.div_eq_of_lt (Nat.one_lt_two_pow hL.ne')

section
variable {p : Params} {c : Cfg} {d : Dict} (hp : p.Legal) (hc : CfgOk p c) (hd : DictOk c d) (w : Word)
include hp hc hd

theorem NoZero.after_classify (h : NoZero c d) : NoZero c (classify p c d w).2 := by
  intro e he
  rcases classify_valAt hd (candidate_lt hd w (hc.setOf_lt hp w) hc.facts.setSize_pos) with hsame | ⟨h0, hval⟩
  · rw [hsame]; exact h e he
  · rw [hval]
    split
    · exact h0
    · exact h e he

/-- Where no value is 0, the word 0 meets no equal entry (42_word_classifier.md R160). -/
theorem NoZero.classify_zero (h : NoZero c d) : classify p c d 0 = (.ZERO, d) := by
  have hne := h _ (candidate_lt hd (0 : Word) (hc.setOf_lt hp 0) hc.facts.setSize_pos)
  rcases classify_cases p c d 0 with ⟨heq, -⟩ | ⟨-, -, hcl⟩ | ⟨-, h0, -⟩ | ⟨-, h0, -⟩
  · exact absurd heq hne
  · exact hcl
  · exact absurd rfl h0
  · exact absurd rfl h0

/-- Another entry of the candidate's set with the word's high bits has high bits 0: the candidate matches too, and the
two shared them before; a victim is overwritten only when nothing matches. -/
theorem HighBitsDistinct.of_candidate (h : HighBitsDistinct c d) {f : Nat} (hf : f < cap c)
    (hne : candidate p c d w ≠ f) (hset : candidate p c d w / c.S = f / c.S) (hbits : hb c (valAt d f) = hb c w) :
    hb c w = 0 := by
  have hM := hc.setOf_lt hp w
  have hS := hc.facts.setSize_pos
  rcases candidate_cases p c d w with ⟨-, hmatch⟩ | ⟨hno, -⟩
  · rw [← hmatch]
    exact h _ f (candidate_lt hd w hM hS) hf hne hset (hmatch.trans hbits.symm)
  · have hslot : f ∈ slotsOf c d (setOf p c w) := by
      rw [← setOfEntry_of_mem_slotsOf hd hM (candidate_mem hd w hM hS), setOfEntry, hset]
      exact mem_slotsOf_setOfEntry hd hf
    exact absurd hbits (hno f hslot)

theorem HighBitsDistinct.after_classify (h : HighBitsDistinct c d) : HighBitsDistinct c (classify p c d w).2 := by
  intro e f he hf hne hset
  rcases classify_valAt hd (candidate_lt hd w (hc.setOf_lt hp w) hc.facts.setSize_pos) with hsame | ⟨-, hval⟩
  · rw [hsame, hsame]; exact h e f he hf hne hset
  · rw [hval, hval]
    split_ifs with hec hfc hfc
    · exact absurd (hec.trans hfc.symm) hne
    · subst hec
      exact fun hbits => h.of_candidate hp hc hd w hf hne hset hbits.symm
    · subst hfc
      exact fun hbits => hbits.trans (h.of_candidate hp hc hd w he hne.symm hset.symm hbits)
    · exact h e f he hf hne hset

end

/-- An invariant of the dictionary that `fresh` meets and `classify` keeps, beside R32, holds after every run. -/
theorem classifyAll_fresh_keeps {P : Dict → Prop} {p : Params} {c : Cfg} {ws : List Word} (hp : p.Legal)
    (hc : CfgOk p c) (hws : ∀ w ∈ ws, WordOk c w) (h0 : P (fresh c))
    (hstep : ∀ d w, DictOk c d → P d → P (classify p c d w).2) :
    DictOk c (classifyAll p c (fresh c) ws) ∧ P (classifyAll p c (fresh c) ws) :=
  classifyAll_induction (P := fun d => DictOk c d ∧ P d) ⟨fresh_dictOk c, h0⟩ fun d w hw ⟨hd, h⟩ =>
    ⟨classify_dictOk hd (hws w hw) (hc.setOf_lt hp w) hc.facts.setSize_pos, hstep d w hd h⟩

/-- Settles O40: `classify` writes no 0, and where no value is 0 the word 0 is no `EXACT`. -/
theorem classifyNeverStoresZero : Obligations.ClassifyNeverStoresZero := by
  intro p c ws hp hc hws d
  obtain ⟨hd, h⟩ := classifyAll_fresh_keeps hp hc hws (fresh_noZero c) fun d w hd => NoZero.after_classify hp hc hd w
  refine ⟨fun v hv => ?_, NoZero.classify_zero hp hc hd h⟩
  obtain ⟨e, he, rfl⟩ := List.mem_iff_getElem.1 hv
  have hne := h e (hd.valLength ▸ he)
  rwa [valAt, List.getD_eq_getElem _ _ he] at hne

/-- Settles O41: a word is installed over a match of its set, or where the set has no match. -/
theorem classifyKeepsHighBitsDistinct : Obligations.ClassifyKeepsHighBitsDistinct := by
  intro p c ws hp hc hws
  have hL : 0 < c.L := Nat.lt_of_lt_of_le (by decide) hc.facts.lowBits.1
  exact (classifyAll_fresh_keeps hp hc hws (fresh_highBitsDistinct hL)
    fun d w hd => HighBitsDistinct.after_classify hp hc hd w).2

end Sys2Proof.Machine
end

section
/-!
PROOFS of the family 42_word_classifier.md: the step `classify` (O42) and the command `CLASSIFY` (O43), the stride order
(O44), and the page model (O45).
-/

namespace Sys2Proof.Machine

/-! ### The step -/

theorem hb_eq_iff (c : Cfg) (v w : Word) : hb c v = hb c w ↔ v.toNat / 2 ^ c.L = w.toNat / 2 ^ c.L := by
  rw [← BitVec.toNat_inj, hb_toNat, hb_toNat]

/-- Two different words with the same high bits differ in their low bits (30_encoding.md R75). -/
theorem low_ne_of_high_eq {v w : Word} {l : Nat} (h : v ≠ w) (hhigh : v.toNat / 2 ^ l = w.toNat / 2 ^ l) :
    v.toNat % 2 ^ l ≠ w.toNat % 2 ^ l := by
  intro hlow
  apply h
  apply BitVec.eq_of_toNat_eq
  rw [← Nat.div_add_mod v.toNat (2 ^ l), hhigh, hlow, Nat.div_add_mod]

/-- Settles O42: the four answers of `classify` exclude each other, and a candidate that does not match is the victim. -/
theorem classifyDecidesByTheCandidate : Obligations.ClassifyDecidesByTheCandidate := by
  intro p c d w hc e v
  have hL : c.L ≤ 16 := hc.facts.lowBits.2
  have hhigh : hb c v = hb c w ↔ v.toNat / 2 ^ c.L = w.toNat / 2 ^ c.L := hb_eq_iff c v w
  rw [← lb_toNat c w hL]
  rcases classify_cases p c d w with ⟨hv, hcl⟩ | ⟨hv, h0, hcl⟩ | ⟨hv, h0, hh, hcl⟩ | ⟨hv, h0, hh, hcl⟩
  · exact ⟨fun _ => hcl, fun h => absurd hv h, fun h => absurd hv h, fun h => absurd hv h⟩
  · exact ⟨fun h => absurd h hv, fun _ _ => hcl, fun _ h => absurd h0 h, fun _ h => absurd h0 h⟩
  · refine ⟨fun h => absurd h hv, fun _ h => absurd h h0, fun _ _ _ => ⟨hcl, ?_⟩, fun _ _ h => absurd (hhigh.1 hh) h⟩
    rw [lb_toNat c w hL]
    exact low_ne_of_high_eq hv (hhigh.1 hh)
  · exact ⟨fun h => absurd h hv, fun _ h => absurd h h0, fun _ _ h => absurd (hhigh.2 h) hh,
      fun _ _ _ => ⟨hcl, candidate_eq_victim hh⟩⟩

/-- Settles O43: the result registers are functions of the tag emitted; the candidate is below `CAP`, so `RES1` holds it. -/
theorem classifyReportsTheStep : Obligations.ClassifyReportsTheStep := by
  refine ⟨encodedCommandDecodesToItself .classify rfl,
    fun s => ⟨?_, fun h => needDict_refuse h _⟩⟩
  intro hc hd hcfg hdict w r
  refine ⟨_, needDict_pass hc hd, rfl, rfl, ?_, ?_, (Commits.classify (p := build) hc hd rfl).frame⟩
  · have hlt : candidate build s.cfg s.dict w < cap s.cfg :=
      candidate_lt hdict _ (hcfg.setOf_lt build_legal _) hcfg.facts.setSize_pos
    have hcap : cap s.cfg ≤ 65536 := hcfg.facts.capacity.2
    exact Nat.mod_eq_of_lt (show candidate build s.cfg s.dict w < 2 ^ 32 by omega)
  · simp only [endWith_res0, endWith_resTag]
    cases r.1 with
    | ZERO => exact ⟨rfl, rfl⟩
    | EXACT e => exact ⟨rfl, rfl⟩
    | PARTIAL e l => exact ⟨rfl, lb_toNat s.cfg w hcfg.facts.lowBits.2⟩
    | MISS x => exact ⟨rfl, rfl⟩

/-! ### The stride order -/

theorem order_perm (n : Nat) {stride : Nat} (hs : 0 < stride) : (order n stride).Perm (List.range n) :=
  (List.perm_ext_iff_of_nodup (order_nodup n stride hs) List.nodup_range).2 fun _ => by
    rw [mem_order hs, List.mem_range]

/-- The closed form of 42_word_classifier.md R157: the first `n mod stride` residue classes have one position more. -/
def strideAt (n stride t : Nat) : Nat :=
  let a := n % stride
  let b := n / stride
  if t < a * (b + 1) then t / (b + 1) + t % (b + 1) * stride
  else a + (t - a * (b + 1)) / b + (t - a * (b + 1)) % b * stride

/-- The number of positions of residue class `r`. -/
theorem ceilDiv_sub_eq (n : Nat) {stride r : Nat} (hr : r < stride) :
    ceilDiv (n - r) stride = if r < n % stride then n / stride + 1 else n / stride := by
  have hdiv := Nat.div_add_mod n stride
  have hmod := Nat.mod_lt n (Nat.zero_lt_of_lt hr)
  rw [Nat.mul_comm] at hdiv
  have hsucc := Nat.add_one_mul (n / stride) stride
  split
  · have hsucc' := Nat.add_one_mul (n / stride + 1) stride
    exact Nat.div_eq_of_lt_le (by omega) (by omega)
  · exact Nat.div_eq_of_lt_le (by omega) (by omega)

/-- Blocks of one length, laid out one after another: element `t` is element `t % k` of block `t / k`. -/
theorem flatMap_range_map_range {α : Type} (g : Nat → Nat → α) (m k : Nat) :
    ((List.range m).flatMap fun r => (List.range k).map (g r)) =
      (List.range (m * k)).map fun t => g (t / k) (t % k) := by
  induction m with
  | zero => simp
  | succ m ih =>
    rw [List.range_succ, List.flatMap_append, ih, Nat.succ_mul, List.range_add, List.map_append, List.map_map]
    congr 1
    rw [List.flatMap_singleton]
    refine List.map_congr_left fun j hj => ?_
    have hj := List.mem_range.1 hj
    have hk := Nat.zero_lt_of_lt hj
    have hq : (m * k + j) / k = m := by rw [Nat.mul_comm, Nat.mul_add_div hk, Nat.div_eq_of_lt hj, Nat.add_zero]
    have hm : (m * k + j) % k = j := by rw [Nat.mul_add_mod', Nat.mod_eq_of_lt hj]
    rw [Function.comp_apply, hq, hm]

/-- The residue classes that hold a position (42_word_classifier.md R157): the long ones, then the others. -/
theorem order_eq_append (n : Nat) {stride : Nat} (hs : 0 < stride) :
    order n stride =
      ((List.range (n % stride)).flatMap fun r => (List.range (n / stride + 1)).map fun j => r + j * stride) ++
      ((List.range (min stride n - n % stride)).flatMap fun r =>
        (List.range (n / stride)).map fun j => n % stride + r + j * stride) := by
  have hmod := Nat.mod_lt n hs
  have hle := Nat.mod_le n stride
  have hsplit : min stride n = n % stride + (min stride n - n % stride) := by omega
  rw [order, hsplit, List.range_add, List.flatMap_append, List.flatMap_map, Nat.add_sub_cancel_left]
  congr 1 <;> refine List.flatMap_congr fun r hr => ?_ <;> rw [List.mem_range] at hr
  · rw [residueClass, ceilDiv_sub_eq n (by omega), if_pos hr]
  · rw [residueClass, ceilDiv_sub_eq n (by omega), if_neg (by omega)]

/-- The long classes and the others together hold every position. -/
theorem residueClasses_length (n : Nat) {stride : Nat} (hs : 0 < stride) :
    n % stride * (n / stride + 1) + (min stride n - n % stride) * (n / stride) = n := by
  have h := congrArg List.length (order_eq_append n hs)
  rw [order_length n stride hs, flatMap_range_map_range, flatMap_range_map_range] at h
  simpa using h.symm

theorem order_eq_map_strideAt (n : Nat) {stride : Nat} (hs : 0 < stride) :
    order n stride = (List.range n).map (strideAt n stride) := by
  have hrange := congrArg List.range (residueClasses_length n hs)
  rw [← hrange, order_eq_append n hs, flatMap_range_map_range, flatMap_range_map_range, List.range_add, List.map_append,
    List.map_map]
  congr 1
  · refine List.map_congr_left fun t ht => ?_
    rw [strideAt, if_pos (List.mem_range.1 ht)]
  · refine List.map_congr_left fun t _ => ?_
    rw [Function.comp_apply, strideAt, if_neg (by omega), Nat.add_sub_cancel_left]

/-- With stride 1 there is one class; with a stride of `n` or more each position is a class of its own. -/
theorem strideAt_of_plain {n stride t : Nat} (h : stride = 1 ∨ n ≤ stride) (ht : t < n) : strideAt n stride t = t := by
  unfold strideAt
  rcases h with rfl | h
  · simp [Nat.mod_one, Nat.div_eq_of_lt ht, Nat.mod_eq_of_lt ht]
  · rcases h.eq_or_lt with rfl | h
    · simp [Nat.mod_one, Nat.div_self (Nat.zero_lt_of_lt ht)]
    · simp [Nat.mod_eq_of_lt h, Nat.div_eq_of_lt h, ht, Nat.mod_one]

/-- Settles O44: the order is the closed form at `0 .. n-1`. -/
theorem strideOrderVisitsEveryPositionOnce : Obligations.StrideOrderVisitsEveryPositionOnce := by
  intro n stride hs
  refine ⟨order_perm n hs, fun hplain => ?_, fun t ht => ?_⟩
  · rw [order_eq_map_strideAt n hs]
    exact (List.map_congr_left fun t ht => strideAt_of_plain hplain (List.mem_range.1 ht)).trans (List.map_id _)
  · rw [order_eq_map_strideAt n hs, List.getElem?_map, List.getElem?_range ht]
    rfl

/-! ### The page model -/

/-- What `model_page` returns, in terms of the items emitted (42_word_classifier.md R158). -/
theorem modelPage_emitted (p : Params) {c : Cfg} (page : List Word) (hs : 0 < c.stride) :
    let ord := order page.length c.stride
    let ws := ord.map fun i => page.getD i 0
    let es := emittedAll p c (fresh c) ws
    let m := modelPage p c page
    m.dict = classifyAll p c (fresh c) ws ∧ m.run.seq = page.length ∧ m.run.tags.length = page.length ∧
    (∀ t i : Nat, ord[t]? = some i → ∃ e, es[t]? = some e ∧ m.run.tags[i]? = some (some (emittedTag e))) ∧
    m.run.idx = es.flatMap emittedIdx ∧ m.run.low = es.flatMap emittedLow ∧ m.run.full = es.flatMap emittedFull := by
  intro ord ws es m
  have hm : m = ord.foldl (fun m i => modelStep p c page i m) { dict := fresh c, run := emptyRun page.length } :=
    modelPage_eq_foldl p c page hs
  have hlen : (emptyRun page.length).tags.length = page.length := List.length_replicate
  obtain ⟨hdict, hseq, htags, hidx, hlow, hfull, -, hput⟩ :=
    modelFold_emitted p c page ord { dict := fresh c, run := emptyRun page.length }
  rw [← hm] at hdict hseq htags hidx hlow hfull hput
  refine ⟨hdict, ?_, htags.trans hlen, hput (order_nodup _ _ hs) fun i hi => ?_, hidx, hlow, hfull⟩
  · rw [hseq, order_length _ _ hs]
    exact Nat.zero_add _
  · rw [hlen]
    exact (mem_order hs).1 hi

/-- A stream that takes at most one value of each item, in the two ways of saying so. -/
theorem flatMap_eq_filterMap {α β : Type} {f : α → List β} {g : α → Option β} (h : ∀ a, f a = (g a).toList)
    (l : List α) : l.flatMap f = l.filterMap g := by
  rw [List.filterMap_eq_flatMap_toList, funext h]

/-- The lengths of the three streams, by the tags of the page (42_word_classifier.md R158). -/
theorem modelPage_lengths {p : Params} {c : Cfg} {page : List Word} (hp : p.Legal) (hc : CfgOk p c)
    (hpage : ∀ w ∈ page, WordOk c w) :
    let r := (modelPage p c page).run
    r.idx.length = r.tags.count (some .EXACT) + r.tags.count (some .PARTIAL) ∧
    r.low.length = r.tags.count (some .PARTIAL) ∧ r.full.length = r.tags.count (some .MISS) := by
  intro r
  obtain ⟨tags, htags, -, -, hidx, hlow, hfull, -⟩ := modelPage_spec hp.hashInRange hc.facts hpage
  have hcount : ∀ g : Tag, r.tags.count (some g) = tags.count g := fun g => by
    rw [htags, List.count_map_of_injective _ _ (Option.some_injective _)]
  rw [hcount, hcount, hcount]
  exact ⟨hidx, hlow, hfull⟩

/-- Settles O45: the page loop is one pass over the stride order that classifies the word at each position. -/
theorem pageModelClassifiesInStrideOrder : Obligations.PageModelClassifiesInStrideOrder := by
  intro p c page hp hc hpage n ord ws es m
  obtain ⟨hdict, hseq, htags, hput, hidx, hlow, hfull⟩ := modelPage_emitted p page hc.facts.stride
  refine ⟨hdict, hseq, htags, hput, ?_, ?_, ?_, modelPage_lengths hp hc hpage⟩
  · exact hidx.trans (flatMap_eq_filterMap (fun e => by cases e <;> rfl) es)
  · exact hlow.trans (flatMap_eq_filterMap (fun e => by cases e <;> rfl) es)
  · exact hfull.trans (flatMap_eq_filterMap (fun e => by cases e <;> rfl) es)

end Sys2Proof.Machine
end

section
/-!
PROOFS of the family 43_layout_encoder.md: what `COMPRESS` writes (O47), when it refuses (O48), how long its buffer is
(O49), and that both macro commands produce the same from the same inputs (O50).
-/

namespace Sys2Proof.Machine

/-! ### The macro commands, case by case

The equations that `compressOn_next` and `decompressOn_next` invert. -/

section
variable {p : Params} {s : State}

/-- The two causes of `BadCommand` of a macro command (60_exceptions.md R232, items 2 and 5). -/
theorem needCfg_needCbufLen_refuse (h : s.status.cfgValid = false ∨ p.maxCbufWords < s.cbufLen.toNat) (k : Result) :
    needCfg s (needCbufLen p s k) = .next (endWith .badCommand s) := by
  cases hv : s.status.cfgValid with
  | false => exact needCfg_fail hv _
  | true =>
    rw [needCfg_pass hv]
    exact if_neg (Nat.not_le.2 (h.resolve_left (by simp [hv])))

variable (hv : s.status.cfgValid = true) (hlen : s.cbufLen.toNat ≤ p.maxCbufWords)
include hv hlen

theorem compressOn_of_lt_worstCase (hroom : s.cbufLen.toNat < worstCase s.cfg s.cfg.N) :
    compressOn p s = .next (endWith .bufferTooSmall s) := by
  rw [compressOn, needCfg_pass hv, needCbufLen_pass hlen, if_pos hroom]
  rfl

theorem compressOn_of_encodeBuffer {tags : List Tag} {b : List Word}
    (hroom : worstCase s.cfg s.cfg.N ≤ s.cbufLen.toNat)
    (htags : definedSlots (modelPage p s.cfg (pageWordsOf s)).run.tags = some tags)
    (hb : encodeBuffer s.cfg s.cfg.N tags (modelPage p s.cfg (pageWordsOf s)).run.idx
      (modelPage p s.cfg (pageWordsOf s)).run.low (modelPage p s.cfg (pageWordsOf s)).run.full = some b) :
    compressOn p s = .next (endWith .ok (commitCompress s b)) := by
  rw [compressOn, needCfg_pass hv, needCbufLen_pass hlen, if_neg (Nat.not_lt.2 hroom)]
  simp only [htags, hb]
  rfl

theorem decompressOn_of_parse_error {code : ResultCode}
    (hx : parse p s.cfg (cbufWordsOf s) s.cbufLen.toNat = .error code) :
    decompressOn p s = .next (endWith code s) := by
  rw [decompressOn, needCfg_pass hv, needCbufLen_pass hlen, hx]
  rfl

theorem decompressOn_of_replay {x : Parsed} {r : ReplayRun} {out : List Word}
    (hx : parse p s.cfg (cbufWordsOf s) s.cbufLen.toNat = .ok x) (hr : replay p s.cfg x = some r)
    (hout : definedSlots r.out = some out) :
    decompressOn p s = .next (endWith .ok (commitDecompress s x.n out)) := by
  rw [decompressOn, needCfg_pass hv, needCbufLen_pass hlen, hx]
  simp only [hr, hout]
  rfl

end

/-! ### What a macro command commits -/

theorem cbufCell_commitCompress (s : State) (b : List Word) (i : Nat) :
    cbufCell (commitCompress s b) i = if h : i < b.length then truncW s.cfg b[i] else cbufCell s i := by
  have h : cbufCell (commitCompress s b) i = _ := cbufCell_setCbuf_memSetFrom s (b.map (truncW s.cfg)) i
  simpa only [List.length_map, List.getElem_map] using h

theorem pageCell_commitDecompress (s : State) (n : Nat) (out : List Word) (i : Nat) :
    pageCell (commitDecompress s n out) i = if h : i < out.length then truncW s.cfg out[i] else pageCell s i := by
  have h : pageCell (commitDecompress s n out) i = _ := pageCell_setPage_memSetFrom s (out.map (truncW s.cfg)) i
  simpa only [List.length_map, List.getElem_map] using h

/-- The words of a buffer that `COMPRESS` stores have `W` bits already, so the cells hold them as they are. -/
theorem cbufCell_commitCompress_of_wordOk {s : State} {b : List Word} (hb : ∀ w ∈ b, WordOk s.cfg w) (i : Nat) :
    cbufCell (commitCompress s b) i = if h : i < b.length then b[i] else cbufCell s i := by
  rw [cbufCell_commitCompress]
  split
  · exact truncW_of_wordOk (hb _ (List.getElem_mem _))
  · rfl

/-- `RES1` holds the length of a buffer that fits the room offered. -/
theorem res1_commitCompress_toNat {s : State} {b : List Word} (h : b.length ≤ s.cbufLen.toNat) :
    (commitCompress s b).res1.toNat = b.length :=
  Nat.mod_eq_of_lt (h.trans_lt s.cbufLen.isLt)

/-! ### `COMPRESS` -/

/-- Twice the page holds the worst case from six words up (43_layout_encoder.md R178). -/
theorem worstCase_le_two_mul (c : Cfg) {n : Nat} (hn : 6 ≤ n) : worstCase c n ≤ 2 * n := by
  have hW := (Width.bits_bounds c.W).1
  have htags : tagWords c n ≤ n - 5 :=
    (ceilDiv_le_iff (by omega)).2 <| calc
      2 * n ≤ (n - 5) * 32 := by omega
      _ ≤ (n - 5) * c.W.bits := Nat.mul_le_mul_left _ hW
  unfold worstCase
  omega

/-- Settles O47: a legal configuration has an encoding of the page, within the worst case and so within the room. -/
theorem compressWritesTheEncodedPage : Obligations.CompressWritesTheEncodedPage := by
  refine ⟨encodedCommandDecodesToItself .compress rfl, fun s => ⟨?_, fun h => needCfg_needCbufLen_refuse h _,
    fun hv hlen hroom => compressOn_of_lt_worstCase hv hlen hroom⟩⟩
  intro hv hcfg hlen hroom m
  obtain ⟨tags, b, hmap, htags, hslots, hb, -, hsize, hwords⟩ := compressOn_encodes build_legal hcfg
  exact ⟨_, tags, b, compressOn_of_encodeBuffer hv hlen hroom hslots hb, rfl, hmap, htags, hb,
    cbufCell_commitCompress_of_wordOk hwords, res1_commitCompress_toNat (hsize.trans hroom), rfl,
    (Commits.compress (p := build) hv hlen hroom hslots hb).frame⟩

/-- Settles O48: O47 gives the end of the command on either side of the worst case. -/
theorem compressChecksTheWorstCase : Obligations.CompressChecksTheWorstCase := by
  intro s hv hcfg hlen
  obtain ⟨hfits, -, hsmall⟩ := compressWritesTheEncodedPage.2 s
  have hok : worstCase s.cfg s.cfg.N ≤ s.cbufLen.toNat → ∃ t, exec .compress s = .next t ∧ t.status.result = .ok :=
    fun hroom =>
      have ⟨t, _, _, ht, hres, _⟩ := hfits hv hcfg hlen hroom
      ⟨t, ht, hres⟩
  refine ⟨⟨?_, fun hroom => ⟨_, hsmall hv hlen hroom, rfl⟩⟩,
    fun hN hroom => hok ((worstCase_le_two_mul s.cfg hN).trans hroom)⟩
  rintro ⟨t, ht, hres⟩
  by_contra hroom
  obtain ⟨t', ht', hres'⟩ := hok (Nat.not_lt.1 hroom)
  cases ht.symm.trans ht'
  cases hres.symm.trans hres'

/-- Settles O49: `COMPRESS` ends `OK` only with the encoding whose size `compressOn_encodes` bounds. -/
theorem compressedSizeIsBounded : Obligations.CompressedSizeIsBounded := by
  intro s t hcfg ht hres n wc
  obtain ⟨-, rfl⟩ | ⟨-, -, ⟨-, rfl⟩ | ⟨hroom, tags, b, hslots, hb, rfl⟩⟩ := compressOn_next ht
  · cases hres
  · cases hres
  · obtain ⟨tags', b', -, -, hslots', hb', hlow, hhigh, -⟩ := compressOn_encodes build_legal hcfg
    cases hslots.symm.trans hslots'
    cases hb.symm.trans hb'
    have hres1 : (endWith .ok (commitCompress s b)).res1.toNat = b.length :=
      res1_commitCompress_toNat (hhigh.trans hroom)
    rw [hres1]
    exact ⟨hlow, hhigh, hroom, fun hN => hhigh.trans (worstCase_le_two_mul s.cfg hN)⟩

/-! ### The inputs of the macro commands

No legal configuration is assumed here: what a command produces is a function of its inputs even where nothing bounds it. -/

theorem pageWordsOf_congr {s s' : State} (hcfg : s'.cfg = s.cfg) (h : ∀ i, i < s.cfg.N → pageRead s' i = pageRead s i) :
    pageWordsOf s' = pageWordsOf s := by
  rw [pageWordsOf, pageWordsOf, hcfg]
  exact List.map_congr_left fun i hi => h i (List.mem_range.1 hi)

theorem cbufWordsOf_congr {s s' : State} (hlen : s'.cbufLen = s.cbufLen)
    (h : ∀ i, i < s.cbufLen.toNat → cbufRead s' i = cbufRead s i) : cbufWordsOf s' = cbufWordsOf s := by
  rw [cbufWordsOf, cbufWordsOf, hlen]
  exact List.map_congr_left fun i hi => h i (List.mem_range.1 hi)

/-- The replay writes into the slots it started with. -/
theorem replayStep_out_length {p : Params} {c : Cfg} {i : Nat} {r r' : ReplayRun} (h : replayStep p c i r = some r') :
    r'.out.length = r.out.length := by
  obtain ⟨-, rfl⟩ | ⟨_, _, -, -, rfl⟩ | ⟨_, _, _, _, -, -, -, rfl⟩ | ⟨_, _, -, -, rfl⟩ := replayStep_some h <;>
    exact List.length_set

theorem replayLoop_out_length {p : Params} {c : Cfg} {ord : List Nat} {fuel : Nat} {r r' : ReplayRun}
    (h : replayLoop p c ord fuel r = some r') : r'.out.length = r.out.length := by
  induction fuel generalizing r with
  | zero => rw [Option.some.inj h]
  | succ fuel ih =>
    unfold replayLoop at h
    split at h
    · rw [Option.some.inj h]
    · split at h
      · cases h
      · next hstep => exact (ih h).trans (replayStep_out_length hstep)

theorem replay_slots_length {p : Params} {c : Cfg} {x : Parsed} {r : ReplayRun} {out : List Word}
    (hr : replay p c x = some r) (hout : definedSlots r.out = some out) : out.length = x.n := by
  have hlen := replayLoop_out_length hr
  rwa [definedSlots_eq_some.1 hout, List.length_map, List.length_replicate] at hlen

section
variable {p : Params} {s s' t : State} (hcfg : s'.cfg = s.cfg) (hvalid : s'.status.cfgValid = s.status.cfgValid)
  (hlen : s'.cbufLen = s.cbufLen)
include hcfg hvalid hlen

/-- `COMPRESS` from a state with the same inputs ends the same way and, on `OK`, with the same buffer. -/
theorem compressOn_congr (hpage : pageWordsOf s' = pageWordsOf s) (ht : compressOn p s = .next t) :
    ∃ t', compressOn p s' = .next t' ∧ t'.status.result = t.status.result ∧
      (t.status.result = .ok → t'.res1 = t.res1 ∧ ∀ i, i < t.res1.toNat → cbufCell t' i = cbufCell t i) := by
  have hcases := compressOn_next ht
  rw [← hcfg, ← hvalid, ← hlen, ← hpage] at hcases
  obtain ⟨hbad, rfl⟩ | ⟨hv, hmax, ⟨hroom, rfl⟩ | ⟨hroom, tags, b, hslots, hb, rfl⟩⟩ := hcases
  · exact ⟨_, needCfg_needCbufLen_refuse hbad _, rfl, nofun⟩
  · exact ⟨_, compressOn_of_lt_worstCase hv hmax hroom, rfl, nofun⟩
  · refine ⟨_, compressOn_of_encodeBuffer hv hmax hroom hslots hb, rfl, fun _ => ⟨rfl, fun i hi => ?_⟩⟩
    have hi : i < b.length := hi.trans_le (Nat.mod_le _ _)
    simp only [endWith_cbufCell, cbufCell_commitCompress, hi, dif_pos, hcfg]

/-- `DECOMPRESS` from a state with the same inputs ends the same way and, on `OK`, with the same page. -/
theorem decompressOn_congr (hwords : cbufWordsOf s' = cbufWordsOf s) (ht : decompressOn p s = .next t) :
    ∃ t', decompressOn p s' = .next t' ∧ t'.status.result = t.status.result ∧
      (t.status.result = .ok → t'.res1 = t.res1 ∧ ∀ i, i < t.res1.toNat → pageCell t' i = pageCell t i) := by
  have hcases := decompressOn_next ht
  rw [← hcfg, ← hvalid, ← hlen, ← hwords] at hcases
  obtain ⟨hbad, rfl⟩ | ⟨hv, hmax, ⟨code, hx, rfl⟩ | ⟨x, r, out, hx, hr, hout, rfl⟩⟩ := hcases
  · exact ⟨_, needCfg_needCbufLen_refuse hbad _, rfl, nofun⟩
  · have hcode : code ≠ .ok := by rcases parse_error hx with rfl | rfl <;> decide
    exact ⟨_, decompressOn_of_parse_error hv hmax hx, rfl, fun h => absurd h hcode⟩
  · refine ⟨_, decompressOn_of_replay hv hmax hx hr hout, rfl, fun _ => ⟨rfl, fun i hi => ?_⟩⟩
    have hi : i < out.length := replay_slots_length hr hout ▸ hi.trans_le (Nat.mod_le _ _)
    simp only [endWith_pageCell, pageCell_commitDecompress, hi, dif_pos, hcfg]

end

/-- Settles O50: the words read are all a macro command takes of the buffers, and no other register enters. -/
theorem macroCommandsDependOnTheirInputsOnly : Obligations.MacroCommandsDependOnTheirInputsOnly := by
  intro s s' t hcfg hvalid hlen
  exact ⟨fun h => compressOn_congr hcfg hvalid hlen (pageWordsOf_congr hcfg h),
    fun h => decompressOn_congr hcfg hvalid hlen (cbufWordsOf_congr hlen h)⟩

end Sys2Proof.Machine
end

section
/-!
PROOFS of the family 44_layout_decoder.md: the reconstruction step (O55, O58) and the command `RECON` (O57), the parse
(O52, O54), the replay (O51, O56), and `DECOMPRESS` on any buffer (O53) and on what `COMPRESS` wrote (O59).
-/

namespace Sys2Proof.Machine

/-! ### The reconstruction step (44_layout_decoder.md R192) -/

/-- A rebuilt word has the entry's high bits and the recorded low bits (30_encoding.md R75). -/
theorem rebuilt_parts {c : Cfg} (hL : c.L ≤ 16) (d : Dict) (idx : Nat) (x : Word) :
    (rebuilt c d idx x).toNat / 2 ^ c.L = (valAt d idx).toNat / 2 ^ c.L ∧
      (rebuilt c d idx x).toNat % 2 ^ c.L = x.toNat % 2 ^ c.L := by
  have hlow : x.toNat % 2 ^ c.L < 2 ^ c.L := Nat.mod_lt _ (Nat.two_pow_pos _)
  rw [rebuilt, rebuilt_toNat c _ x hL, Nat.add_comm]
  exact ⟨by rw [Nat.add_mul_div_right _ _ (Nat.two_pow_pos _), Nat.div_eq_of_lt hlow, Nat.zero_add],
    by rw [Nat.add_mul_mod_self_right, Nat.mod_mod]⟩

/-- Settles O55: a rebuilt word keeps its two parts, and the victim is the last way of the set. -/
theorem reconDecidesByTheTag : Obligations.ReconDecidesByTheTag := by
  intro p c d idx x hp hcfg hd
  obtain ⟨hhigh, hlow⟩ := rebuilt_parts hcfg.facts.lowBits.2 d idx x
  obtain ⟨y, hy, hvictim⟩ := victim_eq hd (truncW c x) (hcfg.setOf_lt hp _) hcfg.facts.setSize_pos
  exact ⟨rfl, rfl, ⟨hhigh, hlow, rfl⟩, truncW_toNat c x, y, hy, congrArg (install c d · (truncW c x)) hvictim⟩

/-- A replay of one word, at page position 0, from what `classify` emitted for it. -/
def oneWordRun (d : Dict) (e : Emitted) : ReplayRun where
  dict := d
  run := { seq := 0, tags := [some (emittedTag e)], idx := emittedIdx e, low := emittedLow e, full := emittedFull e }
  out := [none]

/-- The replay gives the reconstruction step the items of R196. -/
theorem replayStep_oneWordRun (p : Params) (c : Cfg) (d : Dict) (e : Emitted) :
    replayStep p c 0 (oneWordRun d e) = some (replayPut (oneWordRun d e) 0 (reconOf p c d e) [] [] []) := by
  cases e <;> rfl

/-- Settles O58: the replay's pass over the emitted items is `reconOf`, and it undoes the classifier's. -/
theorem reconInvertsClassify : Obligations.ReconInvertsClassify := by
  intro p c d w hcfg hw
  have hback := replayStep_of_classify (i := 0) (I := []) (L := []) (F := []) hcfg.facts.lowBits.2 hw
    (show (oneWordRun d (classify p c d w).1).dict = d from rfl) rfl (List.append_nil _).symm (List.append_nil _).symm
    (List.append_nil _).symm
  have hput := Option.some.inj ((replayStep_oneWordRun p c d _).symm.trans hback)
  have hword := congrArg (fun r => r.out[0]?) hput
  exact Prod.ext (by simpa [replayPut, oneWordRun] using hword) (congrArg ReplayRun.dict hput)

/-! ### `RECON` -/

section
variable {p : Params} {tag : Tag} {s : State}

/-- The causes of `BadCommand` of `RECON` (44_layout_decoder.md R195). -/
theorem reconOn_refuse (h : s.status.cfgValid = false ∨ s.status.dictValid = false ∨
    ((tag = .EXACT ∨ tag = .PARTIAL) ∧ cap s.cfg ≤ s.arg1.toNat)) :
    reconOn p tag s = .next (endWith .badCommand s) := by
  cases tag with
  | ZERO | MISS => exact needDict_refuse (h.imp_right fun h => h.resolve_right (by simp)) _
  | EXACT | PARTIAL => exact needDict_needEntry_refuse (h.imp_right (.imp_right And.right)) _

theorem reconOn_pass (hc : s.status.cfgValid = true) (hd : s.status.dictValid = true)
    (he : tag = .EXACT ∨ tag = .PARTIAL → s.arg1.toNat < cap s.cfg) :
    reconOn p tag s = .next (endWith .ok (reconned p tag s)) := by
  rw [reconOn, needDict_pass hc hd]
  cases tag with
  | ZERO | MISS => rfl
  | EXACT => exact needEntry_pass (he (.inl rfl))
  | PARTIAL => exact needEntry_pass (he (.inr rfl))

end

/-- Settles O57: the step is that of O55, and the entry it names is below `CAP`, so `RES1` holds it. -/
theorem reconReportsTheStep : Obligations.ReconReportsTheStep := by
  refine fun tag => ⟨decode_ofNat_of_encode_toNat rfl (encode_recon_toNat tag), fun s => ⟨reconOn_refuse, ?_⟩⟩
  intro hc hd hcfg hdict he
  refine ⟨_, reconOn_pass (p := build) hc hd he, rfl, (Commits.recon (p := build) hc hd he).frame, ?_⟩
  obtain ⟨-, -, ⟨hhigh, hlow, hdictPartial⟩, hword, -⟩ :=
    reconDecidesByTheTag build s.cfg s.dict (argEntry s) s.arg0 build_legal hcfg hdict
  have hentry : BitVec.ofNat 32 (argEntry s) = s.arg1 := by rw [argEntry, BitVec.ofNat_toNat, BitVec.setWidth_eq]
  cases tag with
  | ZERO => exact ⟨rfl, rfl, rfl⟩
  | EXACT => exact ⟨rfl, hentry, rfl⟩
  | PARTIAL => exact ⟨hhigh, hlow, hentry, hdictPartial⟩
  | MISS =>
    obtain ⟨y, hy, hvictim⟩ := victim_eq hdict (truncW s.cfg s.arg0) (hcfg.setOf_lt build_legal _)
      hcfg.facts.setSize_pos
    have hlt := victim_lt hdict (truncW s.cfg s.arg0) (hcfg.setOf_lt build_legal _) hcfg.facts.setSize_pos
    have hcap : cap s.cfg ≤ 65536 := hcfg.facts.capacity.2
    have hres1 : (endWith .ok (reconned build .MISS s)).res1.toNat =
        victim build s.cfg s.dict (truncW s.cfg s.arg0) :=
      Nat.mod_eq_of_lt (show victim build s.cfg s.dict (truncW s.cfg s.arg0) < 2 ^ 32 by omega)
    exact ⟨hword, hres1, y, hy, hres1.trans hvictim, by rw [hres1]; rfl⟩

/-! ### The parse, test by test (44_layout_decoder.md R190) -/

/-- What `parse` takes from a buffer once its tests have passed. -/
def cutStreams (c : Cfg) (b : List Word) : Parsed :=
  let n := headerField b 0
  let tags := tagsOfArea c n (slice b 4 (4 + tagWords c n))
  { n := n
    tags := tags
    idx := (unpack c (indexBits c) (slice b (headerField b 1) (headerField b 2))).take
      (tags.count .EXACT + tags.count .PARTIAL)
    low := (unpack c c.L (slice b (headerField b 2) (headerField b 3))).take (tags.count .PARTIAL)
    full := slice b (4 + tagWords c n) (headerField b 1) }

/-- V4: the header's offsets rise from the end of the tags area to the end of the buffer. -/
def OffsetsRise (c : Cfg) (b : List Word) (len : Nat) : Prop :=
  4 + tagWords c (headerField b 0) ≤ headerField b 1 ∧ headerField b 1 ≤ headerField b 2 ∧
    headerField b 2 ≤ headerField b 3 ∧ headerField b 3 ≤ len

/-- V5 to V7: each of the three areas has the size its tags need. -/
def AreasFitTags (c : Cfg) (b : List Word) : Prop :=
  let tags := (cutStreams c b).tags
  headerField b 1 - (4 + tagWords c (headerField b 0)) = tags.count .MISS ∧
    headerField b 2 - headerField b 1 = ceilDiv (tags.count .EXACT + tags.count .PARTIAL) (reps c (indexBits c)) ∧
    headerField b 3 - headerField b 2 = ceilDiv (tags.count .PARTIAL) (reps c c.L)

section
variable {p : Params} {c : Cfg} {b : List Word} {len : Nat}

theorem parse_of_short (h : len < 4 + tagWords c (headerField b 0)) : parse p c b len = .error .malformedInput := by
  simp only [parse, if_pos h, ite_self]

variable (hlen : 4 + tagWords c (headerField b 0) ≤ len)
include hlen

theorem parse_of_large (hn : p.maxPageWords < headerField b 0) : parse p c b len = .error .bufferTooSmall := by
  simp only [parse]
  rw [if_neg (by omega), if_neg (by omega), if_pos hn]

variable (hn : headerField b 0 ≤ p.maxPageWords)
include hn

theorem parse_of_not_offsetsRise (h : ¬ OffsetsRise c b len) : parse p c b len = .error .malformedInput := by
  rw [OffsetsRise] at h
  simp only [parse]
  rw [if_neg (by omega), if_neg (by omega), if_neg (by omega), if_pos h]

theorem parse_of_offsetsRise (h : OffsetsRise c b len) :
    parse p c b len = parseAreas c b (headerField b 0) (headerField b 1) (headerField b 2) (headerField b 3)
      (cutStreams c b).tags := by
  rw [OffsetsRise] at h
  simp only [parse]
  rw [if_neg (by omega), if_neg (by omega), if_neg (by omega), if_neg (not_not.2 h)]
  rfl

theorem parse_of_not_areasFitTags (h : ¬ AreasFitTags c b) : parse p c b len = .error .malformedInput := by
  by_cases ho : OffsetsRise c b len
  · rw [parse_of_offsetsRise hlen hn ho]
    simp only [parseAreas]
    split_ifs with h5 h6 h7
    · rfl
    · rfl
    · rfl
    · exact absurd ⟨not_not.1 h5, not_not.1 h6, not_not.1 h7⟩ h
  · exact parse_of_not_offsetsRise hlen hn ho

theorem parse_of_areasFitTags (ho : OffsetsRise c b len) (h : AreasFitTags c b) :
    parse p c b len = .ok (cutStreams c b) := by
  obtain ⟨h5, h6, h7⟩ := h
  rw [parse_of_offsetsRise hlen hn ho]
  simp only [parseAreas]
  rw [if_neg (not_not.2 h5), if_neg (not_not.2 h6), if_neg (not_not.2 h7)]
  rfl

end

/-- The tests of a buffer that parses, and what the parse returns: `parse_ok` by the names above. -/
theorem parse_ok_cut {p : Params} {c : Cfg} {b : List Word} {len : Nat} {x : Parsed} (h : parse p c b len = .ok x) :
    4 + tagWords c (headerField b 0) ≤ len ∧ headerField b 0 ≤ p.maxPageWords ∧ OffsetsRise c b len ∧
      AreasFitTags c b ∧ x = cutStreams c b := by
  obtain ⟨-, hlen, hn, ho1, ho2, ho3, ho4, hxn, htags, hmiss, hmatched, hpartial, -⟩ := parse_ok h
  have ho : OffsetsRise c b len := ⟨ho1, ho2, ho3, ho4⟩
  have ha : AreasFitTags c b := by
    rw [hxn] at htags hmiss
    rw [htags] at hmiss hmatched hpartial
    exact ⟨hmiss, hmatched, hpartial⟩
  cases (parse_of_areasFitTags hlen hn ho ha).symm.trans h
  exact ⟨hlen, hn, ho, ha, rfl⟩

/-- Settles O52: each test has its own equation of `parse`, and an error of the parse is the command's. -/
theorem decompressTestsInOrder : Obligations.DecompressTestsInOrder := by
  intro s hv hlen c b len n h1 h2 h3 a tags m q r v1 v2 v3 v4 v5 v6 v7
  have herror {code : ResultCode} : parse build c b len = .error code → exec .decompress s = .next (endWith code s) :=
    decompressOn_of_parse_error hv hlen
  refine ⟨fun hshort => herror (parse_of_short (show len < a by omega)),
    fun ⟨_, hroom, hlarge⟩ => herror (parse_of_large hroom (Nat.not_le.1 hlarge)), ?_,
    fun ⟨_, hroom, hn, hoffsets, hareas⟩ => parse_of_areasFitTags hroom hn hoffsets hareas⟩
  rintro ⟨-, hroom, hn, hfail⟩
  by_cases hoffsets : v4
  · exact herror (parse_of_not_areasFitTags hroom hn fun hareas => hfail ⟨hoffsets, hareas⟩)
  · exact herror (parse_of_not_offsetsRise hroom hn hoffsets)

/-! ### The words a parse looks at -/

theorem slice_eq_drop_take (b : List Word) (lo hi : Nat) : slice b lo hi = (b.take hi).drop lo := List.drop_take.symm

section
variable {b b' : List Word} {k : Nat} (h : b'.take k = b.take k)
include h

theorem slice_congr (lo : Nat) {hi : Nat} (hk : hi ≤ k) : slice b' lo hi = slice b lo hi := by
  have hsub : ∀ l : List Word, l.take hi = (l.take k).take hi := fun l => by rw [List.take_take, Nat.min_eq_left hk]
  rw [slice_eq_drop_take, slice_eq_drop_take, hsub, h, ← hsub]

theorem headerField_congr {i : Nat} (hk : i < k) : headerField b' i = headerField b i := by
  have hi := congrArg (fun l => l[i]?) h
  simp only [List.getElem?_take, if_pos hk] at hi
  rw [headerField, headerField, List.getD_eq_getElem?_getD, List.getD_eq_getElem?_getD, hi]

end

section
variable {c : Cfg} {b b' : List Word} {len : Nat} (ho : OffsetsRise c b len)
  (h : b'.take (headerField b 3) = b.take (headerField b 3))
include ho h

/-- The four header words lie below `header[3]`. -/
theorem headerField_of_take_eq {i : Nat} (hi : i < 4) : headerField b' i = headerField b i := by
  obtain ⟨ho1, ho2, ho3, -⟩ := ho
  exact headerField_congr h (by omega)

/-- The areas lie below `header[3]`. -/
theorem cutStreams_of_take_eq : cutStreams c b' = cutStreams c b := by
  have hh {i : Nat} (hi : i < 4) : headerField b' i = headerField b i := headerField_of_take_eq ho h hi
  obtain ⟨ho1, ho2, ho3, -⟩ := ho
  simp only [cutStreams, hh, Nat.reduceLT, slice_congr h, ho3, ho1.trans (ho2.trans ho3), ho2.trans ho3, le_refl]

end

/-- Settles O54: the header and the areas lie below `header[3]`, so the tests and what they cut are the same. -/
theorem wordsBeyondTheEndAreIgnored : Obligations.WordsBeyondTheEndAreIgnored := by
  intro p c b b' x _ _ hx hlong htake
  obtain ⟨-, hn, ho, ha, rfl⟩ := parse_ok_cut hx
  have hcut := cutStreams_of_take_eq ho htake
  have hh {i : Nat} (hi : i < 4) : headerField b' i = headerField b i := headerField_of_take_eq ho htake hi
  obtain ⟨ho1, ho2, ho3, -⟩ := ho
  rw [← hcut]
  apply parse_of_areasFitTags
  · rw [hh (by decide)]; omega
  · rwa [hh (by decide)]
  · simp only [OffsetsRise, hh, Nat.reduceLT]
    exact ⟨ho1, ho2, ho3, hlong⟩
  · simpa only [AreasFitTags, hcut, hh, Nat.reduceLT] using ha

/-! ### The replay -/

/-- Settles O51: the parse gives the lengths, and with them the replay writes every slot. -/
theorem parsedBufferReplaysToItsEnd : Obligations.ParsedBufferReplaysToItsEnd := by
  intro p c b x hp hcfg hx
  obtain ⟨htags, hfull, hidx, hlow, hidxLt, hlowLt, hn⟩ := parse_streams hcfg.facts hx
  obtain ⟨r, out, hr, hout⟩ := replay_of_parse hp hcfg hx
  exact ⟨htags, hfull, hidx, hlow, hidxLt, hlowLt, hn, r, out, hr, hout, replay_slots_length hr hout⟩

/-- Settles O56: the loop's trace, from the start of the streams to where no position is left to come. -/
theorem replayReconstructsInStrideOrder : Obligations.ReplayReconstructsInStrideOrder := by
  intro p c x hp hcfg htags hidx hlow hfull hidxLt ord
  have hs := hcfg.facts.stride
  have hord : ord.length = x.n := order_length _ _ hs
  obtain ⟨r, hr, hend⟩ := replay_ok hp.hashInRange hcfg.facts htags hidx hlow hfull hidxLt
  obtain ⟨d, hfirst, hlast, hseq, -, htakes⟩ := replayLoop_trace x (order_nodup _ _ hs)
    (fun i hi => htags ▸ (mem_order hs).1 hi) x.n hr (by simp [order_length _ _ hs]) (Nat.zero_le _) rfl
    (by simp [htags]) (by simp [seenTags]) (by simp [seenTags]) (by simp [seenTags])
  exact ⟨r, d, hr, hend.outLength.trans htags, hseq.trans hord, List.eq_nil_of_length_eq_zero hend.idxLength,
    List.eq_nil_of_length_eq_zero hend.lowLength, List.eq_nil_of_length_eq_zero hend.fullLength, hfirst,
    hord ▸ hlast, fun t i g => htakes t i g (Nat.zero_le _)⟩

/-! ### `DECOMPRESS` -/

/-- Settles O53: the words of a replay have `W` bits, so the cells hold them as they are. -/
theorem decompressWritesTheReplayedPage : Obligations.DecompressWritesTheReplayedPage := by
  refine ⟨encodedCommandDecodesToItself .decompress rfl, fun s => ⟨?_, fun h => needCfg_needCbufLen_refuse h _,
    fun code hv hlen hx => decompressOn_of_parse_error hv hlen hx⟩⟩
  intro x hv hcfg hlen hx
  have hx' := hx
  rw [← cbufWordsOf_length] at hx'
  obtain ⟨htags, hfull, hidx, hlow, hidxLt, -, hn⟩ := parse_streams hcfg.facts hx'
  obtain ⟨r, out, hr, hslots, hout, houtLen, hwords⟩ :=
    replay_spec build_legal.hashInRange hcfg.facts htags hidx hlow hfull hidxLt
  refine ⟨_, r, out, decompressOn_of_replay hv hlen hx hr hslots, rfl, hr, hout, houtLen, fun i => ?_, ?_, rfl,
    (Commits.decompress (p := build) hv hlen hx hr hslots).frame⟩
  · rw [endWith_pageCell, pageCell_commitDecompress]
    split
    · exact truncW_of_wordOk (hwords _ (List.getElem_mem _))
    · rfl
  · have hmax := build_legal.pageHigh
    exact Nat.mod_eq_of_lt (show x.n < 2 ^ 32 by omega)

/-! ### Decoding what was encoded (44_layout_decoder.md R197) -/

/-- A buffer `encode` made, whatever follows it, parses back to the streams it was made of. -/
theorem parse_of_encodeBuffer {p : Params} {c : Cfg} {tags : List Tag} {idx low : List Nat} {full b : List Word}
    (hp : p.Legal) (hc : CfgFacts p c) (hidx : ∀ e ∈ idx, e < cap c) (hlow : ∀ l ∈ low, l < 2 ^ c.L)
    (hidxLength : idx.length = tags.count .EXACT + tags.count .PARTIAL) (hlowLength : low.length = tags.count .PARTIAL)
    (hfullLength : full.length = tags.count .MISS) (hn : tags.length ≤ p.maxPageWords)
    (hb : encodeBuffer c tags.length tags idx low full = some b) (hsize : b.length < 2 ^ 64) (extra : List Word) :
    parse p c (b ++ extra) (b ++ extra).length =
      .ok { n := tags.length, tags := tags, idx := idx, low := low, full := full } := by
  obtain ⟨hcap, hib1, hib16⟩ := hc.indexBits
  have hrI := (reps_bounds c hib1 hib16).1
  have hrL := (reps_bounds c (k := c.L) (by have := hc.lowBits; omega) hc.lowBits.2).1
  obtain ⟨ta, ia, la, hta, hia, hla, henc, lta, lia, lla, -⟩ := encodeBuffer_spec hc tags.length tags full hidx hlow
  cases henc.symm.trans hb
  have hlength := assembleBuffer_length tags.length ta full ia la
  rw [hlength] at hsize
  have hunpackIdx := packedArea_unpack (by omega) (hcap ▸ hidx) hia
  have hunpackLow := packedArea_unpack (by omega) hlow hla
  rw [hidxLength] at lia hunpackIdx
  rw [hlowLength] at lla hunpackLow
  have hmax := hp.pageHigh
  obtain ⟨h0, h1, h2, h3⟩ := assembleBuffer_header (n := tags.length) (ta := ta) (fa := full) (ia := ia) (la := la)
    extra (by omega) hsize
  obtain ⟨sta, sfa, sia, sla⟩ := assembleBuffer_slices tags.length ta full ia la extra
  have hcut : cutStreams c (assembleBuffer tags.length ta full ia la ++ extra) =
      { n := tags.length, tags := tags, idx := idx, low := low, full := full } := by
    simp only [cutStreams, h0, h1, h2, h3, ← lta, sta, sfa, sia, sla, tagsOfArea_packedArea hta, hunpackIdx,
      hunpackLow]
  rw [← hcut]
  apply parse_of_areasFitTags
  · rw [h0, List.length_append, hlength]; omega
  · rwa [h0]
  · rw [OffsetsRise, h0, h1, h2, h3, List.length_append, hlength]; omega
  · simp only [AreasFitTags, hcut, h0, h1, h2, h3, ← hfullLength]
    omega

/-- The replay of what the page model emitted writes the page back (44_layout_decoder.md R196, R197). -/
theorem replay_of_modelPage {p : Params} {c : Cfg} {page : List Word} (hc : CfgFacts p c)
    (hpage : ∀ w ∈ page, WordOk c w) {tags : List Tag} (htags : (modelPage p c page).run.tags = tags.map some) :
    let m := (modelPage p c page).run
    ∃ r, replay p c { n := page.length, tags := tags, idx := m.idx, low := m.low, full := m.full } = some r ∧
      definedSlots r.out = some page := by
  intro m
  obtain ⟨r, hr, hlen, hout⟩ := replayLoop_of_modelFold (p := p) hc.lowBits.2 page hpage (order page.length c.stride)
    (order_nodup _ _ hc.stride) (fun i hi => (mem_order hc.stride).1 hi) page.length
    { dict := fresh c, run := emptyRun page.length }
    { dict := fresh c
      run := { seq := 0, tags := tags.map some, idx := m.idx, low := m.low, full := m.full }
      out := List.replicate page.length none }
    0 (modelPage p c page) (modelPage_eq_foldl p c page hc.stride) (by rw [order_length _ _ hc.stride]; omega) rfl rfl
    (by simp [emptyRun]) (by simp) (fun _ _ => by rw [htags]) rfl rfl rfl
  refine ⟨r, hr, definedSlots_eq_some.2 (List.ext_getElem (by rw [hlen, List.length_map]) fun i hi hi' => ?_)⟩
  have hipage : i < page.length := by rwa [hlen] at hi
  have h := (hout i).1 ((mem_order hc.stride).2 hipage)
  rw [List.getElem?_eq_getElem hi, List.getElem?_eq_getElem hipage] at h
  rw [Option.some.inj h, List.getElem_map]

/-- The words `DECOMPRESS` reads begin with those that stand in `CBUF`. -/
theorem cbufWordsOf_eq_append {s : State} {b : List Word} (hlen : b.length ≤ s.cbufLen.toNat)
    (hb : ∀ i, (h : i < b.length) → cbufRead s i = b[i]) :
    ∃ extra, cbufWordsOf s = b ++ extra := by
  have htake : (cbufWordsOf s).take b.length = b := by
    refine List.ext_getElem (by rw [List.length_take, cbufWordsOf_length]; omega) fun i hi hi' => ?_
    simpa [cbufWordsOf] using hb i hi'
  have hsplit := List.take_append_drop b.length (cbufWordsOf s)
  rw [htake] at hsplit
  exact ⟨_, hsplit.symm⟩

/-- What is read of `PAGE` after `DECOMPRESS` has committed words of `W` bits. -/
theorem pageRead_commitDecompress {s : State} {out : List Word} (hout : ∀ w ∈ out, WordOk s.cfg w) (n : Nat) {i : Nat}
    (hi : i < out.length) : pageRead (endWith .ok (commitDecompress s n out)) i = out[i] := by
  have hw : WordOk s.cfg out[i] := hout _ (List.getElem_mem hi)
  have hcell : pageCell (endWith .ok (commitDecompress s n out)) i = out[i] := by
    rw [endWith_pageCell, pageCell_commitDecompress, dif_pos hi, truncW_of_wordOk hw]
  rw [pageRead, hcell]
  exact truncW_of_wordOk hw

/-- What is read of `CBUF` after `COMPRESS` has committed words of `W` bits. -/
theorem cbufRead_commitCompress {s : State} {b : List Word} (hb : ∀ w ∈ b, WordOk s.cfg w) {i : Nat}
    (hi : i < b.length) : cbufRead (endWith .ok (commitCompress s b)) i = b[i] := by
  have hcell : cbufCell (endWith .ok (commitCompress s b)) i = b[i] := by
    rw [endWith_cbufCell, cbufCell_commitCompress_of_wordOk hb, dif_pos hi]
  rw [cbufRead, hcell]
  exact truncW_of_wordOk (hb _ (List.getElem_mem hi))

/-- A `COMPRESS` that ends `OK` commits a buffer that, whatever follows it, parses to streams whose replay is the
page. -/
theorem compressOn_decodes {p : Params} {s t : State} (hp : p.Legal) (hcfg : CfgOk p s.cfg)
    (ht : compressOn p s = .next t) (hres : t.status.result = .ok) :
    ∃ b x r, t = endWith .ok (commitCompress s b) ∧ b.length ≤ s.cbufLen.toNat ∧ (∀ w ∈ b, WordOk s.cfg w) ∧
      (∀ extra, parse p s.cfg (b ++ extra) (b ++ extra).length = .ok x) ∧ x.n = s.cfg.N ∧
      replay p s.cfg x = some r ∧ definedSlots r.out = some (pageWordsOf s) := by
  obtain ⟨-, rfl⟩ | ⟨-, -, ⟨-, rfl⟩ | ⟨hroom, tags, b, hslots, hb, rfl⟩⟩ := compressOn_next ht
  · cases hres
  · cases hres
  · have hc := hcfg.facts
    obtain ⟨tags', b', -, -, hslots', hb', -, hsize, hwords⟩ := compressOn_encodes hp hcfg
    cases hslots.symm.trans hslots'
    cases hb.symm.trans hb'
    obtain ⟨tags', hmap, hslots', htags, hidxLength, hlowLength, hfullLength, hidx, hlow, -⟩ :=
      modelPage_spec (p := p) hp.hashInRange hc (pageWordsOf_wordOk s)
    cases hslots.symm.trans hslots'
    obtain ⟨r, hreplay, hout⟩ := replay_of_modelPage hc (pageWordsOf_wordOk s) hmap
    have hN : tags.length = s.cfg.N := htags.trans (pageWordsOf_length s)
    have hmax := hc.pageWords.2
    have hfit : b.length ≤ s.cbufLen.toNat := hsize.trans hroom
    rw [← htags] at hreplay
    rw [← hN] at hb
    exact ⟨b, _, r, rfl, hfit, hwords,
      parse_of_encodeBuffer hp hc hidx hlow hidxLength hlowLength hfullLength (by omega) hb (by omega), hN,
      hreplay, hout⟩

/-- Settles O59: the words `DECOMPRESS` reads are the buffer `COMPRESS` wrote and some that follow it. -/
theorem decompressInvertsCompress : Obligations.DecompressInvertsCompress := by
  intro p s t m len hp hcfg hv ht hres hlow hhigh
  obtain ⟨b, x, r, rfl, hfit, hwords, hparse, hn, hreplay, hout⟩ := compressOn_decodes hp hcfg ht hres
  let s' := ((endWith .ok (commitCompress s b)).setPage m).setCbufLen len
  have hlen : b.length ≤ len.toNat := (res1_commitCompress_toNat hfit).symm.trans_le hlow
  obtain ⟨extra, hextra⟩ : ∃ extra, cbufWordsOf s' = b ++ extra :=
    cbufWordsOf_eq_append hlen fun _ hi => cbufRead_commitCompress hwords hi
  have hx : parse p s'.cfg (cbufWordsOf s') s'.cbufLen.toNat = .ok x := by
    rw [← cbufWordsOf_length, hextra]
    exact hparse extra
  refine ⟨_, decompressOn_of_replay (s := s') hv hhigh hx hreplay hout, rfl, ?_, fun i hi => ?_⟩
  · have hmaxN := hcfg.facts.pageWords.2
    have hmaxPage := hp.pageHigh
    exact (Nat.mod_eq_of_lt (show x.n < 2 ^ 32 by omega)).trans hn
  · rw [pageRead_commitDecompress (s := s') (pageWordsOf_wordOk s) x.n (by rwa [pageWordsOf_length])]
    simp [pageWordsOf]

end Sys2Proof.Machine
end

section
/-!
PROOFS of the family 45_system.md: what `CONFIGURE` builds and destroys and what is refused while `CFG_VALID` is 0 (O27),
and `NOP` (O26).
-/

namespace Sys2Proof.Machine

/-! ### The staging values that pass (45_system.md R212) -/

/-- The record the staging registers describe, their width and organization read. -/
def stagedCfg (g : Staging) (w : Width) (o : Org) : Cfg where
  W := w
  L := g.lowBits.toNat
  org := o
  S := g.setSize.toNat
  M := g.numSets.toNat
  stride := g.stride.toNat
  N := g.pageWords.toNat

theorem widthOf_bits (w : Width) : widthOf w.bits = some w := by cases w <;> rfl

theorem orgOf_orgCode (o : Org) : orgOf (orgCode o) = some o := by cases o <;> rfl

theorem exists_bits_eq_iff (n : Nat) : (∃ w : Width, w.bits = n) ↔ n = 32 ∨ n = 64 := by
  constructor
  · rintro ⟨_ | _, rfl⟩
    · exact .inl rfl
    · exact .inr rfl
  · rintro (rfl | rfl)
    · exact ⟨.w32, rfl⟩
    · exact ⟨.w64, rfl⟩

theorem exists_orgCode_eq_iff (n : Nat) : (∃ o, orgCode o = n) ↔ n ≤ 3 := by
  constructor
  · rintro ⟨o, rfl⟩
    cases o <;> decide
  · intro h
    interval_cases n
    · exact ⟨.dm, rfl⟩
    · exact ⟨.fal, rfl⟩
    · exact ⟨.fah, rfl⟩
    · exact ⟨.sa, rfl⟩

theorem orgCode_injective : Function.Injective orgCode := fun a b h =>
  Option.some.inj (by rw [← orgOf_orgCode a, h, orgOf_orgCode])

section
variable {p : Params} {g : Staging} {w : Width} {o : Org} (hw : w.bits = g.wordWidth.toNat)
  (ho : orgCode o = g.org.toNat)
include hw ho

/-- K1 and K3 passed, `CONFIGURE` proposes the record described if it passes the other tests. -/
theorem proposedCfg_eq_ite :
    proposedCfg p g = if cfgLegal p (stagedCfg g w o) then some (stagedCfg g w o) else none := by
  rw [proposedCfg, ← hw, ← ho, widthOf_bits, orgOf_orgCode]
  rfl

theorem cfgLegal_stagedCfg_iff : cfgLegal p (stagedCfg g w o) = true ↔ ValidStaging p g := by
  have horg : ∀ o', g.org.toNat = orgCode o' ↔ o = o' := fun _ => by rw [← ho, orgCode_injective.eq_iff]
  rw [cfgLegal_iff]
  constructor
  · intro hc
    exact ⟨(exists_bits_eq_iff _).1 ⟨w, hw⟩, hc.lowBits, (exists_orgCode_eq_iff _).1 ⟨o, ho⟩,
      ⟨hc.setSize, hc.numSets, hc.capacity⟩,
      ⟨fun h => hc.dm ((horg .dm).1 h), fun h =>
        h.elim (fun h => hc.fal ((horg .fal).1 h)) fun h => hc.fah ((horg .fah).1 h)⟩,
      hc.stride, hc.pageWords⟩
  · rintro ⟨-, hlow, -, ⟨hS, hM, hcap⟩, ⟨hdm, hfa⟩, hstride, hN⟩
    exact ⟨hlow, hS, hM, hcap, fun h => hdm ((horg .dm).2 h), fun h => hfa (.inl ((horg .fal).2 h)),
      fun h => hfa (.inr ((horg .fah).2 h)), hstride, hN⟩

end

/-- `CONFIGURE` proposes a configuration exactly for the staging values that pass K1 to K7. -/
theorem exists_proposedCfg_iff (p : Params) (g : Staging) : (∃ c, proposedCfg p g = some c) ↔ ValidStaging p g := by
  constructor
  · rintro ⟨c, h⟩
    obtain ⟨-, -, hw, -, ho, -⟩ := proposedCfg_eq_some h
    rw [proposedCfg_eq_ite hw ho] at h
    split at h
    · exact (cfgLegal_stagedCfg_iff hw ho).1 ‹_›
    · cases h
  · intro h
    obtain ⟨hbits, -, hcode, -⟩ := id h
    obtain ⟨w, hw⟩ := (exists_bits_eq_iff _).2 hbits
    obtain ⟨o, ho⟩ := (exists_orgCode_eq_iff _).2 hcode
    exact ⟨_, (proposedCfg_eq_ite hw ho).trans (if_pos ((cfgLegal_stagedCfg_iff hw ho).2 h))⟩

/-! ### `CONFIGURE`, case by case

The equations that `configureOn_next` inverts. -/

theorem configureOn_of_some {p : Params} {s : State} {c : Cfg} (h : proposedCfg p s.stage = some c) :
    configureOn p s =
      .next (endWith .ok (setDictValid true (setCfgValid true ((s.setCfg c).setDict (fresh c))))) := by
  rw [configureOn, h]
  rfl

theorem configureOn_of_not_validStaging {p : Params} {s : State} (h : ¬ ValidStaging p s.stage) :
    configureOn p s = .next (endWith .invalidConfiguration (setDictValid false (setCfgValid false s))) := by
  have hnone : proposedCfg p s.stage = none :=
    Option.eq_none_iff_forall_ne_some.2 fun c hc => h ((exists_proposedCfg_iff p s.stage).1 ⟨c, hc⟩)
  rw [configureOn, hnone]
  rfl

/-! ### While `CFG_VALID` is 0 -/

/-- Every command but `NOP` and `CONFIGURE` is behind the gate on `CFG_VALID`; an illegal `K`, tested before it, ends the
same way (60_exceptions.md R232). -/
theorem exec_of_cfgValid_false {i : Instr} {s : State} (hc : s.status.cfgValid = false) (hnop : i ≠ .nop)
    (hconfigure : i ≠ .configure) : exec i s = .next (endWith .badCommand s) := by
  cases i with
  | nop => exact absurd rfl hnop
  | configure => exact absurd rfl hconfigure
  | dinit => exact needCfg_fail hc _
  | dlookup | dpromote | dsetval | classify | recon => exact needDict_refuse (.inl hc) _
  | packw | unpackw => exact (if_congr Iff.rfl (needCfg_fail hc _) rfl).trans (ite_self _)
  | compress | decompress => exact needCfg_needCbufLen_refuse (.inl hc) _

theorem cfgValid_notMem_writes {i : Instr} (hi : i ≠ .configure) : .CFG_VALID ∉ writes i := by
  cases i with
  | configure => exact absurd rfl hi
  | _ => simp [writes]

/-- Only a `CONFIGURE` that ends `OK` sets `CFG_VALID` (45_system.md R211): the others do not write `CFG_VALID`. -/
theorem configure_ok_of_cfgValid_set {i : Instr} {s t : State} (hc : s.status.cfgValid = false)
    (h : exec i s = .next t) (hv : t.status.cfgValid = true) : i = .configure ∧ t.status.result = .ok := by
  by_cases hi : i = .configure
  · subst hi
    obtain ⟨c, -, rfl⟩ | ⟨-, rfl⟩ := configureOn_next h
    · exact ⟨rfl, rfl⟩
    · cases hv
  · have hkept : t.status.cfgValid = s.status.cfgValid :=
      (commandsWriteOnlyTheirColumns i s t h).1 .CFG_VALID (cfgValid_notMem_writes hi)
    rw [hkept, hc] at hv
    cases hv

/-- Settles O27: `CONFIGURE` proposes a configuration exactly if K1 to K7 hold; while `CFG_VALID` is 0 the other
commands fail their first gate and do not write it. -/
theorem configureBuildsOrDestroysTheInstance : Obligations.ConfigureBuildsOrDestroysTheInstance := by
  refine ⟨encodedCommandDecodesToItself .configure rfl, fun _ _ => exec_of_cfgValid_false,
    fun _ _ _ => configure_ok_of_cfgValid_set, fun s => ⟨fun hvalid => ?_, configureOn_of_not_validStaging⟩⟩
  obtain ⟨c, hproposed⟩ := (exists_proposedCfg_iff build s.stage).2 hvalid
  obtain ⟨-, -, hW, hL, horg, hS, hM, hstride, hN⟩ := proposedCfg_eq_some hproposed
  exact ⟨_, configureOn_of_some hproposed, hW, hL, horg, hS, hM, hstride, hN, rfl, rfl, rfl,
    (Commits.configure hproposed).frame⟩

/-- Settles O26: with no command running `BUSY` is 0 already, so the end of `NOP` changes the result only. -/
theorem nopClearsTheResult : Obligations.NopClearsTheResult := by
  refine ⟨encodedCommandDecodesToItself .nop rfl, fun s hidle => (execNop_eq s).trans ?_⟩
  rw [endWith, ← ((isIdle_iff s).1 hidle).1]
  rfl

end Sys2Proof.Machine
end

section
/-!
PROOFS of the family 60_exceptions.md: what an error changes (O20), the causes of each code (O21, O22), and the step with
no host move to make (O8).
-/

namespace Sys2Proof.Machine

/-! ### An idle block -/

theorem hostStepWith_of_no_pending {p : Params} {run : Instr → State → Result} {s : State} (h : s.host.pending = []) :
    hostStepWith p run s = .next s := by
  simp only [hostStepWith, h]

/-- Settles O8: with no move to make the step answers the state it was given. -/
theorem stepWithoutHostMoveKeepsTheState : Obligations.StepWithoutHostMoveKeepsTheState :=
  fun _ h => ⟨hostStepWith_of_no_pending h, fun _ => hostStepWith_of_no_pending h⟩

/-! ### What an error changes (60_exceptions.md R231) -/

/-- Settles O20: of the three ways a command ends, a commit ends `OK`; an error and a word that does not decode are the
end of a command and nothing else. -/
theorem errorsChangeOnlyTheResult : Obligations.ErrorsChangeOnlyTheResult := by
  intro c s t hidle ht hres
  cases hd : decode c with
  | error e =>
    cases (runWordWith_of_decodeError exec hd s).symm.trans ht
    exact ⟨fun _ => endWith_of_isIdle hidle _, nofun⟩
  | ok i =>
    cases exec_ends ((runWordWith_of_decode exec hd s).symm.trans ht) with
    | commit => exact absurd rfl hres
    | error hi => exact ⟨fun _ => endWith_of_isIdle hidle _, fun h => absurd (Except.ok.inj h) hi⟩
    | noInstance =>
      exact ⟨fun h => absurd rfl h,
        fun _ => endWith_of_isIdle (s := setDictValid false (setCfgValid false s)) hidle _⟩

/-! ### The causes of the codes (60_exceptions.md R227 to R232) -/

/-- What must hold of a command and a state for the command to end with a code. For `BadCommand` the command is one that a
word decodes to, since the model's `PACKW` and `UNPACKW` test `K` again (log 14). -/
def CodeCause (p : Params) (i : Instr) (s : State) : ResultCode → Prop
  | .ok => True
  | .invalidConfiguration => i = .configure ∧ ¬ ValidStaging p s.stage
  | .bufferTooSmall => i = .compress ∨ i = .decompress
  | .malformedInput => i = .decompress
  | .badCommand => i.WellFormed → BadState p i s

section
variable {p : Params} {i : Instr} {s : State}

/-- The gates of the commands on the dictionary (60_exceptions.md R229) fail only for causes of `BadCommand`. -/
theorem badState_of_usesDict (hi : usesDict i = true)
    (h : s.status.cfgValid = false ∨ s.status.dictValid = false ∨ (usesEntry i = true ∧ cap s.cfg ≤ s.arg1.toNat)) :
    BadState p i s := by
  obtain hc | hd | he := h
  · exact .inl ⟨(by rintro rfl; cases hi), (by rintro rfl; cases hi), hc⟩
  · exact .inr (.inl ⟨hi, hd⟩)
  · exact .inr (.inr (.inl he))

/-- The gates of the macro commands (60_exceptions.md R229) fail only for causes of `BadCommand`. -/
theorem badState_of_macro (hi : i = .compress ∨ i = .decompress)
    (h : s.status.cfgValid = false ∨ p.maxCbufWords < s.cbufLen.toNat) : BadState p i s := by
  obtain hc | hlen := h
  · exact .inl ⟨(by rintro rfl; simp at hi), (by rintro rfl; simp at hi), hc⟩
  · exact .inr (.inr (.inr ⟨hi, hlen⟩))

end

/-- Every code a command ends with has its cause. -/
theorem execOn_codeCause {p : Params} {i : Instr} {s t : State} (h : execOn p i s = .next t) :
    CodeCause p i s t.status.result := by
  have hok : ∀ i u, CodeCause p i s (endWith .ok u).status.result := fun _ _ => trivial
  cases i with
  | nop => rw [finishOk_next h]; exact hok _ _
  | configure =>
    obtain ⟨c, -, rfl⟩ | ⟨hnone, rfl⟩ := configureOn_next h
    · exact hok _ _
    · refine ⟨rfl, fun hvalid => ?_⟩
      obtain ⟨c, hc⟩ := (exists_proposedCfg_iff p s.stage).2 hvalid
      cases hnone.symm.trans hc
  | dinit =>
    obtain ⟨-, rfl⟩ | ⟨hc, rfl⟩ := execDinit_next h
    · exact hok _ _
    · exact fun _ => .inl ⟨nofun, nofun, hc⟩
  | packw k =>
    obtain ⟨-, -, rfl⟩ | ⟨hbad, rfl⟩ := execPackw_next h
    · exact hok _ _
    · exact fun hk => .inl ⟨nofun, nofun, hbad.resolve_left (ne_of_eq_of_ne hk (by decide))⟩
  | unpackw k =>
    obtain ⟨-, -, rfl⟩ | ⟨hbad, rfl⟩ := execUnpackw_next h
    · exact hok _ _
    · exact fun hk => .inl ⟨nofun, nofun, hbad.resolve_left (ne_of_eq_of_ne hk (by decide))⟩
  | dlookup =>
    obtain ⟨-, -, rfl⟩ | ⟨hbad, rfl⟩ := dlookupOn_next h
    · exact hok _ _
    · exact fun _ => badState_of_usesDict rfl (hbad.imp_right .inl)
  | classify =>
    obtain ⟨-, -, rfl⟩ | ⟨hbad, rfl⟩ := classifyOn_next h
    · exact hok _ _
    · exact fun _ => badState_of_usesDict rfl (hbad.imp_right .inl)
  | dpromote =>
    obtain ⟨-, -, -, rfl⟩ | ⟨hbad, rfl⟩ := execDpromote_next h
    · exact hok _ _
    · exact fun _ => badState_of_usesDict rfl (hbad.imp_right (.imp_right (.intro rfl)))
  | dsetval =>
    obtain ⟨-, -, -, rfl⟩ | ⟨hbad, rfl⟩ := execDsetval_next h
    · exact hok _ _
    · exact fun _ => badState_of_usesDict rfl (hbad.imp_right (.imp_right (.intro rfl)))
  | recon tag =>
    obtain ⟨-, -, -, rfl⟩ | ⟨hbad, rfl⟩ := reconOn_next h
    · exact hok _ _
    · exact fun _ => badState_of_usesDict rfl (hbad.imp_right (.imp_right (.imp_left (by simp [usesEntry]))))
  | compress =>
    obtain ⟨hbad, rfl⟩ | ⟨-, -, ⟨-, rfl⟩ | ⟨-, _, _, -, -, rfl⟩⟩ := compressOn_next h
    · exact fun _ => badState_of_macro (.inl rfl) hbad
    · exact .inl rfl
    · exact hok _ _
  | decompress =>
    obtain ⟨hbad, rfl⟩ | ⟨-, -, ⟨code, hx, rfl⟩ | ⟨_, _, _, -, -, -, rfl⟩⟩ := decompressOn_next h
    · exact fun _ => badState_of_macro (.inr rfl) hbad
    · rcases parse_error hx with rfl | rfl
      · exact rfl
      · exact .inr rfl
    · exact hok _ _

theorem exec_codeCause {i : Instr} {s t : State} (h : exec i s = .next t) : CodeCause build i s t.status.result :=
  execOn_codeCause ((execOn_build i s).trans h)

/-- Each cause of `BadCommand` fails a gate, whatever the other gates say. -/
theorem exec_of_badState {i : Instr} {s : State} (h : BadState build i s) : exec i s = .next (endWith .badCommand s) := by
  obtain ⟨hnop, hconfigure, hc⟩ | ⟨hi, hd⟩ | ⟨hi, he⟩ | ⟨rfl | rfl, hlen⟩ := h
  · exact exec_of_cfgValid_false hc hnop hconfigure
  · exact exec_of_dictValid_false hd hi
  · cases i with
    | dpromote | dsetval => exact needDict_needEntry_refuse (.inr (.inr he)) _
    | recon tag => exact reconOn_refuse (.inr (.inr ⟨by simpa [usesEntry] using hi, he⟩))
    | _ => cases hi
  · exact needCfg_needCbufLen_refuse (.inr hlen) _
  · exact needCfg_needCbufLen_refuse (.inr hlen) _

/-- Settles O21: a word that decodes gives a well-formed command, which ends with `BadCommand` only for its causes, and
each cause fails a gate. -/
theorem badCommandExactlyForItsCauses : Obligations.BadCommandExactlyForItsCauses := by
  intro c s
  cases hd : decode c with
  | error e => exact iff_of_true ⟨_, runWordWith_of_decodeError exec hd s, rfl⟩ (.inl ⟨e, rfl⟩)
  | ok i =>
    have hrun : runCommandWord c s = exec i s := runWordWith_of_decode exec hd s
    rw [hrun]
    constructor
    · rintro ⟨t, ht, hres⟩
      have hcause : CodeCause build i s .badCommand := hres ▸ exec_codeCause ht
      exact .inr ⟨i, rfl, hcause (decodedWordIsItsEncoding c i hd).1⟩
    · rintro (⟨e, he⟩ | ⟨j, hj, hbad⟩)
      · cases he
      · cases hj
        exact ⟨_, exec_of_badState hbad, rfl⟩

/-- Settles O22: each code has its cause, and `CONFIGURE` fails whenever a test of K1 to K7 does. -/
theorem errorCodesBelongToTheirCommands : Obligations.ErrorCodesBelongToTheirCommands := by
  intro i s t ht
  have hcause := exec_codeCause ht
  refine ⟨⟨fun hk => ?_, ?_⟩, fun hk => ?_, fun hk => ?_⟩
  · rwa [hk] at hcause
  · rintro ⟨rfl, hinvalid⟩
    cases (configureOn_of_not_validStaging hinvalid).symm.trans ht
    rfl
  · rwa [hk] at hcause
  · rwa [hk] at hcause

end Sys2Proof.Machine
end

section
/-!
PROOFS of the family 70_reset_and_hazards.md: the stated values after a reset (O15).
-/

namespace Sys2Proof.Machine

/-- The host's lists are no part of the block that reset gives values to. -/
theorem ResetValues.setHost {s : State} (h : ResetValues s) (v : HostSide) : ResetValues (s.setHost v) := h

theorem applyReset_resetValues (s : State) : ResetValues (applyReset s) :=
  (reset_resetValues.setHost _).setFree _

/-- Reset leaves the host's lists alone (70_reset_and_hazards.md R250, log 15). -/
theorem applyReset_host (s : State) : (applyReset s).host = s.host := rfl

/-- Settles O15: the step is `applyReset` of the state whose move is taken off, and `applyReset` changes `State.reset`
in the host's lists and the free values only. -/
theorem resetGivesTheStatedValues : Obligations.ResetGivesTheStatedValues := by
  refine ⟨reset_resetValues, fun p s rest hs hq => ?_⟩
  have hstep : stepOn p s = .next (applyReset (dropAction s)) := stepOn_of_pending hs hq
  refine ⟨_, hstep, fun hb => ?_, ?_, applyReset_resetValues _⟩
  · subst hb
    exact (stepOn_build s).symm.trans hstep
  · rw [applyReset_host, dropAction_eq hq]

end Sys2Proof.Machine
end
